-- ==== Sys2Proof/Word.lean ====
section
/-! DEFINITION. The word types of the block (00_scope.md R7): every value is an unsigned bit vector. -/

namespace Sys2Proof

/-- One byte: a DPRAM cell, an operand of the ports. -/
abbrev Byte := BitVec 8

/-- A 16-bit operand (R116, R122) or a two-byte field of the setup packet (R105). -/
abbrev Half := BitVec 16

/-- A 32-bit register word (R108 to R111). -/
abbrev Word := BitVec 32

/-- EPIDX, the endpoint index 0..31 (R102). -/
abbrev EpIdx := Fin 32

/-- A value of an element type `ELEM(f)` or a state type `T(h)`, as the bytes that spell it (R124). The types are
parameters (R6): each FIFO and each holder of State says how many bytes a value of its own type has (log entry 6). -/
abbrev Elem := List Byte

end Sys2Proof
end

