-- ==== Sys2Proof/Config.lean ====
section
/-! DEFINITION. The implementation parameters of 00_scope.md R6. The OPEN ones (number and sizes of FIFOs and holders,
external procedures) are plain data of State, so that a statement over all states holds for every choice; only the
values `State.reset` takes are named here (log entry 4). The block leaves no result value open, so there is no free value. -/

namespace Sys2Proof.Config

/-- `SETUP_BASE` (R70). -/
def setupBase : Nat := 0x000

/-- `EPCTRL_BASE` (R70). -/
def epCtrlBase : Nat := 0x008

/-- `BUFCTRL_BASE` (R70). -/
def bufCtrlBase : Nat := 0x080

/-- `EP0_BUF` (R72). -/
def ep0Buf : Nat := 0x100

/-- First address after the endpoint 0 buffer: `0x140 .. 0x17F` is reserved (R74). -/
def ep0End : Nat := 0x140

/-- `DATA_BASE` (R70). -/
def dataBase : Nat := 0x180

/-- First address after the data region: `0x900 .. 0xFFF` is reserved (R74). -/
def dataEnd : Nat := 0x900

/-- `DPRAM_SIZE` (R70). -/
def dpramSize : Nat := 0x1000

/-- `SLOT` (R6). -/
def slot : Nat := 64

/-- `MAX_PKT` (R6). -/
def maxPkt : Nat := 64

/-- The longest OUT packet a bus event can spell (R126 h). -/
def maxBusLen : Nat := 1023

/-- `CMD_ATOMIC` (R6, R85): a MAIN command of 42_device_commands.md runs with the interrupt masked. -/
def cmdAtomic : Bool := true

/-- `LOCK_MASKS_IRQ` (R6, R141): a lock held by MAIN masks the interrupt. -/
def lockMasksIrq : Bool := true

/-- DESIGN CHOICE (log entry 4, unsafe): `SLOTS(f)` of the FIFOs present after `State.reset`. -/
def resetFifoSlots : Nat := 8

/-- DESIGN CHOICE (log entry 4, unsafe): `INIT(h)` of the holder present after `State.reset`. -/
def resetHolderInit : Elem := [0]

/-- DESIGN CHOICE (log entry 4, unsafe): how many bytes a value of `ELEM(f)` and of `T(h)` has after `State.reset`, the
byte form of R124. -/
def resetElemSize : Nat := 1

end Sys2Proof.Config
end

