-- ==== Sys2Proof/Syntax.lean ====
section
/-! DEFINITION. The operations of the block: one constructor per row of spec/opcode_table.json (R130). A length operand
that stands before a byte sequence (`n`, `len`) is the length of the list and is no field of its own (log entry 19). -/

namespace Sys2Proof

/-- SETUP8, the 8-byte setup packet by its fields (R105). -/
structure SetupPacket where
  bmRequestType : Byte
  bRequest : Byte
  wValue : Half
  wIndex : Half
  wLength : Half
  deriving DecidableEq, Repr

/-- The operations: 23 commands (R117), 4 bus events (R118), 5 handler phases (R119), 3 completion services (R120),
3 classes of setup packet (R106). -/
inductive Instr where
  /-- LOCK.ACQUIRE (R140) -/
  | lockAcquire (id : Byte)
  /-- LOCK.RELEASE (R142) -/
  | lockRelease (id : Byte)
  /-- SH.GET (R144) -/
  | shGet (id : Byte)
  /-- SH.IS (R145) -/
  | shIs (id : Byte) (v : Elem)
  /-- SH.TRANSITION (R146) -/
  | shTransition (id : Byte) (expected next : Elem)
  /-- SH.FORCE (R147) -/
  | shForce (id : Byte) (next : Elem)
  /-- FIFO.ENQUEUE (R161); `n` is `items.length` -/
  | fifoEnqueue (id : Byte) (items : List Elem)
  /-- FIFO.DEQUEUE (R162) -/
  | fifoDequeue (id : Byte) (max : Half)
  /-- FIFO.ERASE (R163) -/
  | fifoErase (id : Byte) (n : Half)
  /-- FIFO.PULL (R164): `id` is the destination, `other` the source -/
  | fifoPull (id other : Byte)
  /-- FIFO.CLEAR (R165) -/
  | fifoClear (id : Byte)
  /-- FIFO.FIND (R166) -/
  | fifoFind (id : Byte) (marker : Elem)
  /-- FIFO.OCCUPIED (R167) -/
  | fifoOccupied (id : Byte)
  /-- FIFO.FREE (R168) -/
  | fifoFree (id : Byte)
  /-- FIFO.CAPACITY (R169) -/
  | fifoCapacity (id : Byte)
  /-- DEV.INIT (R180) -/
  | devInit
  /-- DEV.SET_RESOLVER (R182); `none` is the byte 0xFF (R124) -/
  | devSetResolver (fn : Option Byte)
  /-- DEV.CONFIGURE_EP (R183); `none` is the byte 0xFF (R124) -/
  | devConfigureEp (epAddr attributes : Byte) (maxPacket : Half) (cb : Option Byte)
  /-- DEV.CONTROL_SEND (R188); `len` is `data.length` -/
  | devControlSend (data : List Byte)
  /-- DEV.SEND (R189); `len` is `data.length` -/
  | devSend (ep : Byte) (data : List Byte)
  /-- DEV.RECEIVE (R190) -/
  | devReceive (ep : Byte) (maxLen : Half)
  /-- DEV.IS_SEND_PENDING (R192) -/
  | devIsSendPending (ep : Byte)
  /-- DEV.STALL_CONTROL (R191) -/
  | devStallControl
  /-- BUS.RESET (R212) -/
  | busReset
  /-- BUS.SETUP (R213): device address and the 8 bytes -/
  | busSetup (a : BitVec 7) (packet : SetupPacket)
  /-- BUS.IN (R214, R215) -/
  | busIn (a : BitVec 7) (n : BitVec 4)
  /-- BUS.OUT (R216, R217); `pid` true is DATA1; `len` is `data.length` -/
  | busOut (a : BitVec 7) (n : BitVec 4) (pid : Bool) (data : List Byte)
  /-- IRQ.ENTRY (R231), position H1 -/
  | irqEntry
  /-- IRQ.BUS_RESET (R232), position H2 -/
  | irqBusReset
  /-- IRQ.SETUP (R233), position H3 -/
  | irqSetup
  /-- IRQ.BUFF (R238), positions H4 and H5 -/
  | irqBuff
  /-- IRQ.EXIT (R242), position H6 -/
  | irqExit
  /-- COMPLETE.EP0_IN (R240), index 0 -/
  | completeEp0In
  /-- COMPLETE.OUT (R241), odd index -/
  | completeOut (i : EpIdx)
  /-- COMPLETE.IN (R241), even index from 2 -/
  | completeIn (i : EpIdx)
  /-- SETUP.SET_ADDRESS (R235): the fields of the packet beyond its first two bytes -/
  | setupSetAddress (wValue wIndex wLength : Half)
  /-- SETUP.SET_CONFIGURATION (R236): the fields of the packet beyond its first two bytes -/
  | setupSetConfiguration (wValue wIndex wLength : Half)
  /-- SETUP.OTHER (R236): every other packet, whole -/
  | setupOther (packet : SetupPacket)
  deriving DecidableEq, Repr

/-- What the command port returns (R121). `done` is the end of a command whose result the table calls "none". -/
inductive Result where
  | done
  | value (v : Elem)
  | bool (b : Bool)
  | count (n : Nat)
  | items (xs : List Elem)
  | distance (d : Option Nat)
  | ok
  | errAlreadyInitialized
  deriving DecidableEq, Repr

/-- How many bytes a value of each holder's and of each FIFO's type has, by identity (R6, R124; log entry 6). -/
structure Sizes where
  holders : List Nat
  fifos : List Nat
  deriving DecidableEq, Repr

/-- The byte form of R117 and R124: every type is a byte. -/
def Sizes.bytes : Sizes := { holders := [], fifos := [] }

/-- The size of `T(id)`; an identity that names no holder is read in the byte form. -/
def Sizes.holder (z : Sizes) (id : Byte) : Nat := z.holders.getD id.toNat 1

/-- The size of `ELEM(id)`; an identity that names no FIFO is read in the byte form. -/
def Sizes.fifo (z : Sizes) (id : Byte) : Nat := z.fifos.getD id.toNat 1

/-- The five formats the opcode table's rows are spelled in (R130). -/
inductive Format where
  | cmd | bus | ints | epidx | setup8
  deriving DecidableEq, Repr

end Sys2Proof
end

