-- ==== Sys2Proof/WellFormed.lean ====
section
/-! DEFINITION. Which terms of `Instr` are operations the formats of 30_encoding.md can spell. An operand that a command
itself faults on (a bad endpoint address, a length above 64) is well-formed: the fault is the command's meaning (R126 b to f). -/

namespace Sys2Proof

/-- 0xFF spells `None` (R124), so it is no identity. -/
def identityOk : Option Byte → Bool
  | none => true
  | some k => k != 0xFF#8

/-- A trailing sequence's length stands in 16 bits (R117). -/
def lengthOk {α : Type} (xs : List α) : Bool := xs.length < 65536

/-- A value has the size of its type (R124). -/
def elemOk (size : Nat) (v : Elem) : Bool := v.length == size

/-- The packet is SET_ADDRESS (R106). -/
def SetupPacket.isSetAddress (p : SetupPacket) : Bool := p.bmRequestType == 0x00#8 && p.bRequest == 0x05#8

/-- The packet is SET_CONFIGURATION (R106). -/
def SetupPacket.isSetConfiguration (p : SetupPacket) : Bool := p.bmRequestType == 0x00#8 && p.bRequest == 0x09#8

/-- Well-formedness of an operation where the types have these sizes. -/
def Instr.wf (z : Sizes) : Instr → Bool
  | .lockAcquire _ | .lockRelease _ => true
  | .shGet _ => true
  | .shIs id v => elemOk (z.holder id) v
  | .shTransition id expected next => elemOk (z.holder id) expected && elemOk (z.holder id) next
  | .shForce id next => elemOk (z.holder id) next
  | .fifoEnqueue id items => lengthOk items && items.all (elemOk (z.fifo id))
  | .fifoDequeue _ _ | .fifoErase _ _ | .fifoPull _ _ | .fifoClear _ => true
  | .fifoFind id marker => elemOk (z.fifo id) marker
  | .fifoOccupied _ | .fifoFree _ | .fifoCapacity _ => true
  | .devInit => true
  | .devSetResolver fn => identityOk fn
  | .devConfigureEp _ _ _ cb => identityOk cb
  | .devControlSend data => lengthOk data
  | .devSend _ data => lengthOk data
  | .devReceive _ _ | .devIsSendPending _ | .devStallControl => true
  | .busReset | .busSetup _ _ | .busIn _ _ => true
  | .busOut _ _ _ data => data.length ≤ Config.maxBusLen
  | .irqEntry | .irqBusReset | .irqSetup | .irqBuff | .irqExit => true
  | .completeEp0In => true
  | .completeOut i => i.val % 2 == 1
  | .completeIn i => i.val % 2 == 0 && i.val != 0
  | .setupSetAddress _ _ _ | .setupSetConfiguration _ _ _ => true
  | .setupOther p => !p.isSetAddress && !p.isSetConfiguration

end Sys2Proof
end

