-- ==== Sys2Proof/Decode.lean ====
section
/-! DEFINITION. The decoder, total on any bytes and rejecting by name, and after it the encoder (30_encoding.md).
The command port and the bus port carry byte strings (R116, R118); a handler phase is selected by the INTS word (R119),
a completion service by the index (R120), a setup class by the packet (R106). -/

namespace Sys2Proof

/-- Why a byte string spells no operation (R126 a, h). -/
inductive DecodeError where
  /-- the first byte is in neither opcode map (R126 a) -/
  | unknownOpcode
  /-- the string ends before its operands do -/
  | truncated
  /-- `a` with bit 7, `n` with bits 7:4, `pid` above 1 or `len` above 1023 in a bus event (R126 h) -/
  | badToken
  /-- bytes are left over where one operation had to fill the string -/
  | trailing
  deriving DecidableEq, Repr

/-- What a decoder answers: the operation and the bytes after it. -/
abbrev Decoded := Except DecodeError (Instr × List Byte)

/-! Byte order and operand assembly. -/

/-- Operand assembly of R122: the first byte holds bits 7:0. -/
def halfOfBytes (lo hi : Byte) : Half := hi ++ lo

/-- Bits 7:0 of a 16-bit operand. -/
def Half.lo (h : Half) : Byte := h.extractLsb' 0 8

/-- Bits 15:8 of a 16-bit operand. -/
def Half.hi (h : Half) : Byte := h.extractLsb' 8 8

/-- A 16-bit operand as it stands in a byte string, little-endian (R116). -/
def halfBytes (h : Half) : List Byte := [Half.lo h, Half.hi h]

/-- A length operand (R116). -/
def lengthBytes (n : Nat) : List Byte := halfBytes (BitVec.ofNat 16 n)

/-- Little-endian word of R76. -/
def wordOfBytes (b0 b1 b2 b3 : Byte) : Word := b3 ++ b2 ++ b1 ++ b0

/-- Byte `k` of a word, byte 0 holding bits 7:0 (R76). -/
def wordByte (w : Word) (k : Nat) : Byte := w.extractLsb' (8 * k) 8

/-- The four bytes of a word in order of increasing address (R76). -/
def wordBytes (w : Word) : List Byte := [wordByte w 0, wordByte w 1, wordByte w 2, wordByte w 3]

/-- The 8 bytes of a setup packet in order of increasing byte address (R105). -/
def packetBytes (p : SetupPacket) : List Byte :=
  [p.bmRequestType, p.bRequest] ++ halfBytes p.wValue ++ halfBytes p.wIndex ++ halfBytes p.wLength

/-- A setup packet from its 8 bytes (R105). -/
def packetOfBytes (b0 b1 b2 b3 b4 b5 b6 b7 : Byte) : SetupPacket :=
  { bmRequestType := b0, bRequest := b1, wValue := halfOfBytes b2 b3, wIndex := halfOfBytes b4 b5,
    wLength := halfOfBytes b6 b7 }

/-- An identity operand: 0xFF is `None` (R124). -/
def identityOfByte (b : Byte) : Option Byte := if b = 0xFF#8 then none else some b

/-- An identity operand as a byte (R124). -/
def identityByte : Option Byte → Byte
  | none => 0xFF#8
  | some k => k

/-! Reading operands off a byte string. -/

/-- Read one byte. -/
def takeByte (bs : List Byte) (k : Byte → List Byte → Decoded) : Decoded :=
  match bs with
  | b :: rest => k b rest
  | [] => .error .truncated

/-- Read a 16-bit operand (R122). -/
def takeHalf (bs : List Byte) (k : Half → List Byte → Decoded) : Decoded :=
  match bs with
  | lo :: hi :: rest => k (halfOfBytes lo hi) rest
  | _ => .error .truncated

/-- Read a sequence of `n` bytes. -/
def takeSeq (n : Nat) (bs : List Byte) (k : List Byte → List Byte → Decoded) : Decoded :=
  if n ≤ bs.length then k (bs.take n) (bs.drop n) else .error .truncated

/-- Read a 16-bit length and the sequence after it (R116). -/
def takeCounted (bs : List Byte) (k : List Byte → List Byte → Decoded) : Decoded :=
  takeHalf bs fun n rest => takeSeq n.toNat rest k

/-- Cut bytes into `n` values of `size` bytes. -/
def cutElems (size : Nat) : Nat → List Byte → List Elem
  | 0, _ => []
  | n + 1, bs => bs.take size :: cutElems size n (bs.drop size)

/-- Read a 16-bit count and that many values after it: the length operand counts elements (R122). -/
def takeElems (size : Nat) (bs : List Byte) (k : List Elem → List Byte → Decoded) : Decoded :=
  takeHalf bs fun n rest => takeSeq (n.toNat * size) rest fun raw r => k (cutElems size n.toNat raw) r

/-- Read an 8-byte setup packet (R105). -/
def takePacket (bs : List Byte) (k : SetupPacket → List Byte → Decoded) : Decoded :=
  match bs with
  | b0 :: b1 :: b2 :: b3 :: b4 :: b5 :: b6 :: b7 :: rest => k (packetOfBytes b0 b1 b2 b3 b4 b5 b6 b7) rest
  | _ => .error .truncated

/-! The decoders. -/

/-- The command opcode map (R117), where the types have these sizes; R117's own widths are `Sizes.bytes` (R124). -/
def decodeCmd (z : Sizes) (bs : List Byte) : Decoded :=
  takeByte bs fun op t =>
    match op.toNat with
    | 0x01 => takeByte t fun id r => .ok (.lockAcquire id, r)
    | 0x02 => takeByte t fun id r => .ok (.lockRelease id, r)
    | 0x08 => takeByte t fun id r => .ok (.shGet id, r)
    | 0x09 => takeByte t fun id r => takeSeq (z.holder id) r fun v r => .ok (.shIs id v, r)
    | 0x0A => takeByte t fun id r => takeSeq (z.holder id) r fun e r => takeSeq (z.holder id) r fun n r =>
        .ok (.shTransition id e n, r)
    | 0x0B => takeByte t fun id r => takeSeq (z.holder id) r fun n r => .ok (.shForce id n, r)
    | 0x10 => takeByte t fun id r => takeElems (z.fifo id) r fun xs r => .ok (.fifoEnqueue id xs, r)
    | 0x11 => takeByte t fun id r => takeHalf r fun m r => .ok (.fifoDequeue id m, r)
    | 0x12 => takeByte t fun id r => takeHalf r fun n r => .ok (.fifoErase id n, r)
    | 0x13 => takeByte t fun id r => takeByte r fun o r => .ok (.fifoPull id o, r)
    | 0x14 => takeByte t fun id r => .ok (.fifoClear id, r)
    | 0x15 => takeByte t fun id r => takeSeq (z.fifo id) r fun m r => .ok (.fifoFind id m, r)
    | 0x16 => takeByte t fun id r => .ok (.fifoOccupied id, r)
    | 0x17 => takeByte t fun id r => .ok (.fifoFree id, r)
    | 0x18 => takeByte t fun id r => .ok (.fifoCapacity id, r)
    | 0x20 => .ok (.devInit, t)
    | 0x21 => takeByte t fun fn r => .ok (.devSetResolver (identityOfByte fn), r)
    | 0x22 => takeByte t fun ep r => takeByte r fun at_ r => takeHalf r fun mp r => takeByte r fun cb r =>
        .ok (.devConfigureEp ep at_ mp (identityOfByte cb), r)
    | 0x23 => takeCounted t fun xs r => .ok (.devControlSend xs, r)
    | 0x24 => takeByte t fun ep r => takeCounted r fun xs r => .ok (.devSend ep xs, r)
    | 0x25 => takeByte t fun ep r => takeHalf r fun m r => .ok (.devReceive ep m, r)
    | 0x26 => takeByte t fun ep r => .ok (.devIsSendPending ep, r)
    | 0x27 => .ok (.devStallControl, t)
    | _ => .error .unknownOpcode

/-- The token's device address `a`: bits 6:0, bit 7 must be 0 (R118, R126 h). -/
def takeAddress (bs : List Byte) (k : BitVec 7 → List Byte → Decoded) : Decoded :=
  takeByte bs fun a r => if a.toNat < 128 then k (a.setWidth 7) r else .error .badToken

/-- The token's endpoint number `n`: bits 3:0, bits 7:4 must be 0 (R118, R126 h). -/
def takeNumber (bs : List Byte) (k : BitVec 4 → List Byte → Decoded) : Decoded :=
  takeByte bs fun n r => if n.toNat < 16 then k (n.setWidth 4) r else .error .badToken

/-- The bus event map (R118). -/
def decodeBus (bs : List Byte) : Decoded :=
  takeByte bs fun op t =>
    match op.toNat with
    | 0x40 => .ok (.busReset, t)
    | 0x41 => takeAddress t fun a r => takePacket r fun p r => .ok (.busSetup a p, r)
    | 0x42 => takeAddress t fun a r => takeNumber r fun n r => .ok (.busIn a n, r)
    | 0x43 => takeAddress t fun a r => takeNumber r fun n r => takeByte r fun pid r =>
        if pid.toNat ≤ 1 then
          takeHalf r fun len r =>
            if len.toNat ≤ Config.maxBusLen then
              takeSeq len.toNat r fun xs r => .ok (.busOut a n (pid == 1#8) xs, r)
            else .error .badToken
        else .error .badToken
    | _ => .error .unknownOpcode

/-- The class of a setup packet (R106): the first two bytes and nothing else decide. -/
def decodeSetup (p : SetupPacket) : Instr :=
  if p.isSetAddress then .setupSetAddress p.wValue p.wIndex p.wLength
  else if p.isSetConfiguration then .setupSetConfiguration p.wValue p.wIndex p.wLength
  else .setupOther p

/-- The completion service of an index (R120). -/
def decodeIndex (i : EpIdx) : Instr :=
  if i.val = 0 then .completeEp0In else if i.val % 2 = 1 then .completeOut i else .completeIn i

/-- Bit positions of the INTS layout (R110). -/
def intsBuffStatus : Nat := 4
/-- Bit position of `BUS_RESET` (R110). -/
def intsBusReset : Nat := 12
/-- Bit position of `SETUP_REQ` (R110). -/
def intsSetupReq : Nat := 16

/-- Every phase a status word selects, in the order they run (R119). -/
def decodePhases (s : Word) : List Instr :=
  [.irqEntry] ++ (if s.getLsbD intsBusReset then [.irqBusReset] else [])
    ++ (if s.getLsbD intsSetupReq then [.irqSetup] else [])
    ++ (if s.getLsbD intsBuffStatus then [.irqBuff] else []) ++ [.irqExit]

/-- The first cause phase a status word selects, in the fixed priority order (R119, R273); IRQ.ENTRY where no cause
bit is set, since it runs whatever the word is. -/
def decodeInts (s : Word) : Instr :=
  if s.getLsbD intsBusReset then .irqBusReset
  else if s.getLsbD intsSetupReq then .irqSetup
  else if s.getLsbD intsBuffStatus then .irqBuff
  else .irqEntry

/-- The decoder of a byte string, by format. Total: every string is answered or rejected by name. -/
def decodeAs (z : Sizes) (f : Format) (bs : List Byte) : Decoded :=
  match f with
  | .cmd => decodeCmd z bs
  | .bus => decodeBus bs
  | .ints =>
    match bs with
    | b0 :: b1 :: b2 :: b3 :: r => .ok (decodeInts (wordOfBytes b0 b1 b2 b3), r)
    | _ => .error .truncated
  | .epidx => takeByte bs fun b r => if h : b.toNat < 32 then .ok (decodeIndex ⟨b.toNat, h⟩, r) else .error .unknownOpcode
  | .setup8 => takePacket bs fun p r => .ok (decodeSetup p, r)

/-- A byte string of either port: the two opcode maps do not overlap (R117, R118). -/
def decodePort (z : Sizes) (bs : List Byte) : Decoded :=
  match decodeCmd z bs with
  | .error .unknownOpcode => decodeBus bs
  | d => d

/-! The encoder. -/

/-- The format an operation's row has in opcode_table.json (R130). -/
def Instr.format : Instr → Format
  | .lockAcquire _ | .lockRelease _ | .shGet _ | .shIs _ _ | .shTransition _ _ _ | .shForce _ _
  | .fifoEnqueue _ _ | .fifoDequeue _ _ | .fifoErase _ _ | .fifoPull _ _ | .fifoClear _ | .fifoFind _ _
  | .fifoOccupied _ | .fifoFree _ | .fifoCapacity _
  | .devInit | .devSetResolver _ | .devConfigureEp _ _ _ _ | .devControlSend _ | .devSend _ _ | .devReceive _ _
  | .devIsSendPending _ | .devStallControl => .cmd
  | .busReset | .busSetup _ _ | .busIn _ _ | .busOut _ _ _ _ => .bus
  | .irqEntry | .irqBusReset | .irqSetup | .irqBuff | .irqExit => .ints
  | .completeEp0In | .completeOut _ | .completeIn _ => .epidx
  | .setupSetAddress _ _ _ | .setupSetConfiguration _ _ _ | .setupOther _ => .setup8

/-- The packet a SETUP8 operation spells; `none` for the other formats (R106). -/
def Instr.packet : Instr → Option SetupPacket
  | .setupSetAddress v i l => some ⟨0x00#8, 0x05#8, v, i, l⟩
  | .setupSetConfiguration v i l => some ⟨0x00#8, 0x09#8, v, i, l⟩
  | .setupOther p => some p
  | _ => none

/-- The bytes of an operation in its format (R116 to R120, R105). An INTS phase is spelled by the word whose only cause
bit is its own; IRQ.ENTRY and IRQ.EXIT, which no bit selects, by the word 0. -/
def encode : Instr → List Byte
  | .lockAcquire id => [0x01, id]
  | .lockRelease id => [0x02, id]
  | .shGet id => [0x08, id]
  | .shIs id v => [0x09, id] ++ v
  | .shTransition id e n => [0x0A, id] ++ e ++ n
  | .shForce id n => [0x0B, id] ++ n
  | .fifoEnqueue id xs => [0x10, id] ++ lengthBytes xs.length ++ xs.flatten
  | .fifoDequeue id m => [0x11, id] ++ halfBytes m
  | .fifoErase id n => [0x12, id] ++ halfBytes n
  | .fifoPull id o => [0x13, id, o]
  | .fifoClear id => [0x14, id]
  | .fifoFind id m => [0x15, id] ++ m
  | .fifoOccupied id => [0x16, id]
  | .fifoFree id => [0x17, id]
  | .fifoCapacity id => [0x18, id]
  | .devInit => [0x20]
  | .devSetResolver fn => [0x21, identityByte fn]
  | .devConfigureEp ep at_ mp cb => [0x22, ep, at_] ++ halfBytes mp ++ [identityByte cb]
  | .devControlSend xs => [0x23] ++ lengthBytes xs.length ++ xs
  | .devSend ep xs => [0x24, ep] ++ lengthBytes xs.length ++ xs
  | .devReceive ep m => [0x25, ep] ++ halfBytes m
  | .devIsSendPending ep => [0x26, ep]
  | .devStallControl => [0x27]
  | .busReset => [0x40]
  | .busSetup a p => [0x41, a.setWidth 8] ++ packetBytes p
  | .busIn a n => [0x42, a.setWidth 8, n.setWidth 8]
  | .busOut a n pid xs => [0x43, a.setWidth 8, n.setWidth 8, if pid then 1 else 0] ++ lengthBytes xs.length ++ xs
  | .irqEntry => wordBytes 0
  | .irqBusReset => wordBytes 0x00001000
  | .irqSetup => wordBytes 0x00010000
  | .irqBuff => wordBytes 0x00000010
  | .irqExit => wordBytes 0
  | .completeEp0In => [0]
  | .completeOut i => [BitVec.ofNat 8 i.val]
  | .completeIn i => [BitVec.ofNat 8 i.val]
  | .setupSetAddress v i l => packetBytes ⟨0x00#8, 0x05#8, v, i, l⟩
  | .setupSetConfiguration v i l => packetBytes ⟨0x00#8, 0x09#8, v, i, l⟩
  | .setupOther p => packetBytes p

/-- A result as the command port returns it (R121); a count above 16 bits is reduced to them (log entry 23). -/
def encodeResult : Result → List Byte
  | .done => []
  | .value v => v
  | .bool b => [if b then 1 else 0]
  | .count n => lengthBytes n
  | .items xs => lengthBytes xs.length ++ xs.flatten
  | .distance none => [0]
  | .distance (some d) => [1] ++ lengthBytes d
  | .ok => [0]
  | .errAlreadyInitialized => [1]

/-! The host's question: the operation that a number of the opcode table spells. -/

/-- The bytes of a port string whose first byte is `w`, every later bit 0 (long enough for every operation). -/
def portBytes (z : Sizes) (w : Nat) : List Byte :=
  BitVec.ofNat 8 w :: List.replicate (15 + 2 * z.holders.sum + z.fifos.sum) 0

/-- An Option of a decoder's answer. -/
def decodedInstr : Decoded → Option Instr
  | .ok (i, _) => some i
  | .error _ => none

/-- The operation that the decoder reads from a number of `nbits` bits as opcode_table.json writes it. A number says nothing of
its format, so the width picks it (DESIGN CHOICE, log entry 16): up to 8 bits a port string's first byte, or else an
endpoint index; up to 16 bits `p[15:0]` of a setup packet (R130), with 0x1000 read as the BUS_RESET bit of an INTS word;
up to 32 bits an INTS word; more a whole setup packet. -/
def decodeTableWordAs (z : Sizes) (nbits w : Nat) : Option Instr :=
  if nbits ≤ 8 then
    match decodePort z (portBytes z w) with
    | .ok (i, _) => some i
    | .error _ => if h : w < 32 then some (decodeIndex ⟨w, h⟩) else none
  else if nbits ≤ 16 then
    if w = 0x1000 then some .irqBusReset
    else some (decodeSetup ⟨BitVec.ofNat 8 w, BitVec.ofNat 8 (w / 256), 0, 0, 0⟩)
  else if nbits ≤ 32 then some (decodeInts (BitVec.ofNat 32 w))
  else
    let b (k : Nat) : Byte := BitVec.ofNat 8 (w / 256 ^ k)
    some (decodeSetup (packetOfBytes (b 0) (b 1) (b 2) (b 3) (b 4) (b 5) (b 6) (b 7)))

/-- The same in the byte form of R117. -/
def decodeTableWord (nbits w : Nat) : Option Instr := decodeTableWordAs Sizes.bytes nbits w

end Sys2Proof
end

