-- ==== Sys2Proof/Machine/State.lean ====
section
/-! DEFINITION. The state of the block (10_state.md), all of it plain data, and its value after power-on (R58, R291).
Beside the spec's registers it holds what the four agents still do (their ports and the schedule), as lists the step reads. -/

namespace Sys2Proof.Machine

/-- The two execution contexts (R50). EXT counts as `irq` (R140). -/
inductive Ctx where
  | main | irq
  deriving DecidableEq, Repr

/-- Direction of a transaction (R14). -/
inductive Dir where
  | dirIn | dirOut
  deriving DecidableEq, Repr

/-- The fault kinds of R265. -/
inductive FaultKind where
  | notInitialized | noResolver | badEndpoint | badType | badLength | noSetup | lockMisuse
  deriving DecidableEq, Repr

/-- The device-level state machine of R23. -/
inductive DevState where
  | notInitialized | initialized | configured
  deriving DecidableEq, Repr

/-- `Idle, H1 .. H6` (R230). -/
inductive Phase where
  | idle | h1 | h2 | h3 | h4 | h5 | h6
  deriving DecidableEq, Repr

/-- The position register `hpc` (R51), kept down to the numbered line that runs next: each constructor names the line of
the block at that position (log entry 9). -/
inductive HandlerPos where
  /-- the handler is not running -/
  | idle
  /-- R231 line 1 -/
  | h1Read
  /-- R231 line 2 -/
  | h1Go
  /-- R232, the test of `s.BUS_RESET` and line 1 -/
  | h2Clear
  /-- R232 line 2 -/
  | h2Addr
  /-- R232 line 3 -/
  | h2Conf
  /-- R232 line 4 -/
  | h2Go
  /-- R233, the test of `s.SETUP_REQ` and line 1 -/
  | h3Clear
  /-- R233 line 2 -/
  | h3Copy
  /-- R233 line 3 -/
  | h3Toggle
  /-- R233 line 4: SET_ADDRESS whole (R235), or R236 line 1 -/
  | h3Dispatch
  /-- R236 line 2 -/
  | h3Emit
  /-- R236 line 3: the call of the resolver, held while it runs -/
  | h3Call
  /-- R236 line 4 -/
  | h3Resolved
  /-- R236 line 5 -/
  | h3Configure
  /-- R236 line 6 -/
  | h3Reject
  /-- R233 line 5 -/
  | h3Go
  /-- R238 line 1 -/
  | h4
  /-- R238, the tests of line 2 and line 4, line 2a, or line 3 where the bit is 0 -/
  | h5Loop
  /-- R238 line 2b -/
  | h5Len
  /-- R238 line 2c, for index 0 -/
  | h5Ep0
  /-- R238 line 2d and R241 line 1 -/
  | h5Serve
  /-- R241 line 2 -/
  | h5Emit
  /-- R241 line 3: the call of the callback, held while it runs -/
  | h5Call
  /-- R241 line 4 -/
  | h5Returned
  /-- R238 line 3 -/
  | h5Next
  /-- R242 -/
  | h6
  deriving DecidableEq, Repr

/-- The handler's local values (R51, R236, R238, R241). They have no value outside the phase that writes them; the model
holds zero there (log entry 15). -/
structure Locals where
  /-- the cause bits read at entry, INTS layout -/
  s : Word
  /-- the copy of `BUF_STATUS` -/
  b : Word
  /-- the loop index 0..32 -/
  i : Nat
  /-- the transferred length read at line 2b -/
  len : BitVec 10
  /-- the copy of the buffer handed to a callback -/
  bytes : List Byte
  /-- what the resolver answered -/
  ok : Bool
  deriving DecidableEq, Repr

/-- A state holder (R43): its value, which lock cell is its own, and how many bytes a value of `T(h)` has (log entry 6). -/
structure Holder where
  value : Elem
  lock : Nat
  size : Nat
  deriving DecidableEq, Repr

/-- A FIFO (R44): `slots.length` is `N`, `w` and `r` the cursors, `lock` the cell that is its own, `size` how many bytes a
value of `ELEM(f)` has (log entry 6). -/
structure Fifo where
  slots : List Elem
  w : Nat
  r : Nat
  lock : Nat
  size : Nat
  deriving DecidableEq, Repr

/-- An `arm_in` of MAIN under way (R186): its micro-steps still to come. It holds one reason in `irq_mask` (R85). A command
of external code is one step and leaves no record (R279, log entry 10). -/
structure Arming where
  idx : EpIdx
  /-- bytes not yet copied -/
  todo : List Byte
  /-- bytes copied so far -/
  off : Nat
  /-- `len` of the command -/
  len : Nat
  /-- line 2 is done, only the flip of line 3 is left -/
  wordDone : Bool
  deriving DecidableEq, Repr

/-- A command that is `stuck` at a lock cell (R140): it goes on when the cell is free. -/
structure Waiting where
  instr : Instr
  /-- the cell it waits for -/
  lock : Nat
  /-- FIFO.PULL that already holds its own FIFO's lock and waits for the other's (R164) -/
  inner : Bool
  deriving DecidableEq, Repr

/-- What an issued command's bytes end with (log entry 7). -/
inductive Tail where
  /-- nothing -/
  | nothing
  /-- a 16-bit length and the bytes the procedure was given -/
  | args
  /-- the bytes of the last command's result -/
  | result
  deriving DecidableEq, Repr

/-- An external procedure (R11) as plain data: a finite tree of commands, which may look at its arguments and at the last
command's result before it goes on, and returns. As a resolver it answers the Boolean; a callback's Boolean is ignored. -/
inductive Proc where
  /-- return -/
  | ret (ok : Bool)
  /-- put these bytes on the command port, then go on -/
  | issue (bytes : List Byte) (tail : Tail) (andThen : Proc)
  /-- test one byte of the arguments -/
  | ifArg (pos : Nat) (value : Byte) (yes no : Proc)
  /-- test the bytes of the last command's result -/
  | ifResult (bytes : List Byte) (yes no : Proc)
  deriving DecidableEq, Repr

/-- A call of external code under way (R11, R51). -/
structure ExtCall where
  /-- the bytes it was given: the packet, or the buffer's copy -/
  args : List Byte
  /-- the bytes its last command returned -/
  result : List Byte
  /-- what it still does -/
  rest : Proc
  deriving DecidableEq, Repr

/-- The observable events (R57). -/
inductive Event where
  | tx (n : BitVec 4) (pid : Bool) (bytes : List Byte)
  | rx (n : BitVec 4) (pid : Bool) (bytes : List Byte)
  | stallSent (n : BitVec 4) (dir : Dir)
  | nak (n : BitVec 4) (dir : Dir)
  | setupAccepted (packet : SetupPacket)
  | ignored
  | resolve (packet : SetupPacket)
  | resolved (ok : Bool)
  | call (i : EpIdx) (bytes : List Byte) (len : Nat)
  | returned (i : EpIdx)
  | addrSet (a : BitVec 7)
  deriving DecidableEq, Repr

/-- Who takes an atomic step (R88): HOST, or the processor (MAIN, IRQ or EXT, whichever executes). -/
inductive Agent where
  | host | proc
  deriving DecidableEq, Repr

/-- The state of the block. INVENTORY.md lists each field with its rule. -/
structure State where
  initialized : Bool
  configured : Bool
  setupValid : Bool
  lastSetup : SetupPacket
  toggle : Vector Bool 32
  callback : Vector (Option Byte) 32
  resolver : Option Byte
  devAddr : BitVec 7
  pullup : Bool
  intEn : Word
  busResetLatch : Bool
  setupReqLatch : Bool
  bufStatus : Word
  irqInstalled : Bool
  /-- DPRAM (R70) as (address, byte) cells in canonical form; an unlisted address reads 0 -/
  mem : List Host.Cell
  /-- the owner of each lock cell (R42) -/
  locks : List (Option Ctx)
  holders : List Holder
  fifos : List Fifo
  ctx : Ctx
  hpc : HandlerPos
  locals : Locals
  fault : Option FaultKind
  irqMask : Nat
  arming : Option Arming
  waiting : Option Waiting
  ext : Option ExtCall
  /-- the event history, oldest first (R57) -/
  events : List Event
  /-- what MAIN still puts on the command port (R116) -/
  mainPort : List Byte
  /-- what HOST still puts on the bus port (R118) -/
  busPort : List Byte
  /-- what the command port has returned to MAIN, oldest first (R121) -/
  mainOut : List Result
  /-- which agents take the next atomic steps (R88) -/
  sched : List Agent
  /-- the external procedures by identity (R11, R55) -/
  procs : List (Byte × Proc)
  deriving DecidableEq, Repr

/-- Why the machine stops. Every stop is safe: the model says nothing where the spec says nothing. -/
inductive Fault where
  /-- Raised by `step` in a state whose sticky `fault` register is set: R52 says nothing further of the block. Safe. -/
  | blockFaulted (kind : FaultKind)
  /-- Raised by a bus event or by the completion service whose `LEN` would reach a reserved DPRAM range (R74), which needs
  a `LEN` above 64 and so no run reaches. Safe. -/
  | reservedAccess
  deriving DecidableEq, Repr

/-- Why an operation is refused. Every refusal is safe. -/
inductive Refusal where
  /-- Reserved for an arm of `exec` without a meaning; no arm uses it. Safe. -/
  | notModelled (mnemonic : String)
  /-- Raised by a port whose bytes spell no operation: a decoder refuses them and the block never sees them (R126 a, h). Safe. -/
  | illegalEncoding
  /-- Raised by a command whose identity names no lock, holder, FIFO or external procedure (R126 g, U7), and by the
  handler's call of a procedure that does not exist, which no run registers. Safe. -/
  | noSuchIdentity
  /-- Raised by FIFO.PULL between FIFOs of different element types, which is not expressible (R164 c). Safe. -/
  | elementTypesDiffer
  /-- Raised by a bus event that HOST never does: before `PULLUP` (R210), or an OUT packet longer than the armed `LEN`
  (R219 c). Safe. -/
  | hostHasNoMove
  deriving DecidableEq, Repr

/-- What a meaning or a step answers. -/
abbrev Outcome := Host.Outcome State Fault Refusal

/-- The handler's locals outside their phases (log entry 15). -/
def Locals.none : Locals := { s := 0, b := 0, i := 0, len := 0, bytes := [], ok := false }

/-- The state after power-on (R58, R291). Where R58 says "no value" the model names zero (log entries 1, 2, 3, 5, 15); the
OPEN numbers of locks, holders and FIFOs are log entry 4; the ports, the schedule and the list of procedures are empty (log entries 7, 8). -/
def State.reset : State :=
  { initialized := false
    configured := false
    setupValid := false
    lastSetup := ⟨0, 0, 0, 0, 0⟩
    toggle := Vector.replicate 32 false
    callback := Vector.replicate 32 .none
    resolver := .none
    devAddr := 0
    pullup := false
    intEn := 0
    busResetLatch := false
    setupReqLatch := false
    bufStatus := 0
    irqInstalled := false
    mem := []
    locks := [.none, .none, .none, .none]
    holders := [{ value := Config.resetHolderInit, lock := 0, size := Config.resetElemSize }]
    fifos := [{ slots := List.replicate Config.resetFifoSlots [0], w := 0, r := 0, lock := 2, size := Config.resetElemSize },
              { slots := List.replicate Config.resetFifoSlots [0], w := 0, r := 0, lock := 3, size := Config.resetElemSize }]
    ctx := .main
    hpc := .idle
    locals := Locals.none
    fault := .none
    irqMask := 0
    arming := .none
    waiting := .none
    ext := .none
    events := []
    mainPort := []
    busPort := []
    mainOut := []
    sched := []
    procs := [] }

end Sys2Proof.Machine
end

