-- ==== Sys2Proof/Machine/Operands.lean ====
section
/-! DEFINITION. The operand forms of 30_encoding.md: endpoint addresses and indices, the addresses derived from an index,
the register words by field, the setup packet's fields, and the operand checks R184 and R185. -/

namespace Sys2Proof.Machine

/-! Endpoint addresses and indices (R101 to R103). -/

/-- EPADDR bit 7: 1 = IN. -/
def epIsIn (e : Byte) : Bool := e.getLsbD 7

/-- EPADDR bits 3:0. -/
def epNum (e : Byte) : BitVec 4 := e.extractLsb' 0 4

/-- EPADDR bits 6:4 must be 0. -/
def epReserved (e : Byte) : BitVec 3 := e.extractLsb' 4 3

/-- A valid EPADDR (R101). -/
def epValid (e : Byte) : Bool := epReserved e == 0#3

/-- The index of number `n` in a direction: `2n` for IN, `2n + 1` for OUT (R102, R211). -/
def idxOf (n : BitVec 4) (isIn : Bool) : EpIdx :=
  ⟨2 * n.toNat + (if isIn then 0 else 1), by have := n.isLt; split <;> omega⟩

/-- `idx` (R102). -/
def idx (e : Byte) : EpIdx := idxOf (epNum e) (epIsIn e)

/-- `addr_of` (R103). -/
def addrOf (i : EpIdx) : Byte := BitVec.ofNat 8 ((if i.val % 2 = 0 then 0x80 else 0) + i.val / 2)

/-! The types of holders and FIFOs (R6, R124). -/

/-- The sizes of the objects this machine has. -/
def sizesOf (s : State) : Sizes := { holders := s.holders.map Holder.size, fifos := s.fifos.map Fifo.size }

/-! External procedures (R11, R124). -/

/-- The procedure an identity names; `none` where it names nothing (U7). -/
def procBody : List (Byte × Proc) → Byte → Option Proc
  | [], _ => none
  | (k, p) :: ps, f => if k = f then some p else procBody ps f

/-- An identity operand is `None` or names a procedure (R124, R126 g). -/
def procNamed (s : State) : Option Byte → Bool
  | none => true
  | some f => (procBody s.procs f).isSome

/-! Addresses derived from an index (R70, R104, R125). -/

/-- `buf_addr` (R125). -/
def bufAddr (i : EpIdx) : Nat := if i.val < 2 then Config.ep0Buf else Config.dataBase + Config.slot * (i.val - 2)

/-- The first address after the region `buf_addr(i)` lies in; what follows is reserved (R74). -/
def bufEnd (i : EpIdx) : Nat := if i.val < 2 then Config.ep0End else Config.dataEnd

/-- `n` bytes from `buf_addr(i)` on do not reach a reserved range (R74). -/
def bufMapped (i : EpIdx) (n : Nat) : Bool := bufAddr i + n ≤ bufEnd i

/-- The word address of `EP_CTRL[i]`, `i >= 2` (R70). -/
def epCtrlAddr (i : EpIdx) : Nat := Config.epCtrlBase + 4 * (i.val - 2)

/-- The word address of `BUF_CTRL[i]` (R70). -/
def bufCtrlAddr (i : EpIdx) : Nat := Config.bufCtrlBase + 4 * i.val

/-! Bits of a register word. -/

/-- Write one bit, every other bit unchanged (R8, field write). -/
def setBit (w : Word) (k : Nat) (v : Bool) : Word :=
  if v then w ||| BitVec.twoPow 32 k else w &&& ~~~(BitVec.twoPow 32 k)

/-! BUFCTRL (R108). -/

/-- Bit position of `FULL`. -/
def bcFull : Nat := 15
/-- Bit position of `PID`. -/
def bcPid : Nat := 13
/-- Bit position of `STALL`. -/
def bcStall : Nat := 11
/-- Bit position of `AVAIL`. -/
def bcAvail : Nat := 10

/-- `LEN`, bits 9:0. -/
def bcLen (w : Word) : BitVec 10 := w.extractLsb' 0 10

/-- Write `LEN`, every other bit unchanged. -/
def setLen (w : Word) (len : BitVec 10) : Word := (w.extractLsb' 10 22) ++ len

/-- The word of a whole-register write: reserved bits 0 (R108, R113). -/
def mkBufCtrl (full pid stall avail : Bool) (len : BitVec 10) : Word :=
  (0#16) ++ BitVec.ofBool full ++ (0#1) ++ BitVec.ofBool pid ++ (0#1) ++ BitVec.ofBool stall ++ BitVec.ofBool avail ++ len

/-! EPCTRL (R109). -/

/-- `EN`, bit 31. -/
def ecEn (w : Word) : Bool := w.getLsbD 31

/-- `TYPE`, bits 27:26. -/
def ecType (w : Word) : BitVec 2 := w.extractLsb' 26 2

/-- `ADDR`, bits 15:0. -/
def ecAddr (w : Word) : BitVec 16 := w.extractLsb' 0 16

/-- The word of a whole-register write: reserved bits 0 (R109, R113). -/
def mkEpCtrl (en : Bool) (ty : BitVec 2) (addr : BitVec 16) : Word :=
  BitVec.ofBool en ++ (0#3) ++ ty ++ (0#10) ++ addr

/-! Setup packet fields and descriptor fields. -/

/-- The direction bit `bmRequestType[7]`: 1 = IN (R107). -/
def packetIsIn (p : SetupPacket) : Bool := p.bmRequestType.getLsbD 7

/-- The address of a SET_ADDRESS packet, `wValue[6:0]` (R123). -/
def packetAddress (p : SetupPacket) : BitVec 7 := p.wValue.extractLsb' 0 7

/-- The transfer type `attributes[1:0]` (R114, R115). -/
def attrType (a : Byte) : BitVec 2 := a.extractLsb' 0 2

/-! Operand checks. Each answers the first check that fails. -/

/-- R185: initialized, reserved bits, direction, length, in this order. -/
def checkTransfer (s : State) (wantIn : Bool) (ep : Byte) (len : Nat) : Option FaultKind :=
  if !s.initialized then some .notInitialized
  else if !epValid ep then some .badEndpoint
  else if epIsIn ep != wantIn then some .badEndpoint
  else if len > Config.maxPkt then some .badLength
  else none

/-- R184: initialized, reserved bits or number 0, transfer type, `max_packet`, in this order. -/
def checkConfigure (s : State) (ep attributes : Byte) (maxPacket : Half) : Option FaultKind :=
  if !s.initialized then some .notInitialized
  else if !epValid ep || epNum ep == 0#4 then some .badEndpoint
  else if attrType attributes == 0#2 || attrType attributes == 1#2 then some .badType
  else if maxPacket.toNat > Config.maxPkt then some .badLength
  else none

/-- The code of a fault kind (R265). -/
def faultCode : FaultKind → Nat
  | .notInitialized => 1
  | .noResolver => 2
  | .badEndpoint => 3
  | .badType => 4
  | .badLength => 5
  | .noSetup => 6
  | .lockMisuse => 7

/-- `dev_state` (R23). -/
def devState (s : State) : DevState :=
  if !s.initialized then .notInitialized else if s.configured then .configured else .initialized

/-- `hpc` as R51 and R230 name it. -/
def phaseOf : HandlerPos → Phase
  | .idle => .idle
  | .h1Read | .h1Go => .h1
  | .h2Clear | .h2Addr | .h2Conf | .h2Go => .h2
  | .h3Clear | .h3Copy | .h3Toggle | .h3Dispatch | .h3Emit | .h3Call | .h3Resolved | .h3Configure | .h3Reject | .h3Go => .h3
  | .h4 => .h4
  | .h5Loop | .h5Len | .h5Ep0 | .h5Serve | .h5Emit | .h5Call | .h5Returned | .h5Next => .h5
  | .h6 => .h6

end Sys2Proof.Machine
end

