-- ==== Sys2Proof/Machine/Flags.lean ====
section
/-! DEFINITION. The block has no condition codes (R41); its status words and one-bit status values, and the two clear
channels that write them, are here. -/

namespace Sys2Proof.Machine

/-- `INT_STATUS` (R32): derived, a read has no side effect. -/
def intStatus (s : State) : Word :=
  let c1 := setBit 0 intsBusReset (s.busResetLatch && s.intEn.getLsbD intsBusReset)
  let c2 := setBit c1 intsSetupReq (s.setupReqLatch && s.intEn.getLsbD intsSetupReq)
  setBit c2 intsBuffStatus (s.bufStatus != 0 && s.intEn.getLsbD intsBuffStatus)

/-- `irq_line` (R40): level-sensitive. -/
def irqLine (s : State) : Bool :=
  s.irqInstalled && ((s.busResetLatch && s.intEn.getLsbD intsBusReset)
    || (s.setupReqLatch && s.intEn.getLsbD intsSetupReq)
    || (s.bufStatus != 0 && s.intEn.getLsbD intsBuffStatus))

/-- A write of `m` to `INT_CLR` (R33): clears the latches whose bit is set; `BUFF_STATUS` is ignored. -/
def writeIntClr (m : Word) (s : State) : State :=
  { s with busResetLatch := s.busResetLatch && !m.getLsbD intsBusReset
           setupReqLatch := s.setupReqLatch && !m.getLsbD intsSetupReq }

/-- A write of `m` to `BUF_STATUS_CLR` (R35). -/
def writeBufStatusClr (m : Word) (s : State) : State := { s with bufStatus := s.bufStatus &&& ~~~m }

/-- The hardware sets bit `i` of `BUF_STATUS` (R34). -/
def setBufStatus (i : EpIdx) (s : State) : State := { s with bufStatus := setBit s.bufStatus i.val true }

/-- The word DEV.INIT writes to `INT_EN`: the three enable bits (R110, R180). -/
def intEnAll : Word := 0x00011010

/-- The word IRQ.BUS_RESET writes to `INT_CLR` (R232). -/
def intClrBusReset : Word := 0x00001000

/-- The word IRQ.SETUP writes to `INT_CLR` (R233). -/
def intClrSetupReq : Word := 0x00010000

/-- Arming flips the toggle after use (R186, R187). -/
def flipToggle (i : EpIdx) (s : State) : State := { s with toggle := s.toggle.set i.val (!s.toggle[i.val]) }

/-- A direct write of a toggle: DEV.CONFIGURE_EP and IRQ.SETUP only (R25). -/
def setToggle (i : EpIdx) (v : Bool) (s : State) : State := { s with toggle := s.toggle.set i.val v }

end Sys2Proof.Machine
end

