-- ==== Sys2Proof/Machine/Ops.lean ====
section
/-! DEFINITION. The named operations over memory and registers; raising a fault; taking the interrupt and leaving it;
the lock bracket; arming a buffer. -/

namespace Sys2Proof.Machine

/-! DPRAM (R70). The list is kept in canonical form: addresses strictly rising, no entry with the byte 0 an unlisted
address reads as. -/

/-- One byte of DPRAM; an unlisted address reads 0 (R292; before DEV.INIT log entry 3). -/
def memRead : List Host.Cell → Nat → Byte
  | [], _ => 0
  | (k, v) :: m, a => if k = a then v else memRead m a

/-- Remove the entry at an address. -/
def memErase : List Host.Cell → Nat → List Host.Cell
  | [], _ => []
  | (k, v) :: m, a => if k = a then memErase m a else (k, v) :: memErase m a

/-- Put an entry in its place in the order of addresses. -/
def memInsert : List Host.Cell → Nat → Byte → List Host.Cell
  | [], a, v => [(a, v)]
  | (k, w) :: m, a, v => if a < k then (a, v) :: (k, w) :: m else (k, w) :: memInsert m a v

/-- Write one byte of DPRAM; writing 0 removes the entry. -/
def memWrite (m : List Host.Cell) (a : Nat) (v : Byte) : List Host.Cell :=
  if v = 0 then memErase m a else memInsert (memErase m a) a v

/-- Write a list of bytes at rising addresses. -/
def memWriteBytes : List Host.Cell → Nat → List Byte → List Host.Cell
  | m, _, [] => m
  | m, a, b :: bs => memWriteBytes (memWrite m a b) (a + 1) bs

/-- `n` bytes at rising addresses. -/
def memReadBytes (m : List Host.Cell) : Nat → Nat → List Byte
  | _, 0 => []
  | a, n + 1 => memRead m a :: memReadBytes m (a + 1) n

/-- `MemRead(addr, 4)`, little-endian (R8, R76). -/
def memReadWord (m : List Host.Cell) (a : Nat) : Word :=
  wordOfBytes (memRead m a) (memRead m (a + 1)) (memRead m (a + 2)) (memRead m (a + 3))

/-- `MemWrite(addr, 4, w)`, little-endian (R8, R76). -/
def memWriteWord (m : List Host.Cell) (a : Nat) (w : Word) : List Host.Cell := memWriteBytes m a (wordBytes w)

/-- Every entry lies at or above `lo`, addresses strictly rising, below `DPRAM_SIZE`, no zero byte. -/
def memWfFrom : Nat → List Host.Cell → Bool
  | _, [] => true
  | lo, (k, v) :: m => decide (lo ≤ k) && decide (k < Config.dpramSize) && v != 0 && memWfFrom (k + 1) m

/-- The canonical form of DPRAM. -/
def memWf (m : List Host.Cell) : Bool := memWfFrom 0 m

/-! Registers held in DPRAM. -/

/-- `BUF_CTRL[i]` (R37). -/
def bufCtrl (s : State) (i : EpIdx) : Word := memReadWord s.mem (bufCtrlAddr i)

/-- Write `BUF_CTRL[i]`, one 32-bit write. -/
def setBufCtrl (i : EpIdx) (w : Word) (s : State) : State := { s with mem := memWriteWord s.mem (bufCtrlAddr i) w }

/-- `EP_CTRL[i]`, `i >= 2` (R36). -/
def epCtrl (s : State) (i : EpIdx) : Word := memReadWord s.mem (epCtrlAddr i)

/-- Write `EP_CTRL[i]`, one 32-bit write. -/
def setEpCtrl (i : EpIdx) (w : Word) (s : State) : State := { s with mem := memWriteWord s.mem (epCtrlAddr i) w }

/-- Write bytes of a buffer: `buf_addr(i) + off` on (R76, R186, R216). -/
def writeBuf (i : EpIdx) (off : Nat) (bs : List Byte) (s : State) : State :=
  { s with mem := memWriteBytes s.mem (bufAddr i + off) bs }

/-- The first `n` bytes of a buffer (R214, R241). -/
def readBuf (s : State) (i : EpIdx) (n : Nat) : List Byte := memReadBytes s.mem (bufAddr i) n

/-- `SETUP_HW` (R38) read as 8 bytes, by field (R77, R234). -/
def setupHw (s : State) : SetupPacket :=
  let b := fun k => memRead s.mem (Config.setupBase + k)
  packetOfBytes (b 0) (b 1) (b 2) (b 3) (b 4) (b 5) (b 6) (b 7)

/-- `SETUP_HW` written as 8 bytes (R213). -/
def setSetupHw (p : SetupPacket) (s : State) : State :=
  { s with mem := memWriteBytes s.mem Config.setupBase (packetBytes p) }

/-! Events, results, faults. -/

/-- `emit E` (R8, R57). -/
def emit (e : Event) (s : State) : State := { s with events := s.events ++ [e] }

/-- The end of a command: its result goes back to the caller on the command port (R8, R121), to MAIN or to the external
code that issued it. -/
def reply (r : Result) (s : State) : State :=
  match s.ctx with
  | .main => { s with mainOut := s.mainOut ++ [r] }
  | .irq => { s with ext := s.ext.map fun e => { e with result := encodeResult r } }

/-- `raise Fault(k)` (R8, R52, R267): the sticky register takes the first kind raised, nothing else is written and the
handler stays at its position. The faulted state is the next state; `step` goes no further from it (log entry 11). -/
def raise (k : FaultKind) (s : State) : Outcome := .next { s with fault := some (s.fault.getD k) }

/-! The interrupt. -/

/-- The handler is entered (R275): one step, nothing saved (R276). -/
def takeInterrupt (s : State) : State := { s with ctx := .irq, hpc := .h1Read }

/-- IRQ.EXIT (R242, R277): nothing restored, the locals lose their values (log entry 15). A lock cell that external code
left owned by `Irq` stays so (DESIGN CHOICE, log entry 24, unsafe). -/
def leaveInterrupt (s : State) : State := { s with hpc := .idle, ctx := .main, locals := Locals.none }

/-- Move the handler's position register (R8). -/
def goto (p : HandlerPos) (s : State) : State := { s with hpc := p }

/-! Lock cells (R42). -/

/-- The effect of a successful acquisition by the executing context (R140, R141); a command that was waiting waits no
more. -/
def acquireLock (l : Nat) (s : State) : State :=
  { s with locks := s.locks.set l (some s.ctx)
           irqMask := if s.ctx = .main ∧ Config.lockMasksIrq then s.irqMask + 1 else s.irqMask
           waiting := none }

/-- The effect of a release by the executing context, its owner (R142). -/
def releaseLock (l : Nat) (s : State) : State :=
  { s with locks := s.locks.set l none
           irqMask := if s.ctx = .main ∧ Config.lockMasksIrq then s.irqMask - 1 else s.irqMask }

/-- Acquire cell `l` for the command `i` and go on, or be `stuck` until it is free (R140, log entry 12). -/
def acquireOrWait (i : Instr) (l : Nat) (inner : Bool) (s : State) (k : State → Outcome) : Outcome :=
  match s.locks[l]? with
  | none => .refused .noSuchIdentity
  | some none => k (acquireLock l s)
  | some (some _) => .next { s with waiting := some { instr := i, lock := l, inner := inner } }

/-- `WITH_LOCK(l) { body }` of one command (R143), one atomic step (R148, R171): the body sees the lock held. -/
def withLock (i : Instr) (l : Nat) (s : State) (body : State → State × Result) : Outcome :=
  acquireOrWait i l false s fun s1 =>
    let (s2, r) := body s1
    .next (reply r (releaseLock l s2))

/-! Arming (R186, R187). -/

/-- The word `arm_in` writes (R186 line 2). -/
def armInWord (pid : Bool) (len : Nat) : Word := mkBufCtrl true pid false true (BitVec.ofNat 10 len)

/-- The word `arm_out` writes (R187 line 1). -/
def armOutWord (pid : Bool) (len : Nat) : Word := mkBufCtrl false pid false true (BitVec.ofNat 10 len)

/-- `arm_in` as a whole, in one step (R235, R279). -/
def armIn (i : EpIdx) (data : List Byte) (s : State) : State :=
  let s1 := writeBuf i 0 data s
  flipToggle i (setBufCtrl i (armInWord s.toggle[i.val] data.length) s1)

/-- `arm_out` as a whole (R187). -/
def armOut (i : EpIdx) (maxLen : Nat) (s : State) : State :=
  flipToggle i (setBufCtrl i (armOutWord s.toggle[i.val] maxLen) s)

/-- One micro-step of the `arm_in` under way (R186): the next byte of line 1, or line 2, or line 3 and the end of the
command. No effect where none is under way. -/
def armStep (s : State) : State :=
  match s.arming with
  | none => s
  | some a =>
    match a.todo with
    | b :: bs => { writeBuf a.idx a.off [b] s with arming := some { a with todo := bs, off := a.off + 1 } }
    | [] =>
      if a.wordDone then
        reply .done { flipToggle a.idx s with
          arming := none
          irqMask := if Config.cmdAtomic then s.irqMask - 1 else s.irqMask }
      else
        { setBufCtrl a.idx (armInWord s.toggle[a.idx.val] a.len) s with arming := some { a with wordDone := true } }

/-- An `arm_in` of MAIN begins and takes its first micro-step (R186), with the interrupt masked (R53, R85). -/
def startArm (i : EpIdx) (data : List Byte) (s : State) : State :=
  armStep { s with
    arming := some { idx := i, todo := data, off := 0, len := data.length, wordDone := false }
    irqMask := if Config.cmdAtomic then s.irqMask + 1 else s.irqMask }

/-- `arm_in` as the executing context runs it: for MAIN micro-steps that HOST may come between (R186, R85); for external
code one atomic step (R279, log entry 10). -/
def runArmIn (i : EpIdx) (data : List Byte) (s : State) : State :=
  match s.ctx with
  | .main => startArm i data s
  | .irq => reply .done (armIn i data s)

/-- `n` micro-steps of the `arm_in` under way with no other agent between them. -/
def armSteps : Nat → State → State
  | 0, s => s
  | n + 1, s => armSteps n (armStep s)

/-- The rest of the `arm_in` under way, with no other agent between its micro-steps. -/
def finishArm (s : State) : State :=
  match s.arming with
  | none => s
  | some a => armSteps (a.todo.length + 2) s

end Sys2Proof.Machine
end

