-- ==== Sys2Proof/Machine/Bus.lean ====
section
/-! DEFINITION. The bus events (43_bus_events.md): each is one whole transaction and one atomic step of HOST. -/

namespace Sys2Proof.Machine

/-- HOST can act (R210). -/
def busEnabled (s : State) : Bool := s.initialized && s.pullup

/-- `matched(a, i)` (R211). -/
def matched (s : State) (a : BitVec 7) (i : EpIdx) : Bool :=
  a == s.devAddr && (decide (i.val < 2) || ecEn (epCtrl s i))

/-- An event happens only while HOST has a move (R210, log entry 13). -/
def whenEnabled (s : State) (k : Outcome) : Outcome := if busEnabled s then k else .refused .hostHasNoMove

/-- BUS.RESET (R212): the hardware sets the latch and nothing else. -/
def execBusReset (s : State) : Outcome := whenEnabled s (.next { s with busResetLatch := true })

/-- An accepted setup packet's writes (R213). -/
def acceptSetup (p : SetupPacket) (s : State) : State :=
  let s1 := setSetupHw p s
  let s2 := setBufCtrl 0 (setBit (bufCtrl s1 0) bcStall false) s1
  let s3 := setBufCtrl 1 (setBit (bufCtrl s2 1) bcStall false) s2
  emit (.setupAccepted p) { s3 with setupReqLatch := true }

/-- BUS.SETUP (R213). -/
def execBusSetup (a : BitVec 7) (packet : SetupPacket) (s : State) : Outcome :=
  whenEnabled s (if a = s.devAddr then .next (acceptSetup packet s) else .next (emit .ignored s))

/-- The word an IN completion leaves: `AVAIL` and `FULL` 0, the rest kept (R214). -/
def inDoneWord (w : Word) : Word := setBit (setBit w bcAvail false) bcFull false

/-- The completing IN transaction (R214). -/
def completeIn (n : BitVec 4) (s : State) : State :=
  let i := idxOf n true
  let w := bufCtrl s i
  let s1 := emit (.tx n (w.getLsbD bcPid) (readBuf s i (bcLen w).toNat)) s
  setBufStatus i (setBufCtrl i (inDoneWord w) s1)

/-- BUS.IN (R214, R215): the cases in the order R215 tests them. -/
def execBusIn (a : BitVec 7) (n : BitVec 4) (s : State) : Outcome :=
  let i := idxOf n true
  let w := bufCtrl s i
  whenEnabled s (
    if !matched s a i then .next (emit .ignored s)
    else if w.getLsbD bcStall then .next (emit (.stallSent n .dirIn) s)
    else if !(w.getLsbD bcAvail && w.getLsbD bcFull) then .next (emit (.nak n .dirIn) s)
    else if bufMapped i (bcLen w).toNat then .next (completeIn n s)
    else .fault .reservedAccess)

/-- The word an OUT completion leaves: the received length, `FULL` 1, `AVAIL` 0, the rest kept (R216). -/
def outDoneWord (w : Word) (len : Nat) : Word :=
  setBit (setBit (setLen w (BitVec.ofNat 10 len)) bcFull true) bcAvail false

/-- The completing OUT transaction (R216), one step (R89 b). -/
def completeOut (n : BitVec 4) (pid : Bool) (data : List Byte) (s : State) : State :=
  let i := idxOf n false
  let w := bufCtrl s i
  let s1 := setBufCtrl i (outDoneWord w data.length) (writeBuf i 0 data s)
  emit (.rx n pid data) (setBufStatus i s1)

/-- BUS.OUT (R216, R217): the cases in the order R217 tests them. HOST never sends more than the armed `LEN` (R219 c).
The packet's PID is recorded and compared with nothing. -/
def execBusOut (a : BitVec 7) (n : BitVec 4) (pid : Bool) (data : List Byte) (s : State) : Outcome :=
  let i := idxOf n false
  let w := bufCtrl s i
  whenEnabled s (
    if !matched s a i then .next (emit .ignored s)
    else if w.getLsbD bcStall then .next (emit (.stallSent n .dirOut) s)
    else if !(w.getLsbD bcAvail && !w.getLsbD bcFull) then .next (emit (.nak n .dirOut) s)
    else if data.length > (bcLen w).toNat then .refused .hostHasNoMove
    else if bufMapped i data.length then .next (completeOut n pid data s)
    else .fault .reservedAccess)

end Sys2Proof.Machine
end

