-- ==== Sys2Proof/Machine/FifoOps.lean ====
section
/-! DEFINITION. The endpoint FIFO (41_fifo.md): cursor arithmetic on natural numbers reduced `mod N` (R170 d), and the nine
operations, each one bracket of the FIFO's own lock (R160). -/

namespace Sys2Proof.Machine

/-- `N = SLOTS(f)`: allocated slots (R44). -/
def fifoSize (f : Fifo) : Nat := f.slots.length

/-- `count = (N + w - r) mod N` (R45). -/
def fifoCount (f : Fifo) : Nat := (fifoSize f + f.w - f.r) % fifoSize f

/-- `free = N - 1 - count` (R160, R168). -/
def fifoFree (f : Fifo) : Nat := fifoSize f - 1 - fifoCount f

/-- The `j`-th oldest slot's value, `slot[(r + j) mod N]` (R45). -/
def fifoAt (f : Fifo) (j : Nat) : Elem := f.slots.getD ((f.r + j) % fifoSize f) []

/-- The `k` oldest elements, oldest first (R45). -/
def fifoOldest (f : Fifo) (k : Nat) : List Elem := (List.range k).map (fifoAt f)

/-- The contents, oldest first (R45). -/
def fifoContents (f : Fifo) : List Elem := fifoOldest f (fifoCount f)

/-- Append the elements of a list one slot at a time from the write cursor on (R161): `slot[(w + j) mod N]`, then
`w <- (w + k) mod N`. The caller gives no more elements than fit. -/
def fifoPush (f : Fifo) : List Elem → Fifo
  | [] => f
  | x :: xs => fifoPush { f with slots := f.slots.set f.w x, w := (f.w + 1) % fifoSize f } xs

/-- Advance the read cursor by `k` (R162, R163). -/
def fifoDrop (f : Fifo) (k : Nat) : Fifo := { f with r := (f.r + k) % fifoSize f }

/-- The 1-based distance of the first occurrence of a marker in a list (R166). -/
def distanceOf (marker : Elem) : Nat → List Elem → Option Nat
  | _, [] => none
  | d, x :: xs => if x = marker then some d else distanceOf marker (d + 1) xs

/-- A FIFO operation: the bracket of its own lock around a function of the FIFO (R160, R171). -/
def fifoOp (i : Instr) (id : Byte) (s : State) (f : Fifo → Fifo × Result) : Outcome :=
  match s.fifos[id.toNat]? with
  | none => .refused .noSuchIdentity
  | some q => withLock i q.lock s fun s1 =>
      let (q', r) := f q
      ({ s1 with fifos := s1.fifos.set id.toNat q' }, r)

/-- FIFO.ENQUEUE (R161): as many of the items as fit, the first ones. -/
def execFifoEnqueue (id : Byte) (items : List Elem) (s : State) : Outcome :=
  fifoOp (.fifoEnqueue id items) id s fun q =>
    let k := min items.length (fifoFree q)
    (fifoPush q (items.take k), .count k)

/-- FIFO.DEQUEUE (R162): up to `max` oldest items. -/
def execFifoDequeue (id : Byte) (max : Half) (s : State) : Outcome :=
  fifoOp (.fifoDequeue id max) id s fun q =>
    let k := min max.toNat (fifoCount q)
    (fifoDrop q k, .items (fifoOldest q k))

/-- FIFO.ERASE (R163): discard up to `n` oldest items. -/
def execFifoErase (id : Byte) (n : Half) (s : State) : Outcome :=
  fifoOp (.fifoErase id n) id s fun q =>
    let k := min n.toNat (fifoCount q)
    (fifoDrop q k, .count k)

/-- FIFO.CLEAR (R165): `r <- w`. -/
def execFifoClear (id : Byte) (s : State) : Outcome :=
  fifoOp (.fifoClear id) id s fun q => ({ q with r := q.w }, .done)

/-- FIFO.FIND (R166): scan the occupied slots from oldest to newest. -/
def execFifoFind (id : Byte) (marker : Elem) (s : State) : Outcome :=
  fifoOp (.fifoFind id marker) id s fun q => (q, .distance (distanceOf marker 1 (fifoContents q)))

/-- FIFO.OCCUPIED (R167). -/
def execFifoOccupied (id : Byte) (s : State) : Outcome :=
  fifoOp (.fifoOccupied id) id s fun q => (q, .count (fifoCount q))

/-- FIFO.FREE (R168). -/
def execFifoFree (id : Byte) (s : State) : Outcome :=
  fifoOp (.fifoFree id) id s fun q => (q, .count (fifoFree q))

/-- FIFO.CAPACITY (R169). -/
def execFifoCapacity (id : Byte) (s : State) : Outcome :=
  fifoOp (.fifoCapacity id) id s fun q => (q, .count (fifoSize q - 1))

/-- How many items a pull moves (R164). -/
def pullCount (a b : Fifo) : Nat := min (fifoFree a) (fifoCount b)

/-- The body of FIFO.PULL under both locks (R164): the oldest items of `other` become the newest of `id`. -/
def pullBody (id other : Byte) (a b : Fifo) (s : State) : State :=
  let k := pullCount a b
  { s with fifos := (s.fifos.set id.toNat (fifoPush a (fifoOldest b k))).set other.toNat (fifoDrop b k) }

/-- The bracket of the source's lock inside FIFO.PULL, the destination's being held (R164): the locks are released in the
reverse order (R143). -/
def pullInner (id other : Byte) (a b : Fifo) (s : State) : Outcome :=
  acquireOrWait (.fifoPull id other) b.lock true s fun s2 =>
    .next (reply (.count (pullCount a b)) (releaseLock a.lock (releaseLock b.lock (pullBody id other a b s2))))

/-- The command is a FIFO.PULL that waits for its source's lock and holds its destination's already (R164). -/
def pullHoldsOuter (id other : Byte) (s : State) : Bool :=
  match s.waiting with
  | some w => w.inner && decide (w.instr = .fifoPull id other)
  | none => false

/-- FIFO.PULL (R164): `id`'s lock, then `other`'s. `other = id` hangs: the second acquisition waits for the lock the
context holds (corner case b). Between different element types a pull is not expressible (corner case c). -/
def execFifoPull (id other : Byte) (s : State) : Outcome :=
  match s.fifos[id.toNat]?, s.fifos[other.toNat]? with
  | some a, some b =>
    if a.size ≠ b.size then .refused .elementTypesDiffer
    else if pullHoldsOuter id other s then pullInner id other a b s
    else acquireOrWait (.fifoPull id other) a.lock false s fun s1 => pullInner id other a b s1
  | _, _ => .refused .noSuchIdentity

end Sys2Proof.Machine
end

