-- ==== Sys2Proof/Machine/Device.lean ====
section
/-! DEFINITION. The device-controller commands (42_device_commands.md). Each is one atomic step but for `arm_in`, whose
micro-steps HOST may come between when MAIN issues it (R186, R279); a failing check raises its fault before anything is written (R267). -/

namespace Sys2Proof.Machine

/-- BLOCK RESET (R180, R292): every hardware register and every byte of DPRAM is 0. -/
def blockReset (s : State) : State :=
  { s with
    devAddr := 0
    pullup := false
    intEn := 0
    busResetLatch := false
    setupReqLatch := false
    bufStatus := 0
    mem := [] }

/-- DEV.INIT's own writes after it (R180): the driver's tables, the handler and its three causes, `PULLUP` last.
`resolver`, locks, holders, FIFOs and the event history are kept (R292). -/
def initBlock (s : State) : State :=
  { blockReset s with
    configured := false
    setupValid := false
    toggle := Vector.replicate 32 false
    callback := Vector.replicate 32 none
    irqInstalled := true
    intEn := intEnAll
    pullup := true
    initialized := true }

/-- DEV.INIT (R180); a second one changes nothing and reports it (R181). -/
def execDevInit (s : State) : Outcome :=
  if s.initialized then .next (reply .errAlreadyInitialized s) else .next (reply .ok (initBlock s))

/-- A command with an identity operand: one that names no procedure is refused before the block sees it (R126 g, U7). -/
def withProc (s : State) (fn : Option Byte) (k : Outcome) : Outcome :=
  if procNamed s fn then k else .refused .noSuchIdentity

/-- DEV.SET_RESOLVER (R182), allowed before DEV.INIT (R266). -/
def execDevSetResolver (fn : Option Byte) (s : State) : Outcome :=
  withProc s fn (.next (reply .done { s with resolver := fn }))

/-- DEV.CONFIGURE_EP's writes (R183). -/
def configureEp (i : EpIdx) (ty : BitVec 2) (cb : Option Byte) (s : State) : State :=
  let s1 := setToggle i false (setEpCtrl i (mkEpCtrl true ty (BitVec.ofNat 16 (bufAddr i))) s)
  { s1 with callback := s1.callback.set i.val cb }

/-- DEV.CONFIGURE_EP (R183, R184). -/
def execDevConfigureEp (epAddr attributes : Byte) (maxPacket : Half) (cb : Option Byte) (s : State) : Outcome :=
  withProc s cb
    (match checkConfigure s epAddr attributes maxPacket with
    | some k => raise k s
    | none => .next (reply .done (configureEp (idx epAddr) (attrType attributes) cb s)))

/-- A send on an IN endpoint (R189): the checks of R185, then `arm_in`. -/
def sendOn (ep : Byte) (data : List Byte) (s : State) : Outcome :=
  match checkTransfer s true ep data.length with
  | some k => raise k s
  | none => .next (runArmIn (idx ep) data s)

/-- DEV.SEND (R189). -/
def execDevSend (ep : Byte) (data : List Byte) (s : State) : Outcome := sendOn ep data s

/-- DEV.CONTROL_SEND (R188): exactly DEV.SEND on 0x80. -/
def execDevControlSend (data : List Byte) (s : State) : Outcome := sendOn 0x80 data s

/-- DEV.RECEIVE (R190): the checks of R185, then `arm_out` (R187). -/
def execDevReceive (ep : Byte) (maxLen : Half) (s : State) : Outcome :=
  match checkTransfer s false ep maxLen.toNat with
  | some k => raise k s
  | none => .next (reply .done (armOut (idx ep) maxLen.toNat s))

/-- DEV.IS_SEND_PENDING (R192): reads `AVAIL`. -/
def execDevIsSendPending (ep : Byte) (s : State) : Outcome :=
  match checkTransfer s true ep 0 with
  | some k => raise k s
  | none => .next (reply (.bool ((bufCtrl s (idx ep)).getLsbD bcAvail)) s)

/-- The index DEV.STALL_CONTROL stalls: the direction of the packet on record (R191). -/
def stallIndex (s : State) : EpIdx := if packetIsIn s.lastSetup then 0 else 1

/-- The checks of DEV.STALL_CONTROL, in order (R191). -/
def checkStall (s : State) : Option FaultKind :=
  if !s.initialized then some .notInitialized else if !s.setupValid then some .noSetup else none

/-- The field write of DEV.STALL_CONTROL, one atomic step (R80, R191). -/
def stallControl (s : State) : State :=
  setBufCtrl (stallIndex s) (setBit (bufCtrl s (stallIndex s)) bcStall true) s

/-- DEV.STALL_CONTROL (R191). -/
def execDevStallControl (s : State) : Outcome :=
  match checkStall s with
  | some k => raise k s
  | none => .next (reply .done (stallControl s))

end Sys2Proof.Machine
end

