-- ==== Sys2Proof/Machine/Ext.lean ====
section
/-! DEFINITION. External code (R11): how a call begins and ends, and what a procedure does next. -/

namespace Sys2Proof.Machine

/-- What a procedure does next. -/
inductive ExtMove where
  | ret (ok : Bool)
  | issue (bytes : List Byte) (andThen : Proc)
  deriving DecidableEq, Repr

/-- The bytes a command ends with (log entry 7). -/
def tailBytes (args result : List Byte) : Tail → List Byte
  | .nothing => []
  | .args => lengthBytes args.length ++ args
  | .result => result

/-- The next move of a procedure given its arguments and the last result: its tests take no step of the block. -/
def extMove (args result : List Byte) : Proc → ExtMove
  | .ret ok => .ret ok
  | .issue bytes tail k => .issue (bytes ++ tailBytes args result tail) k
  | .ifArg pos v y n => if args[pos]? = some v then extMove args result y else extMove args result n
  | .ifResult r y n => if result = r then extMove args result y else extMove args result n

/-- A call of `p` begins (R8): `hpc` keeps the position of the call (R51). -/
def beginCall (p : Proc) (args : List Byte) (s : State) : State :=
  { s with ext := some { args := args, result := [], rest := p } }

/-- `call f(args)` (R8). An identity that names no procedure was never registered (R126 g). -/
def callProc (f : Byte) (args : List Byte) (s : State) : Outcome :=
  match procBody s.procs f with
  | none => .refused .noSuchIdentity
  | some p => .next (beginCall p args s)

/-- The call returns: the handler goes on with the line after it (R236 line 4, R241 line 4). DESIGN CHOICE (log entry 24,
unsafe): R143 and R279 say that a procedure has released every lock it took, and not what follows if it has not; here it
returns all the same and the cell stays owned by `Irq`. -/
def endCall (ok : Bool) (s : State) : State :=
  match s.hpc with
  | .h3Call => { s with ext := none, hpc := .h3Resolved, locals := { s.locals with ok := ok } }
  | .h5Call => { s with ext := none, hpc := .h5Returned }
  | _ => { s with ext := none }

end Sys2Proof.Machine
end

