-- ==== Sys2Proof/Machine/Handler.lean ====
section
/-! DEFINITION. The interrupt handler (44_interrupt_dispatch.md). Each meaning runs ONE numbered line, the one the position
`hpc` names (R9), and moves `hpc`; away from a line of its own block it begins at its first line (log entry 9). -/

namespace Sys2Proof.Machine

/-! The phases (R231, R232, R233, R238, R242). -/

/-- IRQ.ENTRY (R231). -/
def execIrqEntry (s : State) : Outcome :=
  match s.hpc with
  | .h1Go => .next (goto .h2Clear s)
  | _ => .next (goto .h1Go { s with locals := { s.locals with s := intStatus s } })

/-- IRQ.BUS_RESET (R232). -/
def execIrqBusReset (s : State) : Outcome :=
  match s.hpc with
  | .h2Addr => .next (goto .h2Conf { s with devAddr := 0 })
  | .h2Conf => .next (goto .h2Go { s with configured := false })
  | .h2Go => .next (goto .h3Clear s)
  | _ =>
    if s.locals.s.getLsbD intsBusReset then .next (goto .h2Addr (writeIntClr intClrBusReset s))
    else .next (goto .h3Clear s)

/-- IRQ.SETUP (R233); line 4 is the operation `last_setup` spells (R106). -/
def execIrqSetup (s : State) : Outcome :=
  match s.hpc with
  | .h3Copy => .next (goto .h3Toggle { s with lastSetup := setupHw s, setupValid := true })
  | .h3Toggle => .next (goto .h3Dispatch (setToggle 0 true s))
  | .h3Go => .next (goto .h4 s)
  | _ =>
    if s.locals.s.getLsbD intsSetupReq then .next (goto .h3Copy (writeIntClr intClrSetupReq s))
    else .next (goto .h4 s)

/-- The mask of step 2a (R239). -/
def indexMask (i : Nat) : Word := BitVec.twoPow 32 i

/-- IRQ.BUFF (R238): line 1 at H4; the loop of H5. -/
def execIrqBuff (s : State) : Outcome :=
  match s.hpc with
  | .h5Loop =>
    if s.locals.i < 32 then
      if s.locals.b.getLsbD s.locals.i then .next (goto .h5Len (writeBufStatusClr (indexMask s.locals.i) s))
      else .next { s with locals := { s.locals with i := s.locals.i + 1 } }
    else .next (goto .h6 s)
  | .h5Len =>
    if h : s.locals.i < 32 then
      let s1 := { s with locals := { s.locals with len := bcLen (bufCtrl s ⟨s.locals.i, h⟩) } }
      .next (goto (if s.locals.i = 0 then .h5Ep0 else .h5Serve) s1)
    else .next (goto .h6 s)
  | .h5Next => .next (goto .h5Loop { s with locals := { s.locals with i := s.locals.i + 1 } })
  | _ =>
    if s.locals.s.getLsbD intsBuffStatus then
      .next (goto .h5Loop { s with locals := { s.locals with b := s.bufStatus, i := 0 } })
    else .next (goto .h6 s)

/-- IRQ.EXIT (R242). -/
def execIrqExit (s : State) : Outcome := .next (leaveInterrupt s)

/-! Completion services (R240, R241). -/

/-- Serve the callback of index `i` (R238 line 2d, R241), one line: the copy of the buffer, the event, the call, the event.
`callback[i]` is read here and not earlier (R91). -/
def serveCallback (i : EpIdx) (s : State) : Outcome :=
  match s.hpc with
  | .h5Emit => .next (goto .h5Call (emit (.call i s.locals.bytes s.locals.len.toNat) s))
  | .h5Call =>
    match s.callback[i.val] with
    | none => .next (goto .h5Returned s)
    | some f => callProc f s.locals.bytes s
  | .h5Returned => .next (goto .h5Next (emit (.returned i) s))
  | _ =>
    match s.callback[i.val] with
    | none => .next (goto .h5Next s)
    | some _ =>
      if bufMapped i s.locals.len.toNat then
        .next (goto .h5Emit { s with locals := { s.locals with bytes := readBuf s i s.locals.len.toNat } })
      else .fault .reservedAccess

/-- The deferred address is due: the packet on record is SET_ADDRESS (R240). -/
def addressDue (s : State) : Bool := s.setupValid && s.lastSetup.isSetAddress

/-- Apply the deferred address (R240). -/
def applyAddress (s : State) : State :=
  if addressDue s then
    emit (.addrSet (packetAddress s.lastSetup)) { s with devAddr := packetAddress s.lastSetup }
  else s

/-- COMPLETE.EP0_IN (R240), and then line 2d for index 0, which has no callback (R26). -/
def execCompleteEp0In (s : State) : Outcome :=
  match s.hpc with
  | .h5Serve | .h5Emit | .h5Call | .h5Returned => serveCallback 0 s
  | _ => .next (goto .h5Serve (applyAddress s))

/-- COMPLETE.OUT (R241). -/
def execCompleteOut (i : EpIdx) (s : State) : Outcome := serveCallback i s

/-- COMPLETE.IN (R241): the same as COMPLETE.OUT (R241, conflict C3). -/
def execCompleteIn (i : EpIdx) (s : State) : Outcome := serveCallback i s

/-! Setup packets (R235 to R237). -/

/-- SETUP.SET_ADDRESS (R235): ACK_ZLP in one micro-step (R233); the address is not written here. The packet's fields are
not looked at (R235); `wValue` is read from `last_setup` at the completion (R240). -/
def execSetupSetAddress (_wValue _wIndex _wLength : Half) (s : State) : Outcome := .next (goto .h3Go (armIn 0 [] s))

/-- Dispatch to the resolver (R236), one line. `sets` says whether acceptance sets `configured` (line 5). -/
def dispatchResolver (p : SetupPacket) (sets : Bool) (s : State) : Outcome :=
  match s.hpc with
  | .h3Emit => .next (goto .h3Call (emit (.resolve p) s))
  | .h3Call =>
    match s.resolver with
    | none => raise .noResolver s
    | some f => callProc f (packetBytes p) s
  | .h3Resolved => .next (goto .h3Configure (emit (.resolved s.locals.ok) s))
  | .h3Configure => .next (goto .h3Reject { s with configured := s.configured || (s.locals.ok && sets) })
  | .h3Reject =>
    if s.locals.ok then .next (goto .h3Go s)
    else
      match checkStall s with
      | some k => raise k s
      | none => .next (goto .h3Go (stallControl s))
  | _ =>
    match s.resolver with
    | none => raise .noResolver s
    | some _ => .next (goto .h3Emit s)

/-- SETUP.SET_CONFIGURATION (R236): `configured` becomes true when the resolver accepts. -/
def execSetupSetConfiguration (wValue wIndex wLength : Half) (s : State) : Outcome :=
  dispatchResolver ⟨0x00, 0x09, wValue, wIndex, wLength⟩ true s

/-- SETUP.OTHER (R236). -/
def execSetupOther (packet : SetupPacket) (s : State) : Outcome := dispatchResolver packet false s

end Sys2Proof.Machine
end

