-- ==== Sys2Proof/Machine/Lock.lean ====
section
/-! DEFINITION. The lock cell and the state holder (40_lock_and_state_holder.md). -/

namespace Sys2Proof.Machine

/-- LOCK.ACQUIRE (R140): takes a free cell, else the context is `stuck` until it is free. -/
def execLockAcquire (id : Byte) (s : State) : Outcome :=
  acquireOrWait (.lockAcquire id) id.toNat false s fun s1 => .next (reply .done s1)

/-- LOCK.RELEASE (R142): by the owner, else LOCK_MISUSE. -/
def execLockRelease (id : Byte) (s : State) : Outcome :=
  match s.locks[id.toNat]? with
  | none => .refused .noSuchIdentity
  | some owner =>
    if owner = some s.ctx then .next (reply .done (releaseLock id.toNat s)) else raise .lockMisuse s

/-- A holder operation: the bracket of its own lock around a function of its value (R143, R148). -/
def holderOp (i : Instr) (id : Byte) (s : State) (f : Elem → Elem × Result) : Outcome :=
  match s.holders[id.toNat]? with
  | none => .refused .noSuchIdentity
  | some h => withLock i h.lock s fun s1 =>
      let (v, r) := f h.value
      ({ s1 with holders := s1.holders.set id.toNat { h with value := v } }, r)

/-- SH.GET (R144). -/
def execShGet (id : Byte) (s : State) : Outcome := holderOp (.shGet id) id s fun x => (x, .value x)

/-- SH.IS (R145). -/
def execShIs (id : Byte) (v : Elem) (s : State) : Outcome := holderOp (.shIs id v) id s fun x => (x, .bool (x == v))

/-- SH.TRANSITION (R146): compare and set. -/
def execShTransition (id : Byte) (expected next : Elem) (s : State) : Outcome :=
  holderOp (.shTransition id expected next) id s fun x => if x = expected then (next, .bool true) else (x, .bool false)

/-- SH.FORCE (R147). -/
def execShForce (id : Byte) (next : Elem) (s : State) : Outcome := holderOp (.shForce id next) id s fun _ => (next, .done)

end Sys2Proof.Machine
end

