-- ==== Sys2Proof/Machine/Dispatch.lean ====
section
/-! DEFINITION. One arm per operation, each one call of its meaning. -/

namespace Sys2Proof.Machine

def exec (i : Instr) (s : State) : Host.Outcome State Fault Refusal :=
  match i with
  | .lockAcquire id => Sys2Proof.Machine.execLockAcquire id s
  | .lockRelease id => Sys2Proof.Machine.execLockRelease id s
  | .shGet id => Sys2Proof.Machine.execShGet id s
  | .shIs id v => Sys2Proof.Machine.execShIs id v s
  | .shTransition id expected next => Sys2Proof.Machine.execShTransition id expected next s
  | .shForce id next => Sys2Proof.Machine.execShForce id next s
  | .fifoEnqueue id items => Sys2Proof.Machine.execFifoEnqueue id items s
  | .fifoDequeue id max => Sys2Proof.Machine.execFifoDequeue id max s
  | .fifoErase id n => Sys2Proof.Machine.execFifoErase id n s
  | .fifoPull id other => Sys2Proof.Machine.execFifoPull id other s
  | .fifoClear id => Sys2Proof.Machine.execFifoClear id s
  | .fifoFind id marker => Sys2Proof.Machine.execFifoFind id marker s
  | .fifoOccupied id => Sys2Proof.Machine.execFifoOccupied id s
  | .fifoFree id => Sys2Proof.Machine.execFifoFree id s
  | .fifoCapacity id => Sys2Proof.Machine.execFifoCapacity id s
  | .devInit => Sys2Proof.Machine.execDevInit s
  | .devSetResolver fn => Sys2Proof.Machine.execDevSetResolver fn s
  | .devConfigureEp epAddr attributes maxPacket cb => Sys2Proof.Machine.execDevConfigureEp epAddr attributes maxPacket cb s
  | .devControlSend data => Sys2Proof.Machine.execDevControlSend data s
  | .devSend ep data => Sys2Proof.Machine.execDevSend ep data s
  | .devReceive ep maxLen => Sys2Proof.Machine.execDevReceive ep maxLen s
  | .devIsSendPending ep => Sys2Proof.Machine.execDevIsSendPending ep s
  | .devStallControl => Sys2Proof.Machine.execDevStallControl s
  | .busReset => Sys2Proof.Machine.execBusReset s
  | .busSetup a packet => Sys2Proof.Machine.execBusSetup a packet s
  | .busIn a n => Sys2Proof.Machine.execBusIn a n s
  | .busOut a n pid data => Sys2Proof.Machine.execBusOut a n pid data s
  | .irqEntry => Sys2Proof.Machine.execIrqEntry s
  | .irqBusReset => Sys2Proof.Machine.execIrqBusReset s
  | .irqSetup => Sys2Proof.Machine.execIrqSetup s
  | .irqBuff => Sys2Proof.Machine.execIrqBuff s
  | .irqExit => Sys2Proof.Machine.execIrqExit s
  | .completeEp0In => Sys2Proof.Machine.execCompleteEp0In s
  | .completeOut k => Sys2Proof.Machine.execCompleteOut k s
  | .completeIn k => Sys2Proof.Machine.execCompleteIn k s
  | .setupSetAddress wValue wIndex wLength => Sys2Proof.Machine.execSetupSetAddress wValue wIndex wLength s
  | .setupSetConfiguration wValue wIndex wLength => Sys2Proof.Machine.execSetupSetConfiguration wValue wIndex wLength s
  | .setupOther packet => Sys2Proof.Machine.execSetupOther packet s

end Sys2Proof.Machine
end

