-- ==== Sys2Proof/Machine/Sched.lean ====
section
/-! DEFINITION. Which agent takes the next atomic step, and what it fetches (R5, R88, R275). `step` only calls these. -/

namespace Sys2Proof.Machine

/-- The processor is between two operations: no `arm_in` under way and no command waiting at a lock (R275). -/
def betweenCommands (s : State) : Bool := s.arming.isNone && s.waiting.isNone

/-- The handler is entered before MAIN's next step (R275). -/
def entryEnabled (s : State) : Bool :=
  s.ctx == .main && irqLine s && s.irqMask == 0 && (betweenCommands s || !Config.cmdAtomic)

/-- The operation at the handler's position: the phase (R230), the completion service of the loop index (R120), or the
class of the packet on record (R106). -/
def handlerInstr (s : State) : Instr :=
  match s.hpc with
  | .idle | .h1Read | .h1Go => .irqEntry
  | .h2Clear | .h2Addr | .h2Conf | .h2Go => .irqBusReset
  | .h3Clear | .h3Copy | .h3Toggle | .h3Go => .irqSetup
  | .h3Dispatch | .h3Emit | .h3Call | .h3Resolved | .h3Configure | .h3Reject => decodeSetup s.lastSetup
  | .h4 | .h5Loop | .h5Len | .h5Next => .irqBuff
  | .h5Ep0 | .h5Serve | .h5Emit | .h5Call | .h5Returned =>
    if h : s.locals.i < 32 then decodeIndex ⟨s.locals.i, h⟩ else .irqBuff
  | .h6 => .irqExit

/-- One step of external code (R11, R279): its next command, decoded as the command port decodes it, or its return. -/
def extTurn (e : ExtCall) (s : State) : Outcome :=
  match extMove e.args e.result e.rest with
  | .ret ok => .next (endCall ok s)
  | .issue bytes k =>
    match decodeCmd (sizesOf s) bytes with
    | .ok (i, []) => exec i { s with ext := some { e with rest := k } }
    | _ => .refused .illegalEncoding

/-- MAIN issues its next command; with none left it does nothing. -/
def mainTurn (s : State) : Outcome :=
  match s.mainPort with
  | [] => .next s
  | bytes =>
    match decodeCmd (sizesOf s) bytes with
    | .ok (i, rest) => exec i { s with mainPort := rest }
    | .error _ => .refused .illegalEncoding

/-- One atomic step of the processor: the `arm_in` under way, a command waiting at a lock, external code, the handler,
the entry of the handler, or MAIN's next command, in this order. -/
def procTurn (s : State) : Outcome :=
  if s.arming.isSome then .next (armStep s)
  else
    match s.waiting with
    | some w => exec w.instr s
    | none =>
      match s.ext with
      | some e => extTurn e s
      | none =>
        match s.ctx with
        | .irq => exec (handlerInstr s) s
        | .main => if entryEnabled s then .next (takeInterrupt s) else mainTurn s

/-- The cell a waiting command waits for is free. -/
def waitOver (s : State) (w : Waiting) : Bool := s.locks[w.lock]? != some (some .main) && s.locks[w.lock]? != some (some .irq)

/-- The processor has a step to take. -/
def procReady (s : State) : Bool :=
  s.arming.isSome ||
    match s.waiting with
    | some w => waitOver s w
    | none => s.ext.isSome || s.ctx == .irq || entryEnabled s || !s.mainPort.isEmpty

/-- One atomic step of HOST: its next bus event. It has no move before `PULLUP` (R210) and none without an event. -/
def hostTurn (s : State) : Outcome :=
  if !busEnabled s then .next s
  else
    match s.busPort with
    | [] => .next s
    | bytes =>
      match decodeBus bytes with
      | .ok (i, rest) => exec i { s with busPort := rest }
      | .error _ => .refused .illegalEncoding

/-- One atomic step: of the agent the schedule names; with no schedule left, of the processor while it has a step and of
HOST otherwise (log entry 8). In a faulted state the spec says nothing further (R52). -/
def stepOnce (s : State) : Outcome :=
  match s.fault with
  | some k => .fault (.blockFaulted k)
  | none =>
    match s.sched with
    | .host :: rest => hostTurn { s with sched := rest }
    | .proc :: rest => procTurn { s with sched := rest }
    | [] => if procReady s then procTurn s else hostTurn s

/-! Placing an operation where the next step fetches it (log entry 17). -/

/-- The external procedure that a command names. -/
def namedProc : Instr → Option Byte
  | .devSetResolver fn => fn
  | .devConfigureEp _ _ _ cb => cb
  | _ => none

/-- The procedure a command names exists: where it is not listed yet, as one that returns at once. -/
def supplyProc (i : Instr) (s : State) : State :=
  match namedProc i with
  | some f => if procNamed s (some f) then s else { s with procs := s.procs ++ [(f, .ret false)] }
  | none => s

/-- MAIN is about to issue this command. -/
def placeCommand (i : Instr) (s : State) : State :=
  { s with ctx := .main, hpc := .idle, arming := none, waiting := none, ext := none
           mainPort := encode i ++ s.mainPort, sched := .proc :: s.sched }

/-- HOST is about to act with this event, on a device that is visible to it (R210). -/
def placeEvent (i : Instr) (s : State) : State :=
  { s with initialized := true, pullup := true, busPort := encode i ++ s.busPort, sched := .host :: s.sched }

/-- The handler stands at this position, and nothing else is under way. -/
def placeHandler (p : HandlerPos) (l : Locals) (s : State) : State :=
  { s with ctx := .irq, hpc := p, locals := l, arming := none, waiting := none, ext := none, sched := .proc :: s.sched }

/-- The locals of a handler whose status word is `w`. -/
def localsOfInts (s : State) (w : Word) : Locals := { s.locals with s := w }

/-- The locals of a loop at index `i` whose bit is set. -/
def localsOfIndex (s : State) (i : Nat) : Locals := { s.locals with b := indexMask i, i := i }

/-- The packet of a SETUP8 operation is the one on record. -/
def recordPacket (i : Instr) (s : State) : State :=
  match i.packet with
  | some p => { s with lastSetup := p, setupValid := true }
  | none => s

/-- `s` with this operation where the next step fetches it. -/
def placeInstr (i : Instr) (s : State) : State :=
  match i.format with
  | .cmd => placeCommand i (supplyProc i s)
  | .bus => placeEvent i s
  | .setup8 => placeHandler .h3Dispatch s.locals (recordPacket i s)
  | .ints =>
    match i with
    | .irqBusReset => placeHandler .h2Clear (localsOfInts s intClrBusReset) s
    | .irqSetup => placeHandler .h3Clear (localsOfInts s intClrSetupReq) s
    | .irqBuff => placeHandler .h4 (localsOfInts s 0x00000010) s
    | .irqExit => placeHandler .h6 s.locals s
    | _ => placeHandler .h1Read s.locals s
  | .epidx =>
    match i with
    | .completeOut k => placeHandler .h5Serve (localsOfIndex s k.val) s
    | .completeIn k => placeHandler .h5Serve (localsOfIndex s k.val) s
    | _ => placeHandler .h5Ep0 (localsOfIndex s 0) s

/-- `s` with the operation of a number of the opcode table where the next step fetches it; a number that spells none is
put on the command port, whose decoder refuses it. -/
def placeTableWord (s : State) (nbits w : Nat) : State :=
  match decodeTableWordAs (sizesOf s) nbits w with
  | some i => placeInstr i s
  | none => { s with ctx := .main, arming := none, waiting := none, ext := none
                     mainPort := portBytes (sizesOf s) w, sched := .proc :: s.sched }

end Sys2Proof.Machine
end

