-- ==== Sys2Proof/Safety.lean ====
section
/-! DEFINITION. What claims about the block are stated in: which objects are free to use, what a finished arming leaves,
and the invariants of 10_state.md and 20_memory.md. -/

namespace Sys2Proof.Machine

/-! FIFOs, holders, locks. -/

/-- The cursor ranges of R44. -/
def FifoOk (f : Fifo) : Prop := f.w < f.slots.length ∧ f.r < f.slots.length

/-- Every FIFO has cursors in range (R45, R170 a). -/
def FifosOk (s : State) : Prop := ∀ f ∈ s.fifos, FifoOk f

/-- Lock cell `l` exists and has no owner. -/
def LockFree (s : State) (l : Nat) : Prop := s.locks[l]? = some none

/-- Lock cell `l` has an owner. -/
def LockOwned (s : State) (l : Nat) : Prop := ∃ c, s.locks[l]? = some (some c)

/-- Holder `id` is `h`, and its lock can be taken at once. -/
def HolderReady (s : State) (id : Byte) (h : Holder) : Prop :=
  s.holders[id.toNat]? = some h ∧ LockFree s h.lock ∧ s.waiting = none

/-- FIFO `id` is `f`, its cursors are in range, and its lock can be taken at once. -/
def FifoReady (s : State) (id : Byte) (f : Fifo) : Prop :=
  s.fifos[id.toNat]? = some f ∧ FifoOk f ∧ LockFree s f.lock ∧ s.waiting = none

/-- The lock cell that an operation with one bracket takes (R140, R143, R160). -/
def ownLock (s : State) : Instr → Option Nat
  | .lockAcquire id => some id.toNat
  | .shGet id | .shIs id _ | .shTransition id _ _ | .shForce id _ => s.holders[id.toNat]?.map Holder.lock
  | .fifoEnqueue id _ | .fifoDequeue id _ | .fifoErase id _ | .fifoClear id | .fifoFind id _ | .fifoOccupied id
  | .fifoFree id | .fifoCapacity id => s.fifos[id.toNat]?.map Fifo.lock
  | _ => none

/-- The lock cell at which a command can be stuck (R140): that of its own bracket, or for FIFO.PULL first its destination's
and, once that is held (`inner`), its source's (R164). -/
def stuckAt (s : State) (i : Instr) (inner : Bool) : Option Nat :=
  match i with
  | .fifoPull id other =>
    match s.fifos[id.toNat]?, s.fifos[other.toNat]? with
    | some a, some b => if a.size = b.size then some (if inner then b.lock else a.lock) else none
    | _, _ => none
  | i => if inner then none else ownLock s i

/-- The operations of 40_lock_and_state_holder.md section 2 and of 41_fifo.md: those that take a lock by the bracket of
R143. -/
def bracketed : Instr → Bool
  | .shGet _ | .shIs _ _ | .shTransition _ _ _ | .shForce _ _ | .fifoEnqueue _ _ | .fifoDequeue _ _ | .fifoErase _ _
  | .fifoPull _ _ | .fifoClear _ | .fifoFind _ _ | .fifoOccupied _ | .fifoFree _ | .fifoCapacity _ => true
  | _ => false

/-! The bus side. -/

/-- The operation completes a buffer of index `i` in state `s` (R214, R216): matched, not stalled, armed. -/
def completes (s : State) (i : EpIdx) : Instr → Bool
  | .busIn a n => idxOf n true == i && matched s a i && !(bufCtrl s i).getLsbD bcStall && (bufCtrl s i).getLsbD bcAvail
      && (bufCtrl s i).getLsbD bcFull
  | .busOut a n _ data => idxOf n false == i && matched s a i && !(bufCtrl s i).getLsbD bcStall
      && (bufCtrl s i).getLsbD bcAvail && !(bufCtrl s i).getLsbD bcFull && decide (data.length ≤ (bcLen (bufCtrl s i)).toNat)
  | _ => false

/-! Access rights (R56). -/

/-- The pieces of state of R56's table that have a field of their own. -/
inductive Reg where
  | initialized | configured | lastSetup | setupValid | toggle | callback | resolver | devAddr | pullup | intEn
  | irqInstalled | busResetLatch | setupReqLatch | bufStatus | mem | locks | holders | fifos
  deriving DecidableEq, Repr

/-- The register holds the same in both states. -/
def Reg.same : Reg → State → State → Prop
  | .initialized, s, t => t.initialized = s.initialized
  | .configured, s, t => t.configured = s.configured
  | .lastSetup, s, t => t.lastSetup = s.lastSetup
  | .setupValid, s, t => t.setupValid = s.setupValid
  | .toggle, s, t => t.toggle = s.toggle
  | .callback, s, t => t.callback = s.callback
  | .resolver, s, t => t.resolver = s.resolver
  | .devAddr, s, t => t.devAddr = s.devAddr
  | .pullup, s, t => t.pullup = s.pullup
  | .intEn, s, t => t.intEn = s.intEn
  | .irqInstalled, s, t => t.irqInstalled = s.irqInstalled
  | .busResetLatch, s, t => t.busResetLatch = s.busResetLatch
  | .setupReqLatch, s, t => t.setupReqLatch = s.setupReqLatch
  | .bufStatus, s, t => t.bufStatus = s.bufStatus
  | .mem, s, t => t.mem = s.mem
  | .locks, s, t => t.locks = s.locks
  | .holders, s, t => t.holders = s.holders
  | .fifos, s, t => t.fifos = s.fifos

/-- The registers that R56 and the register's own rule let an operation write (R21 to R39, R42 to R44). -/
def mayWrite : Instr → List Reg
  | .lockAcquire _ | .lockRelease _ => [.locks]
  | .shGet _ | .shIs _ _ => [.locks]
  | .shTransition _ _ _ | .shForce _ _ => [.locks, .holders]
  | .fifoEnqueue _ _ | .fifoDequeue _ _ | .fifoErase _ _ | .fifoPull _ _ | .fifoClear _ => [.locks, .fifos]
  | .fifoFind _ _ | .fifoOccupied _ | .fifoFree _ | .fifoCapacity _ => [.locks]
  | .devInit => [.initialized, .configured, .setupValid, .toggle, .callback, .devAddr, .pullup, .intEn, .irqInstalled,
      .busResetLatch, .setupReqLatch, .bufStatus, .mem]
  | .devSetResolver _ => [.resolver]
  | .devConfigureEp _ _ _ _ => [.mem, .toggle, .callback]
  | .devControlSend _ | .devSend _ _ | .devReceive _ _ => [.mem, .toggle]
  | .devIsSendPending _ => []
  | .devStallControl => [.mem]
  | .busReset => [.busResetLatch]
  | .busSetup _ _ => [.mem, .setupReqLatch]
  | .busIn _ _ | .busOut _ _ _ _ => [.mem, .bufStatus]
  | .irqEntry | .irqExit => []
  | .irqBusReset => [.busResetLatch, .devAddr, .configured]
  | .irqSetup => [.setupReqLatch, .lastSetup, .setupValid, .toggle]
  | .irqBuff => [.bufStatus]
  | .completeEp0In => [.devAddr]
  | .completeOut _ | .completeIn _ => []
  | .setupSetAddress _ _ _ => [.mem, .toggle]
  | .setupSetConfiguration _ _ _ => [.mem, .configured]
  | .setupOther _ => [.mem]

/-! Invariants. -/

/-- Every holder's value and every FIFO's slot has the size of its type, and so have the operands of a command that waits
(R43, R44, R124). -/
def TypesOk (s : State) : Prop :=
  (∀ h ∈ s.holders, h.value.length = h.size) ∧ (∀ f ∈ s.fifos, ∀ x ∈ f.slots, x.length = f.size) ∧
  ∀ w, s.waiting = some w → w.instr.wf (sizesOf s) = true

/-- A byte address of a reserved range of DPRAM (R74). -/
def reservedAddr (a : Nat) : Bool :=
  (decide (Config.ep0End ≤ a) && decide (a < Config.dataBase)) || (decide (Config.dataEnd ≤ a) && decide (a < Config.dpramSize))

/-- What an `arm_in` under way still writes lies in its own buffer (R185: at most 64 bytes). -/
def ArmingOk (s : State) : Prop := ∀ a, s.arming = some a → a.off + a.todo.length ≤ Config.maxPkt ∧ a.len ≤ Config.maxPkt

/-- DPRAM is in canonical form, and what is under way keeps inside its buffer. -/
def MemOk (s : State) : Prop := memWf s.mem = true ∧ ArmingOk s

/-- Only the control endpoint can be stalled (R41, R262). -/
def StallOk (s : State) : Prop := ∀ i : EpIdx, 2 ≤ i.val → (bufCtrl s i).getLsbD bcStall = false

/-- Reserved bits of every buffer-control word are 0 (R108, R113). -/
def BufCtrlOk (s : State) : Prop := ∀ i : EpIdx, ∀ k, (16 ≤ k ∨ k = 14 ∨ k = 12) → (bufCtrl s i).getLsbD k = false

/-- An endpoint-control word that enables its index names the index's own buffer and an admitted type (R36, R115). -/
def EpCtrlOk (s : State) : Prop := ∀ i : EpIdx, 2 ≤ i.val → ecEn (epCtrl s i) = true →
  (ecAddr (epCtrl s i)).toNat = bufAddr i ∧ (ecType (epCtrl s i) = 2#2 ∨ ecType (epCtrl s i) = 3#2)

/-- No length on record exceeds `MAX_PKT`: of a buffer-control word, of an arming under way, of the handler's local. -/
def LenOk (s : State) : Prop :=
  (∀ i : EpIdx, (bcLen (bufCtrl s i)).toNat ≤ Config.maxPkt) ∧ s.locals.len.toNat ≤ Config.maxPkt ∧
  ∀ a, s.arming = some a → a.len ≤ Config.maxPkt

/-- The control endpoint has no callback (R26). -/
def CallbackOk (s : State) : Prop := s.callback[0] = none ∧ s.callback[1] = none

/-- What waits is a command (R140). -/
def WaitsForCommand (s : State) : Prop := ∀ w, s.waiting = some w → w.instr.format = .cmd

/-- The resolver and every callback on record name a procedure that exists (R26, R27, R126 g). -/
def ProceduresOk (s : State) : Prop := procNamed s s.resolver = true ∧ ∀ i : EpIdx, procNamed s s.callback[i] = true

/-- `hpc = Idle` exactly when `ctx = Main` (R51), external code runs only at a position of a call (R11, R51), and an
`arm_in` under way is MAIN's (R186, R279). -/
def PositionOk (s : State) : Prop :=
  (s.hpc = .idle ↔ s.ctx = .main) ∧ (s.ext.isSome = true → s.hpc = .h3Call ∨ s.hpc = .h5Call) ∧
  (s.arming.isSome = true → s.ctx = .main) ∧ WaitsForCommand s

/-- Before DEV.INIT the handler is not installed, the device is not visible and not configured (R23, R29, R39, R266). -/
def UninitOk (s : State) : Prop :=
  (s.initialized = false → s.configured = false ∧ s.irqInstalled = false ∧ s.ctx = .main ∧ s.setupValid = false) ∧
  WaitsForCommand s

/-- The reasons for which the interrupt is held off (R53): one for each lock MAIN owns, one for a DEV command of MAIN that
is under way. -/
def maskReasons (s : State) : Nat :=
  s.locks.count (some .main) + (if s.arming.isSome then 1 else 0)

/-- Only a command waits, and a FIFO.PULL that waits for its source's lock holds its destination's (R140, R164). -/
def WaitingOk (s : State) : Prop :=
  ∀ w, s.waiting = some w → w.instr.format = .cmd ∧ (w.inner = true →
    ∃ id other f, w.instr = .fifoPull id other ∧ s.fifos[id.toNat]? = some f ∧ s.locks[f.lock]? = some (some s.ctx))

/-- `irq_mask` counts its reasons (R53). -/
def MaskOk (s : State) : Prop := s.irqMask = maskReasons s ∧ WaitingOk s

/-! The arming of one buffer. -/

/-- What a finished `arm_in(i, len, data)` of the executing context leaves (R186): `u` is `s` with the bytes in the buffer,
the word, and the toggle flipped, and nothing else changed. -/
def ArmedIn (i : EpIdx) (data : List Byte) (s u : State) : Prop :=
  u = { s with mem := u.mem, toggle := u.toggle } ∧
  (∀ j, j < data.length → data[j]? = some (memRead u.mem (bufAddr i + j))) ∧
  bufCtrl u i = mkBufCtrl true s.toggle[i] false true (BitVec.ofNat 10 data.length) ∧
  u.toggle = s.toggle.set i (!s.toggle[i]) ∧
  (∀ a, ¬(bufAddr i ≤ a ∧ a < bufAddr i + data.length) → ¬(bufCtrlAddr i ≤ a ∧ a < bufCtrlAddr i + 4) →
    memRead u.mem a = memRead s.mem a)

/-- Nothing of the processor side is under way: no arming, no wait, no call. -/
def Quiet (s : State) : Prop := s.arming = none ∧ s.waiting = none ∧ s.ext = none

end Sys2Proof.Machine
end

