-- ==== Sys2Proof/Certificates/Slice0/Obligations.lean ====
section
/-! DEFINITION. The statements for the provers, rule by rule of spec/. `reply r u` is `u` with the result `r` returned on
the command port to the executing context (O1 says what that is). Every `t = { s with … }` below is the frame: every field
not named is as it was in `s`. -/

open Sys2Proof Sys2Proof.Machine

/-! Ports and encodings. -/

/-- R121 with R8: a result goes to MAIN's list of results, or to the external code that issued the command, as bytes (the
list and the external code's record are the model's: log entries 7, 20); and the bytes of each kind of result. A count
above 16 bits is log entry 23, the size of a value log entry 6. -/
def Obligations.ResultGoesToTheCaller : Prop :=
  (∀ (r : Result) (s : State),
    (s.ctx = .main → reply r s = { s with mainOut := s.mainOut ++ [r] }) ∧
    (s.ctx = .irq → ∀ e, s.ext = some e → reply r s = { s with ext := some { e with result := encodeResult r } })) ∧
  (∀ b, encodeResult (.bool b) = [if b then 1 else 0]) ∧
  (∀ n, n < 65536 → ∃ lo hi : Byte, lo.toNat + 256 * hi.toNat = n ∧ encodeResult (.count n) = [lo, hi] ∧
    encodeResult (.distance (some n)) = [1, lo, hi] ∧
    ∀ xs : List Elem, xs.length = n → encodeResult (.items xs) = [lo, hi] ++ xs.flatten) ∧
  encodeResult (.distance none) = [0] ∧ (∀ v : Elem, encodeResult (.value v) = v) ∧
  encodeResult .ok = [0] ∧ encodeResult .errAlreadyInitialized = [1] ∧ encodeResult .done = []

/-- R102, R103: `idx` and `addr_of` are inverse, and `idx` is the arithmetic form R102 gives. -/
def Obligations.IndexAndAddressAreABijection : Prop :=
  (∀ e : Byte, epValid e = true →
    addrOf (idx e) = e ∧ (idx e).val = 2 * (e.toNat % 16) + (if e.toNat / 128 = 1 then 0 else 1)) ∧
  (∀ i : EpIdx, epValid (addrOf i) = true ∧ idx (addrOf i) = i)

/-- R117, R118, R105, R106, R119, R120: words written out from the encodings decode to what they stand for, in
the byte form of R117 and, for one holder, with values of two bytes (R124, log entry 6). -/
def Obligations.SampleWordsDecode : Prop :=
  decodeCmd .bytes [0x0A, 0x03, 0x01, 0x02] = .ok (.shTransition 3 [1] [2], []) ∧
  decodeCmd ⟨[2], []⟩ [0x0A, 0x00, 0x01, 0x02, 0x03, 0x04] = .ok (.shTransition 0 [1, 2] [3, 4], []) ∧
  decodeCmd .bytes [0x10, 0x01, 0x02, 0x00, 0x41, 0x54, 0x0D] = .ok (.fifoEnqueue 1 [[0x41], [0x54]], [0x0D]) ∧
  decodeCmd .bytes [0x22, 0x81, 0x02, 0x40, 0x00, 0xFF] = .ok (.devConfigureEp 0x81 0x02 64 none, []) ∧
  decodeCmd .bytes [0x24, 0x81, 0x02, 0x00, 0x41, 0x42] = .ok (.devSend 0x81 [0x41, 0x42], []) ∧
  decodeBus [0x43, 0x05, 0x01, 0x01, 0x03, 0x00, 0x41, 0x54, 0x0D] = .ok (.busOut 5 1 true [0x41, 0x54, 0x0D], []) ∧
  decodeAs .bytes .ints [0x00, 0x10, 0x00, 0x00] = .ok (.irqBusReset, []) ∧
  decodeAs .bytes .epidx [0x03] = .ok (.completeOut 3, []) ∧
  decodeAs .bytes .setup8 [0x00, 0x05, 0x05, 0x00, 0x00, 0x00, 0x00, 0x00] = .ok (.setupSetAddress 5 0 0, [])

/-- R116 to R120, R105, R106: every well-formed operation is what its own bytes decode to, whatever bytes follow, every
operand at every value, whatever the sizes of the element and state types (log entry 6). IRQ.EXIT has no encoding of its own (R119: it always runs), so it is left out (log entry 16). -/
def Obligations.DecodeInvertsEncode : Prop :=
  ∀ (z : Sizes) (i : Instr) (rest : List Byte), i.wf z = true → i ≠ .irqExit → decodeAs z i.format (encode i ++ rest) = .ok (i, rest)

/-- R126 (a), (h): an opcode that is not listed, and a token with a bit set that must be 0, decode to nothing. -/
def Obligations.IllegalEncodingsDecodeToNothing : Prop :=
  (∀ (z : Sizes) (op : Byte) (t : List Byte),
    op.toNat ∉ [0x01, 0x02, 0x08, 0x09, 0x0A, 0x0B, 0x10, 0x11, 0x12, 0x13, 0x14, 0x15, 0x16, 0x17, 0x18,
      0x20, 0x21, 0x22, 0x23, 0x24, 0x25, 0x26, 0x27] → decodeCmd z (op :: t) = .error .unknownOpcode) ∧
  (∀ (op : Byte) (t : List Byte), op.toNat ∉ [0x40, 0x41, 0x42, 0x43] → decodeBus (op :: t) = .error .unknownOpcode) ∧
  (∀ (op a : Byte) (t : List Byte), op.toNat ∈ [0x41, 0x42, 0x43] → 128 ≤ a.toNat →
    decodeBus (op :: a :: t) = .error .badToken) ∧
  (∀ (op a n : Byte) (t : List Byte), op.toNat ∈ [0x42, 0x43] → a.toNat < 128 → 16 ≤ n.toNat →
    decodeBus (op :: a :: n :: t) = .error .badToken) ∧
  (∀ (a n pid : Byte) (t : List Byte), a.toNat < 128 → n.toNat < 16 → 2 ≤ pid.toNat →
    decodeBus (0x43 :: a :: n :: pid :: t) = .error .badToken) ∧
  (∀ (a n pid lo hi : Byte) (t : List Byte), a.toNat < 128 → n.toNat < 16 → pid.toNat < 2 →
    1023 < lo.toNat + 256 * hi.toNat → decodeBus (0x43 :: a :: n :: pid :: lo :: hi :: t) = .error .badToken)

/-- R126 (g), R124 (with U7): a command whose identity names no lock, holder, FIFO or external procedure is refused. -/
def Obligations.MissingObjectsAreRefused : Prop :=
  ∀ (id o : Byte) (s : State),
    (s.locks[id.toNat]? = none → ∀ i, i = .lockAcquire id ∨ i = .lockRelease id → exec i s = .refused .noSuchIdentity) ∧
    (s.holders[id.toNat]? = none → ∀ i v n, i = .shGet id ∨ i = .shIs id v ∨ i = .shTransition id v n ∨ i = .shForce id n →
      exec i s = .refused .noSuchIdentity) ∧
    (s.fifos[id.toNat]? = none → ∀ i xs m b, i = .fifoEnqueue id xs ∨ i = .fifoDequeue id m ∨ i = .fifoErase id m ∨
      i = .fifoPull id o ∨ i = .fifoPull o id ∨ i = .fifoClear id ∨ i = .fifoFind id b ∨ i = .fifoOccupied id ∨
      i = .fifoFree id ∨ i = .fifoCapacity id → exec i s = .refused .noSuchIdentity) ∧
    (procBody s.procs id = none → ∀ i ep at_ mp, i = .devSetResolver (some id) ∨ i = .devConfigureEp ep at_ mp (some id) →
      exec i s = .refused .noSuchIdentity)

/-! The lock cell. -/

/-- R140, first branch, R141: a free cell is taken; MAIN's acquisition raises `irq_mask`. -/
def Obligations.AcquireTakesAFreeCell : Prop :=
  ∀ (id : Byte) (s : State), LockFree s id.toNat →
    exec (.lockAcquire id) s = .next (reply .done { s with
      locks := s.locks.set id.toNat (some s.ctx)
      irqMask := s.irqMask + (if s.ctx = .main then 1 else 0)
      waiting := none })

/-- R140, second branch, R143, R160: an operation whose lock is owned waits, and changes nothing else (log entry 12).
FIFO.PULL waits at its destination's lock, or, with that taken, at its source's (R164, R305). -/
def Obligations.OwnedCellMakesTheContextWait : Prop :=
  (∀ (i : Instr) (s : State) (l : Nat), ownLock s i = some l → LockOwned s l →
    exec i s = .next { s with waiting := some { instr := i, lock := l, inner := false } }) ∧
  (∀ (id other : Byte) (s : State) (a b : Fifo), s.fifos[id.toNat]? = some a → s.fifos[other.toNat]? = some b →
    a.size = b.size → s.waiting = none →
    (LockOwned s a.lock → exec (.fifoPull id other) s =
      .next { s with waiting := some { instr := .fifoPull id other, lock := a.lock, inner := false } }) ∧
    (LockFree s a.lock → a.lock ≠ b.lock → LockOwned s b.lock → exec (.fifoPull id other) s = .next { s with
      locks := s.locks.set a.lock (some s.ctx)
      irqMask := s.irqMask + (if s.ctx = .main then 1 else 0)
      waiting := some { instr := .fifoPull id other, lock := b.lock, inner := true } }))

/-- R140 (a), (b), R278, R305: while the cell is owned, no step of the processor or of HOST ends the wait or gives the cell
back: the hypotheses hold again of the next state, so the context hangs. For every operation that takes a lock, FIFO.PULL
at either of its two among them (`stuckAt`; the record is log entry 12). -/
def Obligations.WaitingContextHangs : Prop :=
  ∀ (w : Waiting) (s t : State), stuckAt s w.instr w.inner = some w.lock → LockOwned s w.lock → s.arming = none →
    s.waiting = some w → step s = .next t →
    stuckAt t w.instr w.inner = some w.lock ∧ LockOwned t w.lock ∧ t.arming = none ∧ t.waiting = s.waiting ∧
      t.locks = s.locks ∧ t.holders = s.holders ∧ t.fifos = s.fifos ∧ t.ctx = s.ctx ∧ t.hpc = s.hpc ∧ t.ext = s.ext ∧
      t.mainOut = s.mainOut ∧ t.irqMask = s.irqMask

/-- R142, whole: the owner gives the cell back; a release by any other context raises LOCK_MISUSE. -/
def Obligations.ReleaseByTheOwnerOnly : Prop :=
  (∀ (id : Byte) (s : State), s.locks[id.toNat]? = some (some s.ctx) →
    exec (.lockRelease id) s = .next (reply .done { s with
      locks := s.locks.set id.toNat none
      irqMask := if s.ctx = .main then s.irqMask - 1 else s.irqMask })) ∧
  (∀ (id : Byte) (s : State) (o : Option Ctx), s.locks[id.toNat]? = some o → o ≠ some s.ctx → s.fault = none →
    exec (.lockRelease id) s = .next { s with fault := some .lockMisuse })

/-- R143 (an operation that waits is log entry 12): a FIFO or holder operation that finishes holds no lock it did not hold before, and leaves `irq_mask` as it was. -/
def Obligations.BracketsGiveTheirLocksBack : Prop :=
  ∀ (i : Instr) (s t : State), bracketed i = true → s.waiting = none → exec i s = .next t → t.waiting = none →
    t.locks = s.locks ∧ t.irqMask = s.irqMask

/-! The state holder. -/

/-- R144, R145, R147, whole: GET and IS write nothing, FORCE overwrites. -/
def Obligations.HolderReadsAndForce : Prop :=
  ∀ (id : Byte) (s : State) (h : Holder), HolderReady s id h →
    exec (.shGet id) s = .next (reply (.value h.value) s) ∧
    (∀ v, exec (.shIs id v) s = .next (reply (.bool (decide (h.value = v))) s)) ∧
    (∀ n, exec (.shForce id n) s =
      .next (reply .done { s with holders := s.holders.set id.toNat { h with value := n } }))

/-- R146, whole: compare and set. -/
def Obligations.HolderTransition : Prop :=
  ∀ (id : Byte) (e n : Elem) (s : State) (h : Holder), HolderReady s id h →
    (h.value = e → exec (.shTransition id e n) s =
      .next (reply (.bool true) { s with holders := s.holders.set id.toNat { h with value := n } })) ∧
    (h.value ≠ e → exec (.shTransition id e n) s = .next (reply (.bool false) s))

/-- R148: of two transitions from the same prior value, the first succeeds and the second does not. -/
def Obligations.OneOfTwoTransitionsWins : Prop :=
  ∀ (id : Byte) (a b c : Elem) (s : State) (h : Holder), HolderReady s id h → h.value = a → b ≠ a →
    ∃ t u, exec (.shTransition id a b) s = .next (reply (.bool true) t) ∧
      exec (.shTransition id a c) (reply (.bool true) t) = .next (reply (.bool false) u) ∧
      u.holders = t.holders ∧ t.holders[id.toNat]? = some { h with value := b }

/-! The FIFO. `count` and `free` are written out from R160. -/

/-- R161, whole: `k = min(n, free)` items go to the slots after the write cursor, every other slot is as before. -/
def Obligations.FifoEnqueue : Prop :=
  ∀ (id : Byte) (items : List Elem) (s : State) (f : Fifo) (k : Nat), FifoReady s id f →
    k = min items.length (f.slots.length - 1 - (f.slots.length + f.w - f.r) % f.slots.length) →
    ∃ g : Fifo, exec (.fifoEnqueue id items) s = .next (reply (.count k) { s with fifos := s.fifos.set id.toNat g }) ∧
      g.w = (f.w + k) % f.slots.length ∧ g.r = f.r ∧ g.lock = f.lock ∧ g.size = f.size ∧ g.slots.length = f.slots.length ∧
      (∀ j, j < k → g.slots[(f.w + j) % f.slots.length]? = items[j]?) ∧
      (∀ p, (∀ j, j < k → p ≠ (f.w + j) % f.slots.length) → g.slots[p]? = f.slots[p]?)

/-- R162, R163, R165, whole: DEQUEUE returns up to `max` oldest elements, ERASE discards up to `n`, CLEAR all; the slots
keep their contents. -/
def Obligations.FifoDequeueEraseClear : Prop :=
  ∀ (id : Byte) (s : State) (f : Fifo) (c : Nat), FifoReady s id f → c = (f.slots.length + f.w - f.r) % f.slots.length →
    (∀ (max : Half) (k : Nat), k = min max.toNat c → ∃ out : List Elem, exec (.fifoDequeue id max) s =
        .next (reply (.items out) { s with fifos := s.fifos.set id.toNat { f with r := (f.r + k) % f.slots.length } }) ∧
      out.length = k ∧ ∀ j, j < k → out[j]? = f.slots[(f.r + j) % f.slots.length]?) ∧
    (∀ (n : Half) (k : Nat), k = min n.toNat c → exec (.fifoErase id n) s =
        .next (reply (.count k) { s with fifos := s.fifos.set id.toNat { f with r := (f.r + k) % f.slots.length } })) ∧
    exec (.fifoClear id) s = .next (reply .done { s with fifos := s.fifos.set id.toNat { f with r := f.w } })

/-- R164: the `k` oldest elements of the source go to the slots after the destination's write cursor; between FIFOs of
different element types the operation is not expressible, and the model refuses it (corner case c, log entry 6). -/
def Obligations.FifoPull : Prop :=
  (∀ (id other : Byte) (s : State) (a b : Fifo) (k : Nat), FifoReady s id a → FifoReady s other b →
    id ≠ other → a.lock ≠ b.lock → a.size = b.size →
    k = min (a.slots.length - 1 - (a.slots.length + a.w - a.r) % a.slots.length)
      ((b.slots.length + b.w - b.r) % b.slots.length) →
    ∃ g : Fifo, exec (.fifoPull id other) s = .next (reply (.count k) { s with
        fifos := (s.fifos.set id.toNat g).set other.toNat { b with r := (b.r + k) % b.slots.length } }) ∧
      g.w = (a.w + k) % a.slots.length ∧ g.r = a.r ∧ g.lock = a.lock ∧ g.size = a.size ∧ g.slots.length = a.slots.length ∧
      (∀ j, j < k → g.slots[(a.w + j) % a.slots.length]? = b.slots[(b.r + j) % b.slots.length]?) ∧
      (∀ p, (∀ j, j < k → p ≠ (a.w + j) % a.slots.length) → g.slots[p]? = a.slots[p]?)) ∧
  (∀ (id other : Byte) (s : State) (a b : Fifo), s.fifos[id.toNat]? = some a → s.fifos[other.toNat]? = some b →
    a.size ≠ b.size → exec (.fifoPull id other) s = .refused .elementTypesDiffer)

/-- R164 (b), R305: a FIFO pulled from itself takes its own lock and then waits for it; no step of the processor or of HOST
ends that wait, nor does one change a lock or a FIFO: the hypotheses of the second clause hold again of the next state. -/
def Obligations.PullFromItselfHangs : Prop :=
  (∀ (id : Byte) (s : State) (f : Fifo), FifoReady s id f →
    exec (.fifoPull id id) s = .next { s with
      locks := s.locks.set f.lock (some s.ctx)
      irqMask := s.irqMask + (if s.ctx = .main then 1 else 0)
      waiting := some { instr := .fifoPull id id, lock := f.lock, inner := true } }) ∧
  (∀ (id : Byte) (s t : State) (f : Fifo), s.fifos[id.toNat]? = some f → LockOwned s f.lock → s.arming = none →
    s.waiting = some { instr := .fifoPull id id, lock := f.lock, inner := true } → step s = .next t →
    t.waiting = s.waiting ∧ t.locks = s.locks ∧ t.fifos = s.fifos ∧ t.arming = none ∧ t.ctx = s.ctx ∧ t.hpc = s.hpc ∧
      t.mainOut = s.mainOut)

/-- R166, R167, R168, R169, whole: FIND answers the least distance at which the marker stands among the occupied slots; the
three counts; `FREE + OCCUPIED = CAPACITY`; nothing is written. -/
def Obligations.FifoReadersChangeNothing : Prop :=
  ∀ (id : Byte) (s : State) (f : Fifo) (n c : Nat), FifoReady s id f → n = f.slots.length → c = (n + f.w - f.r) % n →
    (∀ m, ∃ r : Option Nat, exec (.fifoFind id m) s = .next (reply (.distance r) s) ∧
      ∀ d, r = some d ↔ (1 ≤ d ∧ d ≤ c ∧ f.slots[(f.r + d - 1) % n]? = some m ∧
        ∀ e, 1 ≤ e → e < d → f.slots[(f.r + e - 1) % n]? ≠ some m)) ∧
    exec (.fifoOccupied id) s = .next (reply (.count c) s) ∧
    exec (.fifoFree id) s = .next (reply (.count (n - 1 - c)) s) ∧
    exec (.fifoCapacity id) s = .next (reply (.count (n - 1)) s) ∧
    (n - 1 - c) + c = n - 1

/-- R45, R170 (a) to (d): on contents of at most `N - 1` elements the FIFO is a queue: what goes in is what fits, at the
new end; what comes out is the old end, in order; nothing else moves. -/
def Obligations.FifoIsAQueue : Prop :=
  ∀ (id : Byte) (s : State) (f : Fifo), FifoReady s id f →
    (fifoContents f).length ≤ f.slots.length - 1 ∧
    (∀ items, ∃ g, exec (.fifoEnqueue id items) s = .next (reply
        (.count (min items.length (f.slots.length - 1 - (fifoContents f).length)))
        { s with fifos := s.fifos.set id.toNat g }) ∧ FifoOk g ∧
      fifoContents g = fifoContents f ++ items.take (f.slots.length - 1 - (fifoContents f).length)) ∧
    (∀ max, ∃ g, exec (.fifoDequeue id max) s = .next (reply (.items ((fifoContents f).take max.toNat))
        { s with fifos := s.fifos.set id.toNat g }) ∧ FifoOk g ∧ fifoContents g = (fifoContents f).drop max.toNat) ∧
    (∀ n, ∃ g, exec (.fifoErase id n) s = .next (reply (.count (min n.toNat (fifoContents f).length))
        { s with fifos := s.fifos.set id.toNat g }) ∧ FifoOk g ∧ fifoContents g = (fifoContents f).drop n.toNat) ∧
    (∃ g, exec (.fifoClear id) s = .next (reply .done { s with fifos := s.fifos.set id.toNat g }) ∧ FifoOk g ∧
      fifoContents g = [])

/-! Commands of the device controller. -/

/-- R180 with R292, R181, R182, whole: what a first DEV.INIT writes and what it keeps; a second one writes nothing;
DEV.SET_RESOLVER of `None` or of a procedure that exists (R126 g) writes the resolver in every device state. -/
def Obligations.InitAndSetResolver : Prop :=
  ∀ s : State,
    (s.initialized = false → ∃ t, exec .devInit s = .next (reply .ok t) ∧
      t = { s with
        initialized := true
        configured := false
        setupValid := false
        toggle := t.toggle
        callback := t.callback
        devAddr := 0
        pullup := true
        intEn := 0x00011010
        busResetLatch := false
        setupReqLatch := false
        bufStatus := 0
        irqInstalled := true
        mem := t.mem } ∧
      (∀ i : EpIdx, t.toggle[i] = false ∧ t.callback[i] = none) ∧ (∀ a, memRead t.mem a = 0)) ∧
    (s.initialized = true → exec .devInit s = .next (reply .errAlreadyInitialized s)) ∧
    (∀ fn, procNamed s fn = true → exec (.devSetResolver fn) s = .next (reply .done { s with resolver := fn }))

/-- R183: where the checks of R184 pass, one `EP_CTRL` word, one toggle and one callback are written. The
identity `cb` is `None` or names a procedure (R126 g). -/
def Obligations.DevConfigureEp : Prop :=
  ∀ (ep at_ : Byte) (mp : Half) (cb : Option Byte) (s : State), procNamed s cb = true → s.initialized = true →
    epReserved ep = 0#3 → epNum ep ≠ 0#4 → (attrType at_ = 2#2 ∨ attrType at_ = 3#2) → mp.toNat ≤ 64 →
    ∃ t, exec (.devConfigureEp ep at_ mp cb) s = .next (reply .done t) ∧
      t = { s with
        mem := t.mem
        toggle := s.toggle.set (idx ep) false
        callback := s.callback.set (idx ep) cb } ∧
      2 ≤ (idx ep).val ∧
      ecEn (epCtrl t (idx ep)) = true ∧ ecType (epCtrl t (idx ep)) = attrType at_ ∧
      (ecAddr (epCtrl t (idx ep))).toNat = bufAddr (idx ep) ∧
      (∀ k, (28 ≤ k ∧ k ≤ 30) ∨ (16 ≤ k ∧ k ≤ 25) → (epCtrl t (idx ep)).getLsbD k = false) ∧
      (∀ a, ¬(epCtrlAddr (idx ep) ≤ a ∧ a < epCtrlAddr (idx ep) + 4) → memRead t.mem a = memRead s.mem a)

/-- R184, whole: the checks in their order, the first that fails deciding the fault, nothing else written (R267); where
all pass, `max_packet = 0` among them, no fault is raised. (A command whose `cb` names no procedure never reaches the
checks: R126 g.) -/
def Obligations.DevConfigureEpChecks : Prop :=
  ∀ (ep at_ : Byte) (mp : Half) (cb : Option Byte) (s : State), s.fault = none → procNamed s cb = true →
    (s.initialized = false →
      exec (.devConfigureEp ep at_ mp cb) s = .next { s with fault := some .notInitialized }) ∧
    (s.initialized = true → (epReserved ep ≠ 0#3 ∨ epNum ep = 0#4) →
      exec (.devConfigureEp ep at_ mp cb) s = .next { s with fault := some .badEndpoint }) ∧
    (s.initialized = true → epReserved ep = 0#3 → epNum ep ≠ 0#4 → (attrType at_ = 0#2 ∨ attrType at_ = 1#2) →
      exec (.devConfigureEp ep at_ mp cb) s = .next { s with fault := some .badType }) ∧
    (s.initialized = true → epReserved ep = 0#3 → epNum ep ≠ 0#4 → (attrType at_ = 2#2 ∨ attrType at_ = 3#2) →
      64 < mp.toNat → exec (.devConfigureEp ep at_ mp cb) s = .next { s with fault := some .badLength }) ∧
    (s.initialized = true → epReserved ep = 0#3 → epNum ep ≠ 0#4 → (attrType at_ = 2#2 ∨ attrType at_ = 3#2) →
      mp.toNat ≤ 64 → ∃ t, exec (.devConfigureEp ep at_ mp cb) s = .next t ∧ t.fault = none)

/-- R185, whole: the checks of the four transfer commands, in their order; where all pass no fault is raised, whether or
not `EP_CTRL` enables the index. -/
def Obligations.TransferChecks : Prop :=
  ∀ (ep : Byte) (data : List Byte) (m : Half) (s : State), s.fault = none →
    (s.initialized = false → ∀ i, i = .devSend ep data ∨ i = .devControlSend data ∨ i = .devReceive ep m ∨
      i = .devIsSendPending ep → exec i s = .next { s with fault := some .notInitialized }) ∧
    (s.initialized = true → epReserved ep ≠ 0#3 → ∀ i, i = .devSend ep data ∨ i = .devReceive ep m ∨
      i = .devIsSendPending ep → exec i s = .next { s with fault := some .badEndpoint }) ∧
    (s.initialized = true → epReserved ep = 0#3 → epIsIn ep = false → ∀ i, i = .devSend ep data ∨
      i = .devIsSendPending ep → exec i s = .next { s with fault := some .badEndpoint }) ∧
    (s.initialized = true → epReserved ep = 0#3 → epIsIn ep = true →
      exec (.devReceive ep m) s = .next { s with fault := some .badEndpoint }) ∧
    (s.initialized = true → epReserved ep = 0#3 → epIsIn ep = true → 64 < data.length →
      exec (.devSend ep data) s = .next { s with fault := some .badLength }) ∧
    (s.initialized = true → 64 < data.length →
      exec (.devControlSend data) s = .next { s with fault := some .badLength }) ∧
    (s.initialized = true → epReserved ep = 0#3 → epIsIn ep = false → 64 < m.toNat →
      exec (.devReceive ep m) s = .next { s with fault := some .badLength }) ∧
    (s.initialized = true → epReserved ep = 0#3 → data.length ≤ 64 → m.toNat ≤ 64 → ∀ i,
      (i = .devSend ep data ∧ epIsIn ep = true) ∨ i = .devControlSend data ∨ (i = .devReceive ep m ∧ epIsIn ep = false) ∨
        (i = .devIsSendPending ep ∧ epIsIn ep = true) → ∃ t, exec i s = .next t ∧ t.fault = none)

/-- R186, R188, R189: DEV.SEND and DEV.CONTROL_SEND run an `arm_in`; carried to its end it has written the bytes, the word
and the toggle, and `irq_mask` is as it was. `ArmedIn` holds the frame. The steps that MAIN's is cut into are log entry 10;
external code's is one step (R279, R194). -/
def Obligations.SendArmsTheBuffer : Prop :=
  ∀ (data : List Byte) (s : State), s.initialized = true → s.arming = none → data.length ≤ 64 →
    (∀ ep : Byte, epReserved ep = 0#3 → epIsIn ep = true →
      (∃ t u, exec (.devSend ep data) s = .next t ∧ finishArm t = reply .done u ∧ ArmedIn (idx ep) data s u) ∧
      (s.ctx = .irq → ∃ u, exec (.devSend ep data) s = .next (reply .done u) ∧ ArmedIn (idx ep) data s u)) ∧
    (∃ t u, exec (.devControlSend data) s = .next t ∧ finishArm t = reply .done u ∧ ArmedIn 0 data s u) ∧
    (s.ctx = .irq → ∃ u, exec (.devControlSend data) s = .next (reply .done u) ∧ ArmedIn 0 data s u)

/-- R186, R89 (a), R85: an `arm_in` under way goes on before anything else of the processor, byte by byte, each step
writing the next byte in its place; then the word alone; then the toggle flips and the command ends (the record is log
entry 10, the step without a schedule log entry 8). -/
def Obligations.ArmingGoesOnBytesFirst : Prop :=
  ∀ (s : State) (a : Arming), s.arming = some a → s.fault = none →
    (∀ rest, s.sched = .proc :: rest → step s = .next (armStep { s with sched := rest })) ∧
    (s.sched = [] → step s = .next (armStep s)) ∧
    (∀ b bs, a.todo = b :: bs →
      armStep s = { s with mem := (armStep s).mem, arming := some { a with todo := bs, off := a.off + 1 } } ∧
      memRead (armStep s).mem (bufAddr a.idx + a.off) = b ∧
      (∀ x, x ≠ bufAddr a.idx + a.off → memRead (armStep s).mem x = memRead s.mem x) ∧
      (∀ i, bufCtrl (armStep s) i = bufCtrl s i)) ∧
    (a.todo = [] → a.wordDone = false →
      armStep s = { s with mem := (armStep s).mem, arming := some { a with wordDone := true } } ∧
      bufCtrl (armStep s) a.idx = mkBufCtrl true s.toggle[a.idx] false true (BitVec.ofNat 10 a.len) ∧
      (∀ x, ¬(bufCtrlAddr a.idx ≤ x ∧ x < bufCtrlAddr a.idx + 4) → memRead (armStep s).mem x = memRead s.mem x)) ∧
    (a.todo = [] → a.wordDone = true → armStep s = reply .done { s with
      toggle := s.toggle.set a.idx (!s.toggle[a.idx])
      arming := none
      irqMask := s.irqMask - 1 })

/-- R189 (the document's scenario), R25, R302: after a first send the index is pending, and a second send before the host
has taken the first goes out with the other PID (log entry 10). -/
def Obligations.SecondSendHasTheOtherPid : Prop :=
  ∀ (ep : Byte) (d1 d2 : List Byte) (s : State), s.initialized = true → s.arming = none → s.ctx = .main →
    epReserved ep = 0#3 → epIsIn ep = true → d1.length ≤ 64 → d2.length ≤ 64 →
    ∃ t1 t2 s1 s2 p, exec (.devSend ep d1) s = .next t1 ∧ finishArm t1 = s1 ∧
      exec (.devIsSendPending ep) s1 = .next (reply (.bool true) s1) ∧
      exec (.devSend ep d2) s1 = .next t2 ∧ finishArm t2 = s2 ∧
      (bufCtrl s1 (idx ep)).getLsbD bcPid = p ∧ (bufCtrl s2 (idx ep)).getLsbD bcPid = !p ∧ s2.toggle = s.toggle

/-- R187, R190: DEV.RECEIVE writes one word and one toggle, no buffer byte. -/
def Obligations.DevReceive : Prop :=
  ∀ (ep : Byte) (m : Half) (s : State), s.initialized = true → epReserved ep = 0#3 → epIsIn ep = false → m.toNat ≤ 64 →
    ∃ t, exec (.devReceive ep m) s = .next (reply .done t) ∧
      t = { s with mem := t.mem, toggle := s.toggle.set (idx ep) (!s.toggle[idx ep]) } ∧
      bufCtrl t (idx ep) = mkBufCtrl false s.toggle[idx ep] false true (BitVec.ofNat 10 m.toNat) ∧
      (∀ a, ¬(bufCtrlAddr (idx ep) ≤ a ∧ a < bufCtrlAddr (idx ep) + 4) → memRead t.mem a = memRead s.mem a)

/-- R192, whole: `AVAIL` of the index is returned and nothing is written. -/
def Obligations.DevIsSendPending : Prop :=
  ∀ (ep : Byte) (s : State), s.initialized = true → epReserved ep = 0#3 → epIsIn ep = true →
    exec (.devIsSendPending ep) s = .next (reply (.bool ((bufCtrl s (idx ep)).getLsbD 10)) s)

/-- R191, whole: one bit of one word, chosen by the direction of the packet on record; the two faults in their order. -/
def Obligations.DevStallControl : Prop :=
  ∀ (s : State) (i : EpIdx), i = (if s.lastSetup.bmRequestType.getLsbD 7 = true then 0 else 1) →
    (s.initialized = true → s.setupValid = true → ∃ t, exec .devStallControl s = .next (reply .done t) ∧
      t = { s with mem := t.mem } ∧
      (∀ k, k < 32 → (bufCtrl t i).getLsbD k = if k = 11 then true else (bufCtrl s i).getLsbD k) ∧
      (∀ a, ¬(bufCtrlAddr i ≤ a ∧ a < bufCtrlAddr i + 4) → memRead t.mem a = memRead s.mem a)) ∧
    (s.fault = none → s.initialized = false →
      exec .devStallControl s = .next { s with fault := some .notInitialized }) ∧
    (s.fault = none → s.initialized = true → s.setupValid = false →
      exec .devStallControl s = .next { s with fault := some .noSetup })

/-- R267, R265, R52: an operation that raises a fault writes nothing else; a fault recorded before is kept; in a faulted
state the model says nothing further (log entry 11). -/
def Obligations.FaultsWriteNothingElse : Prop :=
  (∀ (i : Instr) (s t : State), exec i s = .next t →
    (t.fault ≠ s.fault → t = { s with fault := t.fault } ∧ s.fault = none) ∧
    (∀ k, s.fault = some k → t.fault = some k)) ∧
  (∀ (s : State) (k : FaultKind), s.fault = some k → step s = .fault (.blockFaulted k))

/-! Bus events. -/

/-- R212, R213, whole: a bus reset sets one latch; an accepted packet's writes; a packet for another address writes nothing. -/
def Obligations.BusResetAndSetup : Prop :=
  ∀ (a : BitVec 7) (p : SetupPacket) (s : State), s.initialized = true → s.pullup = true →
    exec .busReset s = .next { s with busResetLatch := true } ∧
    (a = s.devAddr → ∃ t, exec (.busSetup a p) s = .next t ∧
      t = { s with mem := t.mem, setupReqLatch := true, events := s.events ++ [.setupAccepted p] } ∧
      setupHw t = p ∧ (∀ j, j < 8 → (packetBytes p)[j]? = some (memRead t.mem j)) ∧
      (∀ i : EpIdx, i.val < 2 → ∀ k, k < 32 → (bufCtrl t i).getLsbD k = if k = 11 then false else (bufCtrl s i).getLsbD k) ∧
      (∀ x, 8 ≤ x → ¬(0x080 ≤ x ∧ x < 0x088) → memRead t.mem x = memRead s.mem x)) ∧
    (a ≠ s.devAddr → exec (.busSetup a p) s = .next { s with events := s.events ++ [.ignored] })

/-- R211, R214: the completing IN transaction. `LEN` is at most 64 in every state a run reaches (LengthsStayWithinAPacket);
above it the model stops (log entry 14). -/
def Obligations.BusInCompletes : Prop :=
  ∀ (a : BitVec 7) (n : BitVec 4) (s : State) (i : EpIdx), s.initialized = true → s.pullup = true → i.val = 2 * n.toNat →
    a = s.devAddr → (i.val < 2 ∨ (epCtrl s i).getLsbD 31 = true) → (bufCtrl s i).getLsbD 11 = false →
    (bufCtrl s i).getLsbD 10 = true → (bufCtrl s i).getLsbD 15 = true → (bcLen (bufCtrl s i)).toNat ≤ 64 →
    ∃ t bytes, exec (.busIn a n) s = .next t ∧
      t = { s with
        mem := t.mem
        bufStatus := t.bufStatus
        events := s.events ++ [.tx n ((bufCtrl s i).getLsbD 13) bytes] } ∧
      bytes.length = (bcLen (bufCtrl s i)).toNat ∧
      (∀ j, j < bytes.length → bytes[j]? = some (memRead s.mem (bufAddr i + j))) ∧
      (∀ k, k < 32 → (bufCtrl t i).getLsbD k = if k = 10 ∨ k = 15 then false else (bufCtrl s i).getLsbD k) ∧
      (∀ k, k < 32 → t.bufStatus.getLsbD k = if k = i.val then true else s.bufStatus.getLsbD k) ∧
      (∀ x, ¬(bufCtrlAddr i ≤ x ∧ x < bufCtrlAddr i + 4) → memRead t.mem x = memRead s.mem x)

/-- R211, R215: the other cases of an IN transaction, in the order R215 tests them; only the event is recorded. -/
def Obligations.BusInOtherCases : Prop :=
  ∀ (a : BitVec 7) (n : BitVec 4) (s : State) (i : EpIdx), s.initialized = true → s.pullup = true → i.val = 2 * n.toNat →
    (¬(a = s.devAddr ∧ (i.val < 2 ∨ (epCtrl s i).getLsbD 31 = true)) →
      exec (.busIn a n) s = .next { s with events := s.events ++ [.ignored] }) ∧
    (a = s.devAddr → (i.val < 2 ∨ (epCtrl s i).getLsbD 31 = true) →
      ((bufCtrl s i).getLsbD 11 = true →
        exec (.busIn a n) s = .next { s with events := s.events ++ [.stallSent n .dirIn] }) ∧
      ((bufCtrl s i).getLsbD 11 = false → ¬((bufCtrl s i).getLsbD 10 = true ∧ (bufCtrl s i).getLsbD 15 = true) →
        exec (.busIn a n) s = .next { s with events := s.events ++ [.nak n .dirIn] }))

/-- R211, R216: the completing OUT transaction, with at most 64 bytes (log entry 14, LengthsStayWithinAPacket). -/
def Obligations.BusOutCompletes : Prop :=
  ∀ (a : BitVec 7) (n : BitVec 4) (pid : Bool) (data : List Byte) (s : State) (i : EpIdx),
    s.initialized = true → s.pullup = true → i.val = 2 * n.toNat + 1 →
    a = s.devAddr → (i.val < 2 ∨ (epCtrl s i).getLsbD 31 = true) → (bufCtrl s i).getLsbD 11 = false →
    (bufCtrl s i).getLsbD 10 = true → (bufCtrl s i).getLsbD 15 = false →
    data.length ≤ (bcLen (bufCtrl s i)).toNat → data.length ≤ 64 →
    ∃ t, exec (.busOut a n pid data) s = .next t ∧
      t = { s with mem := t.mem, bufStatus := t.bufStatus, events := s.events ++ [.rx n pid data] } ∧
      (∀ j, j < data.length → data[j]? = some (memRead t.mem (bufAddr i + j))) ∧
      (bcLen (bufCtrl t i)).toNat = data.length ∧
      (∀ k, 10 ≤ k → k < 32 → (bufCtrl t i).getLsbD k =
        if k = 15 then true else if k = 10 then false else (bufCtrl s i).getLsbD k) ∧
      (∀ k, k < 32 → t.bufStatus.getLsbD k = if k = i.val then true else s.bufStatus.getLsbD k) ∧
      (∀ x, ¬(bufAddr i ≤ x ∧ x < bufAddr i + data.length) → ¬(bufCtrlAddr i ≤ x ∧ x < bufCtrlAddr i + 4) →
        memRead t.mem x = memRead s.mem x)

/-- R211, R217: the other cases of an OUT transaction, in the order R217 tests them. -/
def Obligations.BusOutOtherCases : Prop :=
  ∀ (a : BitVec 7) (n : BitVec 4) (pid : Bool) (data : List Byte) (s : State) (i : EpIdx),
    s.initialized = true → s.pullup = true → i.val = 2 * n.toNat + 1 →
    (¬(a = s.devAddr ∧ (i.val < 2 ∨ (epCtrl s i).getLsbD 31 = true)) →
      exec (.busOut a n pid data) s = .next { s with events := s.events ++ [.ignored] }) ∧
    (a = s.devAddr → (i.val < 2 ∨ (epCtrl s i).getLsbD 31 = true) →
      ((bufCtrl s i).getLsbD 11 = true →
        exec (.busOut a n pid data) s = .next { s with events := s.events ++ [.stallSent n .dirOut] }) ∧
      ((bufCtrl s i).getLsbD 11 = false → ¬((bufCtrl s i).getLsbD 10 = true ∧ (bufCtrl s i).getLsbD 15 = false) →
        exec (.busOut a n pid data) s = .next { s with events := s.events ++ [.nak n .dirOut] }))

/-- R210, R219 (c), R74: where HOST has no move, and what no run reaches, the model stops by name (log entries 13, 14). -/
def Obligations.BusEventsStopOutsideTheirRules : Prop :=
  (∀ (i : Instr) (s : State), i.format = .bus → (s.initialized = false ∨ s.pullup = false) →
    exec i s = .refused .hostHasNoMove) ∧
  (∀ (n : BitVec 4) (pid : Bool) (data : List Byte) (s : State) (i : EpIdx), i.val = 2 * n.toNat + 1 →
    completes s i (.busOut s.devAddr n pid []) = true → s.initialized = true → s.pullup = true →
    ((bcLen (bufCtrl s i)).toNat < data.length → exec (.busOut s.devAddr n pid data) s = .refused .hostHasNoMove) ∧
    (data.length ≤ (bcLen (bufCtrl s i)).toNat → bufEnd i < bufAddr i + data.length →
      exec (.busOut s.devAddr n pid data) s = .fault .reservedAccess)) ∧
  (∀ (n : BitVec 4) (s : State) (i : EpIdx), i.val = 2 * n.toNat → completes s i (.busIn s.devAddr n) = true →
    s.initialized = true → s.pullup = true → bufEnd i < bufAddr i + (bcLen (bufCtrl s i)).toNat →
    exec (.busIn s.devAddr n) s = .fault .reservedAccess)

/-- R218, whole: what no bus event writes; latches and status bits are never cleared; a status bit
is set only by a completion of its index; `AVAIL` only falls, and only at a completion; a buffer is written only by a
completing BUS.OUT and `SETUP_HW` only by an accepted BUS.SETUP. -/
def Obligations.BusSideNever : Prop :=
  ∀ (e : Instr) (s t : State), e.format = .bus → exec e s = .next t →
    t = { s with
      mem := t.mem
      busResetLatch := t.busResetLatch
      setupReqLatch := t.setupReqLatch
      bufStatus := t.bufStatus
      events := t.events } ∧
    (∀ i : EpIdx, 2 ≤ i.val → epCtrl t i = epCtrl s i) ∧
    (t.busResetLatch = (s.busResetLatch || decide (e = .busReset))) ∧
    (t.setupReqLatch ≠ s.setupReqLatch → t.setupReqLatch = true ∧ ∃ p, e = .busSetup s.devAddr p) ∧
    (∀ i : EpIdx, t.bufStatus.getLsbD i = (s.bufStatus.getLsbD i || completes s i e)) ∧
    (∀ i : EpIdx, (bufCtrl t i).getLsbD bcAvail = ((bufCtrl s i).getLsbD bcAvail && !completes s i e)) ∧
    (∀ x, 0x100 ≤ x → memRead t.mem x ≠ memRead s.mem x → ∃ n pid data, e = .busOut s.devAddr n pid data ∧
      completes s (idxOf n false) e = true ∧ bufAddr (idxOf n false) ≤ x ∧ x < bufAddr (idxOf n false) + data.length) ∧
    (∀ x, x < 8 → memRead t.mem x ≠ memRead s.mem x → ∃ p, e = .busSetup s.devAddr p)

/-! The interrupt. The positions `hpc` takes inside a phase, one for each numbered line, are log entry 9. -/

/-- R32, R40: the status word and the interrupt line, bit by bit; R33, R35: what the two clear channels do. -/
def Obligations.StatusWordAndClearChannels : Prop :=
  ∀ s : State,
    (∀ k, k < 32 → (intStatus s).getLsbD k =
      if k = 12 then s.busResetLatch && s.intEn.getLsbD 12
      else if k = 16 then s.setupReqLatch && s.intEn.getLsbD 16
      else if k = 4 then decide (s.bufStatus ≠ 0) && s.intEn.getLsbD 4
      else false) ∧
    (irqLine s = (s.irqInstalled && decide (intStatus s ≠ 0))) ∧
    (∀ m : Word, writeIntClr m s = { s with
      busResetLatch := if m.getLsbD 12 then false else s.busResetLatch
      setupReqLatch := if m.getLsbD 16 then false else s.setupReqLatch }) ∧
    (∀ m : Word, writeBufStatusClr m s = { s with bufStatus := (writeBufStatusClr m s).bufStatus } ∧
      ∀ k, k < 32 → (writeBufStatusClr m s).bufStatus.getLsbD k = (s.bufStatus.getLsbD k && !m.getLsbD k))

/-- R275: the handler is entered before MAIN's next step when all its conditions hold; nothing else changes (R276). -/
def Obligations.HandlerEntry : Prop :=
  ∀ s : State, s.fault = none → Quiet s → s.ctx = .main → irqLine s = true → s.irqMask = 0 →
    (s.sched = [] → step s = .next { s with ctx := .irq, hpc := .h1Read }) ∧
    (∀ rest, s.sched = .proc :: rest → step s = .next { s with sched := rest, ctx := .irq, hpc := .h1Read })

/-- R275, R50, R278: there is no other way into the handler, and none while it runs, while the interrupt is masked, or in
the middle of a command. -/
def Obligations.NoOtherHandlerEntry : Prop :=
  ∀ s t : State, step s = .next t → s.ctx = .main → t.ctx = .irq →
    irqLine s = true ∧ s.irqMask = 0 ∧ Quiet s ∧
      t = { s with sched := t.sched, ctx := .irq, hpc := .h1Read }

/-- R231, whole, R242, R277: one read of the status word, then the position moves (log entry 9); at the exit nothing is
restored, and the locals lose their values, which the model writes as zero (log entry 15); a lock cell that external code
left owned by `Irq` stays so (R143 excludes it; log entry 24). -/
def Obligations.IrqEntryAndExitLines : Prop :=
  ∀ s : State,
    (s.hpc = .h1Read → ∃ t, exec .irqEntry s = .next t ∧
      t = { s with locals := { s.locals with s := intStatus s }, hpc := .h1Go } ∧
      exec .irqEntry t = .next { t with hpc := .h2Clear }) ∧
    exec .irqExit s = .next { s with hpc := .idle, ctx := .main, locals := Locals.none }

/-- (Positions: log entry 9.) R232, whole: the four lines in a row, and the phase whose cause bit is 0. -/
def Obligations.IrqBusResetLines : Prop :=
  ∀ s : State, s.hpc = .h2Clear →
    (s.locals.s.getLsbD 12 = true → ∃ t1 t2 t3, exec .irqBusReset s = .next t1 ∧
      t1 = { s with busResetLatch := false, hpc := .h2Addr } ∧
      exec .irqBusReset t1 = .next t2 ∧ t2 = { t1 with devAddr := 0, hpc := .h2Conf } ∧
      exec .irqBusReset t2 = .next t3 ∧ t3 = { t2 with configured := false, hpc := .h2Go } ∧
      exec .irqBusReset t3 = .next { t3 with hpc := .h3Clear }) ∧
    (s.locals.s.getLsbD 12 = false → exec .irqBusReset s = .next { s with hpc := .h3Clear })

/-- (Positions: log entry 9.) R233 lines 1 to 3 and 5, R234: the latch is cleared before the copy, the copy takes all 8 bytes, `toggle[0]` is 1. -/
def Obligations.IrqSetupLines : Prop :=
  ∀ s : State,
    (s.hpc = .h3Clear → s.locals.s.getLsbD 16 = true → ∃ t1 t2, exec .irqSetup s = .next t1 ∧
      t1 = { s with setupReqLatch := false, hpc := .h3Copy } ∧
      exec .irqSetup t1 = .next t2 ∧ t2 = { t1 with lastSetup := t2.lastSetup, setupValid := true, hpc := .h3Toggle } ∧
      (∀ j, j < 8 → (packetBytes t2.lastSetup)[j]? = some (memRead s.mem j)) ∧
      exec .irqSetup t2 = .next { t2 with toggle := s.toggle.set 0 true, hpc := .h3Dispatch }) ∧
    (s.hpc = .h3Clear → s.locals.s.getLsbD 16 = false → exec .irqSetup s = .next { s with hpc := .h4 }) ∧
    (s.hpc = .h3Go → exec .irqSetup s = .next { s with hpc := .h4 })

/-- (Positions: log entry 9.) R235, whole: a zero-length packet is armed on index 0 and `DEV_ADDR` is not written, whatever the packet's fields. -/
def Obligations.SetAddressArmsAndDefers : Prop :=
  ∀ (v i l : Half) (s : State),
    ∃ t, exec (.setupSetAddress v i l) s = .next t ∧
      t = { s with mem := t.mem, toggle := s.toggle.set 0 (!s.toggle[0]), hpc := .h3Go } ∧
      bufCtrl t 0 = mkBufCtrl true s.toggle[0] false true 0 ∧
      (s.toggle[0] = true → bufCtrl t 0 = 0x0000A400#32 ∧ t.toggle[0] = false) ∧
      (∀ x, ¬(0x080 ≤ x ∧ x < 0x084) → memRead t.mem x = memRead s.mem x)

/-- (Positions: log entry 9.) R236, line by line, for SET_CONFIGURATION and every other packet that is not SET_ADDRESS (R106).
The resolver on record names a procedure (StepKeepsRegisterWords, R126 g). -/
def Obligations.ResolverDispatchLines : Prop :=
  ∀ (p : SetupPacket) (s : State), ¬(p.bmRequestType = 0x00#8 ∧ p.bRequest = 0x05#8) →
    (s.hpc = .h3Dispatch → s.fault = none → s.resolver = none →
      exec (decodeSetup p) s = .next { s with fault := some .noResolver }) ∧
    (∀ f, s.hpc = .h3Dispatch → s.resolver = some f → exec (decodeSetup p) s = .next { s with hpc := .h3Emit }) ∧
    (s.hpc = .h3Emit → exec (decodeSetup p) s = .next { s with events := s.events ++ [.resolve p], hpc := .h3Call }) ∧
    (∀ f q, s.hpc = .h3Call → s.resolver = some f → procBody s.procs f = some q → exec (decodeSetup p) s = .next { s with
      ext := some { args := packetBytes p, result := [], rest := q } }) ∧
    (s.hpc = .h3Resolved → exec (decodeSetup p) s = .next { s with
      events := s.events ++ [.resolved s.locals.ok], hpc := .h3Configure }) ∧
    (s.hpc = .h3Configure → exec (decodeSetup p) s = .next { s with
      configured := if s.locals.ok = true ∧ p.bmRequestType = 0x00#8 ∧ p.bRequest = 0x09#8 then true else s.configured
      hpc := .h3Reject }) ∧
    (s.hpc = .h3Reject → s.locals.ok = true → exec (decodeSetup p) s = .next { s with hpc := .h3Go })

/-- (Positions: log entry 9.) R237, R236 line 6: a rejected packet stalls the control endpoint in the direction of the packet on record, at once. -/
def Obligations.RejectionStalls : Prop :=
  ∀ (p : SetupPacket) (s : State) (i : EpIdx), ¬(p.bmRequestType = 0x00#8 ∧ p.bRequest = 0x05#8) →
    s.hpc = .h3Reject → s.locals.ok = false → s.initialized = true → s.setupValid = true → s.lastSetup = p →
    i = (if p.bmRequestType.getLsbD 7 = true then 0 else 1) →
    ∃ t, exec (decodeSetup p) s = .next t ∧ t = { s with mem := t.mem, hpc := .h3Go } ∧
      (∀ k, k < 32 → (bufCtrl t i).getLsbD k = if k = 11 then true else (bufCtrl s i).getLsbD k) ∧
      (∀ x, ¬(bufCtrlAddr i ≤ x ∧ x < bufCtrlAddr i + 4) → memRead t.mem x = memRead s.mem x)

/-- (Positions: log entry 9.) R238, R239: line 1, and the lines of the loop; line 2a clears one bit of `BUF_STATUS` and no other. -/
def Obligations.IrqBuffLines : Prop :=
  ∀ s : State,
    (s.hpc = .h4 → s.locals.s.getLsbD 4 = false → exec .irqBuff s = .next { s with hpc := .h6 }) ∧
    (s.hpc = .h4 → s.locals.s.getLsbD 4 = true → exec .irqBuff s = .next { s with
      locals := { s.locals with b := s.bufStatus, i := 0 }, hpc := .h5Loop }) ∧
    (s.hpc = .h5Loop → s.locals.i < 32 → s.locals.b.getLsbD s.locals.i = true → ∃ t, exec .irqBuff s = .next t ∧
      t = { s with bufStatus := t.bufStatus, hpc := .h5Len } ∧
      ∀ k, k < 32 → t.bufStatus.getLsbD k = if k = s.locals.i then false else s.bufStatus.getLsbD k) ∧
    (∀ i : EpIdx, s.hpc = .h5Len → s.locals.i = i.val → exec .irqBuff s = .next { s with
      locals := { s.locals with len := bcLen (bufCtrl s i) }, hpc := if i.val = 0 then .h5Ep0 else .h5Serve }) ∧
    (s.hpc = .h5Loop → s.locals.i < 32 → s.locals.b.getLsbD s.locals.i = false → exec .irqBuff s = .next { s with
      locals := { s.locals with i := s.locals.i + 1 } }) ∧
    (s.hpc = .h5Next → exec .irqBuff s = .next { s with
      locals := { s.locals with i := s.locals.i + 1 }, hpc := .h5Loop }) ∧
    (s.hpc = .h5Loop → 32 ≤ s.locals.i → exec .irqBuff s = .next { s with hpc := .h6 })

/-- (Positions: log entry 9.) R240, whole: the deferred address is applied exactly when the packet on record is SET_ADDRESS. -/
def Obligations.DeferredAddress : Prop :=
  ∀ s : State, s.hpc = .h5Ep0 →
    ((s.setupValid = true ∧ s.lastSetup.bmRequestType = 0x00#8 ∧ s.lastSetup.bRequest = 0x05#8) →
      ∃ a : BitVec 7, a.toNat = s.lastSetup.wValue.toNat % 128 ∧ exec .completeEp0In s = .next { s with
        devAddr := a, events := s.events ++ [.addrSet a], hpc := .h5Serve }) ∧
    (¬(s.setupValid = true ∧ s.lastSetup.bmRequestType = 0x00#8 ∧ s.lastSetup.bRequest = 0x05#8) →
      exec .completeEp0In s = .next { s with hpc := .h5Serve })

/-- (Positions: log entry 9.) R241, R238 line 2d, R91: the lines of a callback's service, for both directions; an index without a callback is passed
over; the register is read at the service and at the call. A length above 64 is log entry 14; a callback on record names a procedure (StepKeepsRegisterWords, R126 g). -/
def Obligations.CallbackServiceLines : Prop :=
  ∀ (i : EpIdx) (s : State),
    (s.hpc = .h5Serve → s.callback[i] = none → exec (decodeIndex i) s = .next { s with hpc := .h5Next }) ∧
    (∀ f, s.hpc = .h5Serve → s.callback[i] = some f → s.locals.len.toNat ≤ 64 →
      ∃ bytes, exec (decodeIndex i) s = .next { s with locals := { s.locals with bytes := bytes }, hpc := .h5Emit } ∧
        bytes.length = s.locals.len.toNat ∧ ∀ j, j < bytes.length → bytes[j]? = some (memRead s.mem (bufAddr i + j))) ∧
    (s.hpc = .h5Emit → exec (decodeIndex i) s = .next { s with
      events := s.events ++ [.call i s.locals.bytes s.locals.len.toNat], hpc := .h5Call }) ∧
    (∀ f q, s.hpc = .h5Call → s.callback[i] = some f → procBody s.procs f = some q →
      exec (decodeIndex i) s = .next { s with ext := some { args := s.locals.bytes, result := [], rest := q } }) ∧
    (s.hpc = .h5Returned → exec (decodeIndex i) s = .next { s with
      events := s.events ++ [.returned i], hpc := .h5Next })

/-! The whole machine. -/

/-- R5, R88, R230, R279: a step runs the operation that its agent's port or the handler's position spells, on the state
with those bytes taken; the schedule names the agent (log entry 8). A command that waits at a lock is run again (R140, log
entry 12). External code issues its next command or returns, the resolver to R236 line 4 and a callback to R241 line 4 (R11;
its form is log entry 7, the positions log entry 9; that it returns also with a lock it took, log entry 24). The command
port's operands of a type have the type's size (log entry 6). -/
def Obligations.StepRunsTheDecodedOperation : Prop :=
  ∀ s : State, s.fault = none →
    (∀ rest i r, s.sched = .host :: rest → s.initialized = true → s.pullup = true → decodeBus s.busPort = .ok (i, r) →
      step s = exec i { s with sched := rest, busPort := r }) ∧
    (∀ rest i r, s.sched = .proc :: rest → Quiet s → s.ctx = .main → entryEnabled s = false →
      decodeCmd (sizesOf s) s.mainPort = .ok (i, r) → step s = exec i { s with sched := rest, mainPort := r }) ∧
    (∀ rest, s.sched = .proc :: rest → Quiet s → s.ctx = .irq →
      step s = exec (handlerInstr s) { s with sched := rest }) ∧
    (∀ rest e bytes tail k i, s.sched = .proc :: rest → s.arming = none → s.waiting = none → s.ext = some e →
      e.rest = .issue bytes tail k → decodeCmd (sizesOf s) (bytes ++ tailBytes e.args e.result tail) = .ok (i, []) →
      step s = exec i { s with sched := rest, ext := some { e with rest := k } }) ∧
    (∀ rest e ok, s.sched = .proc :: rest → s.arming = none → s.waiting = none → s.ext = some e → e.rest = .ret ok →
      s.hpc = .h3Call → step s = .next { s with
        sched := rest, ext := none, hpc := .h3Resolved, locals := { s.locals with ok := ok } }) ∧
    (∀ rest e ok, s.sched = .proc :: rest → s.arming = none → s.waiting = none → s.ext = some e → e.rest = .ret ok →
      s.hpc = .h5Call → step s = .next { s with sched := rest, ext := none, hpc := .h5Returned }) ∧
    (∀ rest w, s.sched = .proc :: rest → s.arming = none → s.waiting = some w →
      step s = exec w.instr { s with sched := rest })

/-- R56, with R21 to R39: an operation writes no register that R56 does not let it write. -/
def Obligations.OnlyItsWritersWriteARegister : Prop :=
  ∀ (r : Reg) (i : Instr) (s t : State), exec i s = .next t → r ∉ mayWrite i → r.same s t

/-- R58, R291: the values after power-on that the spec gives. -/
def Obligations.ResetValues : Prop :=
  State.reset.initialized = false ∧ State.reset.configured = false ∧ State.reset.setupValid = false ∧
  (∀ i : EpIdx, State.reset.toggle[i] = false ∧ State.reset.callback[i] = none) ∧ State.reset.resolver = none ∧
  State.reset.irqInstalled = false ∧ (∀ o ∈ State.reset.locks, o = none) ∧
  (∀ f ∈ State.reset.fifos, f.w = 0 ∧ f.r = 0) ∧ State.reset.ctx = .main ∧ State.reset.hpc = .idle ∧
  State.reset.irqMask = 0 ∧ State.reset.fault = none ∧ State.reset.events = [] ∧ irqLine State.reset = false

/-- The invariants below hold after power-on, of the values the model names there (log entries 1, 3, 4, 5, 7, 15). -/
def Obligations.InvariantsHoldAtReset : Prop :=
  MemOk State.reset ∧ StallOk State.reset ∧ BufCtrlOk State.reset ∧ EpCtrlOk State.reset ∧ LenOk State.reset ∧
  CallbackOk State.reset ∧ PositionOk State.reset ∧ UninitOk State.reset ∧ MaskOk State.reset ∧ FifosOk State.reset ∧
  ProceduresOk State.reset ∧ TypesOk State.reset

/-- R70, R74, R185, R216: every step keeps DPRAM in canonical form, inside `DPRAM_SIZE`, and leaves every reserved byte as
it was or zero (DEV.INIT). -/
def Obligations.StepKeepsMemory : Prop :=
  ∀ s t : State, MemOk s → step s = .next t → MemOk t ∧
    ∀ a, reservedAddr a = true → memRead t.mem a = memRead s.mem a ∨ memRead t.mem a = 0

/-- R41, R262, R108, R113, R36, R115, R26, R126 (g): every step keeps a stall off every index from 2, the reserved bits of a
buffer-control word 0, an enabled endpoint-control word pointing at its own buffer with an admitted type, the control
endpoint without a callback, and the resolver and every callback naming a procedure that exists. -/
def Obligations.StepKeepsRegisterWords : Prop :=
  ∀ s t : State, step s = .next t →
    (StallOk s → StallOk t) ∧ (BufCtrlOk s → BufCtrlOk t) ∧ (EpCtrlOk s → EpCtrlOk t) ∧ (CallbackOk s → CallbackOk t) ∧
    (ProceduresOk s → ProceduresOk t)

/-- R185, R216, R74: every step keeps all lengths within 64, and then no step reaches a reserved range. -/
def Obligations.LengthsStayWithinAPacket : Prop :=
  ∀ s : State, LenOk s → step s ≠ .fault .reservedAccess ∧ ∀ t, step s = .next t → LenOk t

/-- R51, R11, R23, R266: every step keeps `hpc = Idle` exactly when `ctx = Main`, external code at a position of a call, an `arm_in` under way MAIN's, and
an uninitialised block unconfigured and outside the handler. -/
def Obligations.PositionFollowsContext : Prop :=
  ∀ s t : State, step s = .next t → (PositionOk s → PositionOk t) ∧ (UninitOk s → UninitOk t)

/-- R53, R85, R141: every step keeps `irq_mask` equal to the number of locks MAIN owns, and one for a DEV command of MAIN
that is under way (log entries 10, 12). -/
def Obligations.MaskCountsItsReasons : Prop :=
  ∀ s t : State, MaskOk s → step s = .next t → MaskOk t

/-- R45, R170 (a): every step keeps every FIFO's cursors in range, and so its count within the capacity. R43, R44, R124:
every step keeps every value and every slot in its own type, and no type changes (log entry 6). -/
def Obligations.FifoCursorsStayInRange : Prop :=
  ∀ s t : State, step s = .next t →
    (FifosOk s → FifosOk t ∧ ∀ f ∈ t.fifos, (f.slots.length + f.w - f.r) % f.slots.length ≤ f.slots.length - 1) ∧
    (FifosOk s → TypesOk s → TypesOk t) ∧ sizesOf t = sizesOf s
end

