-- ==== Sys2Proof/Laws/Bits.lean ====
section
/-! SUPPORT. The fields of the register words (R108 to R111), byte order, and the endpoint index arithmetic (R102 to R104). -/

namespace Sys2Proof.Machine

/-! One bit of a word. -/

theorem getLsbD_setBit (w : Word) (k j : Nat) (v : Bool) (hk : k < 32) :
    (setBit w k v).getLsbD j = if j = k then v else w.getLsbD j := by
  unfold setBit
  by_cases hj : j < 32
  · cases v <;> by_cases h : j = k <;> simp [hj, h, hk]
  · have h : j ≠ k := by omega
    simp only [h, if_false]
    rw [BitVec.getLsbD_of_ge _ _ (by omega), BitVec.getLsbD_of_ge _ _ (by omega)]

theorem getLsbD_setBit_self (w : Word) (k : Nat) (v : Bool) (hk : k < 32) : (setBit w k v).getLsbD k = v := by
  rw [getLsbD_setBit _ _ _ _ hk, if_pos rfl]

theorem getLsbD_setBit_ne (w : Word) (k j : Nat) (v : Bool) (h : j ≠ k) : (setBit w k v).getLsbD j = w.getLsbD j := by
  by_cases hk : k < 32
  · rw [getLsbD_setBit _ _ _ _ hk, if_neg h]
  · have hz : BitVec.twoPow 32 k = 0#32 := by
      apply BitVec.eq_of_getLsbD_eq
      intro i hi
      simp [show ¬ k = i by omega]
    unfold setBit
    rw [hz]
    by_cases hj : j < 32
    · have ho : (~~~(0#32)).getLsbD j = true := by simp only [BitVec.getLsbD_not, hj]; simp
      cases v
      · simp only [Bool.false_eq_true, if_false, BitVec.getLsbD_and, ho, Bool.and_true]
      · simp [hj]
    · rw [BitVec.getLsbD_of_ge _ _ (by omega), BitVec.getLsbD_of_ge _ _ (by omega)]

/-- A bit of an appended word of known width. -/
theorem getLsbD_word (m n : Nat) {k : Nat} (h : m + n = k) (x : BitVec m) (y : BitVec n) (i : Nat) :
    (BitVec.cast h (x ++ y)).getLsbD i = if i < n then y.getLsbD i else x.getLsbD (i - n) := by
  rw [BitVec.getLsbD_cast, BitVec.getLsbD_append]

/-! BUFCTRL fields. -/

theorem bcLen_setBit (w : Word) (k : Nat) (v : Bool) (hk : 10 ≤ k) : bcLen (setBit w k v) = bcLen w := by
  unfold bcLen
  apply BitVec.eq_of_getLsbD_eq
  intro i hi
  rw [BitVec.getLsbD_extractLsb', BitVec.getLsbD_extractLsb', Nat.zero_add, getLsbD_setBit_ne _ _ _ _ (by omega)]

/-- The bits of a word whose `LEN` was written. -/
theorem getLsbD_setLen (w : Word) (n : BitVec 10) (k : Nat) :
    (setLen w n).getLsbD k = if k < 10 then n.getLsbD k else w.getLsbD k := by
  refine (getLsbD_word 22 10 rfl (w.extractLsb' 10 22) n k).trans ?_
  split
  · rfl
  · rw [BitVec.getLsbD_extractLsb', show 10 + (k - 10) = k by omega]
    by_cases hk : k < 32
    · simp [show k - 10 < 22 by omega]
    · rw [BitVec.getLsbD_of_ge w k (by omega)]; simp

theorem bcLen_setLen (w : Word) (n : BitVec 10) : bcLen (setLen w n) = n := by
  unfold bcLen
  apply BitVec.eq_of_getLsbD_eq
  intro i hi
  rw [BitVec.getLsbD_extractLsb', Nat.zero_add, getLsbD_setLen]
  simp [hi]

/-- The bits of the word of a whole-register write, by position (R108). -/
theorem getLsbD_mkBufCtrl (f p s a : Bool) (n : BitVec 10) (k : Nat) : (mkBufCtrl f p s a n).getLsbD k =
    if k < 10 then n.getLsbD k else if k = 10 then a else if k = 11 then s else if k = 12 then false
    else if k = 13 then p else if k = 14 then false else if k = 15 then f else false := by
  have e : mkBufCtrl f p s a n = BitVec.cast rfl
      (((((((0#16 ++ BitVec.ofBool f) ++ 0#1) ++ BitVec.ofBool p) ++ 0#1) ++ BitVec.ofBool s) ++ BitVec.ofBool a) ++ n) := rfl
  rw [e, getLsbD_word]
  simp only [BitVec.getLsbD_append, BitVec.getLsbD_ofBool]
  by_cases h0 : k < 10
  · simp [h0]
  by_cases h1 : k = 10
  · subst h1; simp
  by_cases h2 : k = 11
  · subst h2; simp
  by_cases h3 : k = 12
  · subst h3; simp
  by_cases h4 : k = 13
  · subst h4; simp
  by_cases h5 : k = 14
  · subst h5; simp
  by_cases h6 : k = 15
  · subst h6; simp
  simp [h0, h1, h2, h3, h4, h5, h6, show k - 10 ≠ 0 by omega, show k - 10 - 1 ≠ 0 by omega,
    show k - 10 - 1 - 1 ≠ 0 by omega, show k - 10 - 1 - 1 - 1 ≠ 0 by omega, show k - 10 - 1 - 1 - 1 - 1 ≠ 0 by omega,
    show k - 10 - 1 - 1 - 1 - 1 - 1 ≠ 0 by omega]

theorem bcLen_mk (f p s a : Bool) (n : BitVec 10) : bcLen (mkBufCtrl f p s a n) = n := by
  unfold bcLen
  apply BitVec.eq_of_getLsbD_eq
  intro i hi
  rw [BitVec.getLsbD_extractLsb', Nat.zero_add, getLsbD_mkBufCtrl]
  simp [hi]

theorem bcFull_mk (f p s a : Bool) (n : BitVec 10) : (mkBufCtrl f p s a n).getLsbD bcFull = f := by
  rw [getLsbD_mkBufCtrl]; rfl

theorem bcPid_mk (f p s a : Bool) (n : BitVec 10) : (mkBufCtrl f p s a n).getLsbD bcPid = p := by
  rw [getLsbD_mkBufCtrl]; rfl

theorem bcStall_mk (f p s a : Bool) (n : BitVec 10) : (mkBufCtrl f p s a n).getLsbD bcStall = s := by
  rw [getLsbD_mkBufCtrl]; rfl

theorem bcAvail_mk (f p s a : Bool) (n : BitVec 10) : (mkBufCtrl f p s a n).getLsbD bcAvail = a := by
  rw [getLsbD_mkBufCtrl]; rfl

/-! EPCTRL fields. -/

/-- The bits of the word of a whole-register write, by position (R109). -/
theorem getLsbD_mkEpCtrl (e : Bool) (t : BitVec 2) (a : BitVec 16) (k : Nat) : (mkEpCtrl e t a).getLsbD k =
    if k < 16 then a.getLsbD k else if k < 26 then false else if k < 28 then t.getLsbD (k - 26)
    else if k = 31 then e else false := by
  have e' : mkEpCtrl e t a = BitVec.cast rfl ((((BitVec.ofBool e ++ 0#3) ++ t) ++ 0#10) ++ a) := rfl
  rw [e', getLsbD_word]
  simp only [BitVec.getLsbD_append, BitVec.getLsbD_ofBool]
  by_cases h0 : k < 16
  · simp [h0]
  by_cases h1 : k < 26
  · simp [h0, h1, show k - 16 < 10 by omega]
  by_cases h2 : k < 28
  · simp [h0, h1, h2, show ¬ k - 16 < 10 by omega, show k - 16 - 10 = k - 26 by omega, show k - 26 < 2 by omega]
  by_cases h3 : k = 31
  · subst h3; simp
  by_cases h4 : k < 31
  · simp [h0, h1, h2, h3, show ¬ k - 16 < 10 by omega, show ¬ k - 16 - 10 < 2 by omega, show k - 16 - 10 - 2 < 3 by omega]
  · simp [h0, h1, h2, h3, show ¬ k - 16 < 10 by omega, show ¬ k - 16 - 10 < 2 by omega, show ¬ k - 16 - 10 - 2 < 3 by omega,
      show k - 16 - 10 - 2 - 3 ≠ 0 by omega]

theorem ecEn_mk (e : Bool) (t : BitVec 2) (a : BitVec 16) : ecEn (mkEpCtrl e t a) = e := by
  unfold ecEn; rw [getLsbD_mkEpCtrl]; rfl

theorem ecAddr_mk (e : Bool) (t : BitVec 2) (a : BitVec 16) : ecAddr (mkEpCtrl e t a) = a := by
  unfold ecAddr
  apply BitVec.eq_of_getLsbD_eq
  intro i hi
  rw [BitVec.getLsbD_extractLsb', Nat.zero_add, getLsbD_mkEpCtrl]
  simp [hi]

theorem ecType_mk (e : Bool) (t : BitVec 2) (a : BitVec 16) : ecType (mkEpCtrl e t a) = t := by
  unfold ecType
  apply BitVec.eq_of_getLsbD_eq
  intro i hi
  rw [BitVec.getLsbD_extractLsb', getLsbD_mkEpCtrl]
  simp [hi, show ¬ 26 + i < 16 by omega, show 26 + i < 28 by omega]

/-! INTS. -/

theorem intStatus_busReset (s : State) :
    (intStatus s).getLsbD intsBusReset = (s.busResetLatch && s.intEn.getLsbD intsBusReset) := by
  unfold intStatus
  rw [getLsbD_setBit_ne _ _ _ _ (by decide), getLsbD_setBit_ne _ _ _ _ (by decide), getLsbD_setBit_self _ _ _ (by decide)]

theorem intStatus_setupReq (s : State) :
    (intStatus s).getLsbD intsSetupReq = (s.setupReqLatch && s.intEn.getLsbD intsSetupReq) := by
  unfold intStatus
  rw [getLsbD_setBit_ne _ _ _ _ (by decide), getLsbD_setBit_self _ _ _ (by decide)]

theorem intStatus_buffStatus (s : State) :
    (intStatus s).getLsbD intsBuffStatus = (s.bufStatus != 0 && s.intEn.getLsbD intsBuffStatus) := by
  unfold intStatus
  rw [getLsbD_setBit_self _ _ _ (by decide)]

/-- `irq_line` is the OR of the three bits of `INT_STATUS` and of `IRQ_INSTALLED` (R40). -/
theorem irqLine_eq (s : State) : irqLine s = (s.irqInstalled && ((intStatus s).getLsbD intsBusReset
    || (intStatus s).getLsbD intsSetupReq || (intStatus s).getLsbD intsBuffStatus)) := by
  rw [intStatus_busReset, intStatus_setupReq, intStatus_buffStatus]; rfl

/-! Byte order. -/

@[simp] theorem halfOfBytes_lo_hi (h : Half) : halfOfBytes (Half.lo h) (Half.hi h) = h := by
  unfold halfOfBytes Half.lo Half.hi
  apply BitVec.eq_of_getLsbD_eq
  intro i hi
  refine (getLsbD_word 8 8 rfl (h.extractLsb' 8 8) (h.extractLsb' 0 8) i).trans ?_
  split
  · next h1 => simp [h1]
  · next h1 => simp [show i - 8 < 8 by omega, show 8 + (i - 8) = i by omega]

/-- A packet read back from its bytes. -/
theorem packetOfBytes_packetBytes (p : SetupPacket) :
    packetOfBytes p.bmRequestType p.bRequest (Half.lo p.wValue) (Half.hi p.wValue) (Half.lo p.wIndex) (Half.hi p.wIndex)
      (Half.lo p.wLength) (Half.hi p.wLength) = p := by
  simp [packetOfBytes]

@[simp] theorem packetBytes_length (p : SetupPacket) : (packetBytes p).length = 8 := rfl

/-! Index arithmetic. -/

theorem idxOf_val (n : BitVec 4) (d : Bool) : (idxOf n d).val = 2 * n.toNat + (if d then 0 else 1) := rfl

theorem idxOf_even (n : BitVec 4) : (idxOf n true).val % 2 = 0 := by simp [idxOf_val]

theorem idxOf_odd (n : BitVec 4) : (idxOf n false).val % 2 = 1 := by rw [idxOf_val]; simp only [Bool.false_eq_true, if_false]; omega

/-- Index and address map each to the other (R103). -/
theorem idx_addrOf (i : EpIdx) : idx (addrOf i) = i := by revert i; decide

theorem addrOf_valid (i : EpIdx) : epValid (addrOf i) = true := by revert i; decide

/-- The control-IN address (R188). -/
theorem idx_ep0In : idx 0x80#8 = 0 := by decide

theorem bufAddr_lt (i : EpIdx) : bufAddr i + 64 ≤ bufEnd i := by revert i; decide

theorem bufAddr_ge (i : EpIdx) : 0x100 ≤ bufAddr i := by revert i; decide

theorem bufEnd_le (i : EpIdx) : bufEnd i ≤ Config.dataEnd := by revert i; decide

theorem bufCtrlAddr_range (i : EpIdx) : 0x080 ≤ bufCtrlAddr i ∧ bufCtrlAddr i + 4 ≤ 0x100 := by revert i; decide

theorem epCtrlAddr_range (i : EpIdx) : 0x008 ≤ epCtrlAddr i ∧ epCtrlAddr i + 4 ≤ 0x080 := by revert i; decide

theorem bufCtrlAddr_ne {i j : EpIdx} (h : i ≠ j) : bufCtrlAddr i + 4 ≤ bufCtrlAddr j ∨ bufCtrlAddr j + 4 ≤ bufCtrlAddr i := by
  have : i.val ≠ j.val := fun e => h (Fin.ext e)
  unfold bufCtrlAddr; omega

theorem epCtrlAddr_ne {i j : EpIdx} (h : i ≠ j) (hi : 2 ≤ i.val) (hj : 2 ≤ j.val) :
    epCtrlAddr i + 4 ≤ epCtrlAddr j ∨ epCtrlAddr j + 4 ≤ epCtrlAddr i := by
  have : i.val ≠ j.val := fun e => h (Fin.ext e)
  unfold epCtrlAddr; omega

theorem bufMapped_of_le (i : EpIdx) (n : Nat) (h : n ≤ 64) : bufMapped i n = true := by
  have := bufAddr_lt i
  simp [bufMapped]; omega

end Sys2Proof.Machine
end

