-- ==== Sys2Proof/Laws/Exec.lean ====
section
/-! SUPPORT. Each arm of `exec`, as an equation: the form later proofs rewrite with. -/

namespace Sys2Proof.Machine

variable (s : State)

theorem exec_lockAcquire (id : Byte) : exec (.lockAcquire id) s =
    acquireOrWait (.lockAcquire id) id.toNat false s fun s1 => .next (reply .done s1) := rfl
theorem exec_lockRelease (id : Byte) : exec (.lockRelease id) s =
    execLockRelease id s := rfl
theorem exec_shGet (id : Byte) : exec (.shGet id) s =
    holderOp (.shGet id) id s fun x => (x, .value x) := rfl
theorem exec_shIs (id : Byte) (v : Elem) : exec (.shIs id v) s =
    holderOp (.shIs id v) id s fun x => (x, .bool (x == v)) := rfl
theorem exec_shTransition (id : Byte) (expected : Elem) (next : Elem) : exec (.shTransition id expected next) s =
    holderOp (.shTransition id expected next) id s fun x => if x = expected then (next, .bool true) else (x, .bool false) := rfl
theorem exec_shForce (id : Byte) (next : Elem) : exec (.shForce id next) s =
    holderOp (.shForce id next) id s fun _ => (next, .done) := rfl
theorem exec_fifoEnqueue (id : Byte) (items : List Elem) : exec (.fifoEnqueue id items) s =
    fifoOp (.fifoEnqueue id items) id s fun q => (fifoPush q (items.take (min items.length (fifoFree q))), .count (min items.length (fifoFree q))) := rfl
theorem exec_fifoDequeue (id : Byte) (max : Half) : exec (.fifoDequeue id max) s =
    fifoOp (.fifoDequeue id max) id s fun q => (fifoDrop q (min max.toNat (fifoCount q)), .items (fifoOldest q (min max.toNat (fifoCount q)))) := rfl
theorem exec_fifoErase (id : Byte) (n : Half) : exec (.fifoErase id n) s =
    fifoOp (.fifoErase id n) id s fun q => (fifoDrop q (min n.toNat (fifoCount q)), .count (min n.toNat (fifoCount q))) := rfl
theorem exec_fifoPull (id : Byte) (other : Byte) : exec (.fifoPull id other) s =
    execFifoPull id other s := rfl
theorem exec_fifoClear (id : Byte) : exec (.fifoClear id) s =
    fifoOp (.fifoClear id) id s fun q => ({ q with r := q.w }, .done) := rfl
theorem exec_fifoFind (id : Byte) (marker : Elem) : exec (.fifoFind id marker) s =
    fifoOp (.fifoFind id marker) id s fun q => (q, .distance (distanceOf marker 1 (fifoContents q))) := rfl
theorem exec_fifoOccupied (id : Byte) : exec (.fifoOccupied id) s =
    fifoOp (.fifoOccupied id) id s fun q => (q, .count (fifoCount q)) := rfl
theorem exec_fifoFree (id : Byte) : exec (.fifoFree id) s =
    fifoOp (.fifoFree id) id s fun q => (q, .count (fifoFree q)) := rfl
theorem exec_fifoCapacity (id : Byte) : exec (.fifoCapacity id) s =
    fifoOp (.fifoCapacity id) id s fun q => (q, .count (fifoSize q - 1)) := rfl
theorem exec_devInit : exec .devInit s =
    execDevInit s := rfl
theorem exec_devSetResolver (fn : Option Byte) : exec (.devSetResolver fn) s =
    execDevSetResolver fn s := rfl
theorem exec_devConfigureEp (epAddr : Byte) (attributes : Byte) (maxPacket : Half) (cb : Option Byte) : exec (.devConfigureEp epAddr attributes maxPacket cb) s =
    execDevConfigureEp epAddr attributes maxPacket cb s := rfl
theorem exec_devControlSend (data : List Byte) : exec (.devControlSend data) s =
    sendOn 0x80 data s := rfl
theorem exec_devSend (ep : Byte) (data : List Byte) : exec (.devSend ep data) s =
    sendOn ep data s := rfl
theorem exec_devReceive (ep : Byte) (maxLen : Half) : exec (.devReceive ep maxLen) s =
    execDevReceive ep maxLen s := rfl
theorem exec_devIsSendPending (ep : Byte) : exec (.devIsSendPending ep) s =
    execDevIsSendPending ep s := rfl
theorem exec_devStallControl : exec .devStallControl s =
    execDevStallControl s := rfl
theorem exec_busReset : exec .busReset s =
    execBusReset s := rfl
theorem exec_busSetup (a : BitVec 7) (packet : SetupPacket) : exec (.busSetup a packet) s =
    execBusSetup a packet s := rfl
theorem exec_busIn (a : BitVec 7) (n : BitVec 4) : exec (.busIn a n) s =
    execBusIn a n s := rfl
theorem exec_busOut (a : BitVec 7) (n : BitVec 4) (pid : Bool) (data : List Byte) : exec (.busOut a n pid data) s =
    execBusOut a n pid data s := rfl
theorem exec_irqEntry : exec .irqEntry s =
    execIrqEntry s := rfl
theorem exec_irqBusReset : exec .irqBusReset s =
    execIrqBusReset s := rfl
theorem exec_irqSetup : exec .irqSetup s =
    execIrqSetup s := rfl
theorem exec_irqBuff : exec .irqBuff s =
    execIrqBuff s := rfl
theorem exec_irqExit : exec .irqExit s =
    .next (leaveInterrupt s) := rfl
theorem exec_completeEp0In : exec .completeEp0In s =
    execCompleteEp0In s := rfl
theorem exec_completeOut (k : EpIdx) : exec (.completeOut k) s =
    serveCallback k s := rfl
theorem exec_completeIn (k : EpIdx) : exec (.completeIn k) s =
    serveCallback k s := rfl
theorem exec_setupSetAddress (wValue : Half) (wIndex : Half) (wLength : Half) : exec (.setupSetAddress wValue wIndex wLength) s =
    .next (goto .h3Go (armIn 0 [] s)) := rfl
theorem exec_setupSetConfiguration (wValue : Half) (wIndex : Half) (wLength : Half) : exec (.setupSetConfiguration wValue wIndex wLength) s =
    dispatchResolver ⟨0x00, 0x09, wValue, wIndex, wLength⟩ true s := rfl
theorem exec_setupOther (packet : SetupPacket) : exec (.setupOther packet) s =
    dispatchResolver packet false s := rfl

end Sys2Proof.Machine
end

