-- ==== Sys2Proof/Laws/Fifo.lean ====
section
/-! SUPPORT. The FIFO's cursor arithmetic (R45, R170): what pushing and dropping do to the contents. -/

namespace Sys2Proof.Machine

theorem fifoCount_eq (f : Fifo) (h : FifoOk f) :
    fifoCount f = if f.r ≤ f.w then f.w - f.r else f.slots.length + f.w - f.r := by
  obtain ⟨hw, hr⟩ := h
  unfold fifoCount fifoSize
  split
  · rw [show f.slots.length + f.w - f.r = (f.w - f.r) + f.slots.length by omega, Nat.add_mod_right, Nat.mod_eq_of_lt (by omega)]
  · exact Nat.mod_eq_of_lt (by omega)

/-- `0 <= count <= N - 1` (R45). -/
theorem fifoCount_lt (f : Fifo) (h : FifoOk f) : fifoCount f < f.slots.length := by
  have := fifoCount_eq f h
  obtain ⟨hw, hr⟩ := h
  split at this <;> omega

/-- `FREE + OCCUPIED = CAPACITY` (R168). -/
theorem fifoFree_add_count (f : Fifo) (h : FifoOk f) : fifoFree f + fifoCount f = fifoSize f - 1 := by
  have := fifoCount_lt f h
  unfold fifoFree fifoSize; omega

/-- The slot after the newest element is the write cursor's. -/
theorem fifo_end (f : Fifo) (h : FifoOk f) : (f.r + fifoCount f) % f.slots.length = f.w := by
  have hc := fifoCount_eq f h
  obtain ⟨hw, hr⟩ := h
  split at hc
  · rw [hc, show f.r + (f.w - f.r) = f.w by omega, Nat.mod_eq_of_lt hw]
  · rw [hc, show f.r + (f.slots.length + f.w - f.r) = f.w + f.slots.length by omega, Nat.add_mod_right, Nat.mod_eq_of_lt hw]

/-- An occupied slot is not the write cursor's. -/
theorem fifo_slot_ne (f : Fifo) (h : FifoOk f) {j : Nat} (hj : j < fifoCount f) : (f.r + j) % f.slots.length ≠ f.w := by
  have hc := fifoCount_eq f h
  have hlt := fifoCount_lt f h
  obtain ⟨hw, hr⟩ := h
  by_cases hs : f.r + j < f.slots.length
  · rw [Nat.mod_eq_of_lt hs]; split at hc <;> omega
  · rw [Nat.mod_eq_sub_mod (by omega), Nat.mod_eq_of_lt (by omega)]; split at hc <;> omega

@[simp] theorem fifoOldest_length (f : Fifo) (k : Nat) : (fifoOldest f k).length = k := by simp [fifoOldest]

@[simp] theorem fifoContents_length (f : Fifo) : (fifoContents f).length = fifoCount f := by simp [fifoContents]

/-- The `k` oldest elements are the first `k` of the contents. -/
theorem fifoOldest_eq_take (f : Fifo) {k : Nat} (hk : k ≤ fifoCount f) : fifoOldest f k = (fifoContents f).take k := by
  unfold fifoContents fifoOldest
  rw [← List.map_take, List.take_range, Nat.min_eq_left hk]

@[simp] theorem fifoPush_lock (xs : List Elem) : ∀ f : Fifo, (fifoPush f xs).lock = f.lock := by
  induction xs with
  | nil => intro f; rfl
  | cons x xs ih => intro f; rw [fifoPush, ih]

@[simp] theorem fifoPush_elemSize (xs : List Elem) : ∀ f : Fifo, (fifoPush f xs).size = f.size := by
  induction xs with
  | nil => intro f; rfl
  | cons x xs ih => intro f; rw [fifoPush, ih]

@[simp] theorem fifoPush_r (xs : List Elem) : ∀ f : Fifo, (fifoPush f xs).r = f.r := by
  induction xs with
  | nil => intro f; rfl
  | cons x xs ih => intro f; rw [fifoPush, ih]

@[simp] theorem fifoPush_size (xs : List Elem) : ∀ f : Fifo, (fifoPush f xs).slots.length = f.slots.length := by
  induction xs with
  | nil => intro f; rfl
  | cons x xs ih => intro f; rw [fifoPush, ih]; simp

theorem fifoPush_ok (xs : List Elem) : ∀ f : Fifo, FifoOk f → FifoOk (fifoPush f xs) := by
  induction xs with
  | nil => intro f h; exact h
  | cons x xs ih =>
    intro f h
    refine ih _ ⟨?_, ?_⟩
    · simpa [fifoSize] using Nat.mod_lt _ (by have := h.1; omega)
    · simpa using h.2

/-- One element appended where there is room: it is the newest. -/
theorem fifoPush_one (f : Fifo) (x : Elem) (h : FifoOk f) (hf : 0 < fifoFree f) :
    fifoContents (fifoPush f [x]) = fifoContents f ++ [x] ∧ fifoFree (fifoPush f [x]) + 1 = fifoFree f := by
  have hc := fifoCount_eq f h
  have hok := fifoPush_ok [x] f h
  have hend := fifo_end f h
  have hlt : fifoCount f + 1 < f.slots.length := by unfold fifoFree fifoSize at hf; omega
  have hc' : fifoCount (fifoPush f [x]) = fifoCount f + 1 := by
    have hw' : (fifoPush f [x]).w = (f.w + 1) % f.slots.length := rfl
    have hc1 := fifoCount_eq _ hok
    rw [fifoPush_r, fifoPush_size] at hc1
    generalize fifoCount (fifoPush f [x]) = c at hc1 ⊢
    generalize (fifoPush f [x]).w = w' at hc1 hw'
    obtain ⟨hw, hr⟩ := h
    by_cases hwrap : f.w + 1 = f.slots.length
    · rw [hwrap, Nat.mod_self] at hw'; split at hc <;> split at hc1 <;> omega
    · rw [Nat.mod_eq_of_lt (show f.w + 1 < f.slots.length by omega)] at hw'; split at hc <;> split at hc1 <;> omega
  refine ⟨?_, ?_⟩
  · unfold fifoContents fifoOldest
    rw [hc', List.range_succ, List.map_append]
    congr 1
    · apply List.map_congr_left
      intro j hj
      have hne := fifo_slot_ne f h (List.mem_range.1 hj)
      unfold fifoAt
      simp only [fifoPush, fifoSize, List.length_set]
      rw [List.getD_eq_getElem?_getD, List.getElem?_set_ne hne.symm, ← List.getD_eq_getElem?_getD]
    · unfold fifoAt
      simp only [fifoPush, fifoSize, List.length_set, List.map_cons, List.map_nil]
      rw [hend]
      simp [h.1]
  · unfold fifoFree
    rw [hc']
    unfold fifoFree at hf
    have hs : fifoSize (fifoPush f [x]) = fifoSize f := fifoPush_size [x] f
    rw [hs]; omega

/-- Elements appended where there is room are the newest, in order (R161, R170 c). -/
theorem fifoContents_push (xs : List Elem) : ∀ f : Fifo, FifoOk f → xs.length ≤ fifoFree f →
    fifoContents (fifoPush f xs) = fifoContents f ++ xs := by
  induction xs with
  | nil => intro f _ _; simp [fifoPush]
  | cons x xs ih =>
    intro f h hl
    simp only [List.length_cons] at hl
    obtain ⟨h1, h2⟩ := fifoPush_one f x h (by omega)
    have e : fifoPush f (x :: xs) = fifoPush (fifoPush f [x]) xs := rfl
    rw [e, ih _ (fifoPush_ok _ _ h) (by omega), h1, List.append_assoc]; rfl

/-- The write cursor after a push (R161). -/
theorem fifoPush_w (xs : List Elem) : ∀ f : Fifo, FifoOk f → (fifoPush f xs).w = (f.w + xs.length) % f.slots.length := by
  induction xs with
  | nil => intro f h; simpa [fifoPush] using (Nat.mod_eq_of_lt h.1).symm
  | cons x xs ih =>
    intro f h
    have h1 := fifoPush_ok [x] f h
    rw [show fifoPush f (x :: xs) = fifoPush (fifoPush f [x]) xs from rfl, ih _ h1, fifoPush_size,
      show (fifoPush f [x]).w = (f.w + 1) % f.slots.length from rfl, Nat.mod_add_mod, List.length_cons,
      Nat.add_assoc, Nat.add_comm 1]

/-- A slot that no element goes to is as before. -/
theorem fifoPush_slot_ne (xs : List Elem) : ∀ f : Fifo, FifoOk f → ∀ p, (∀ j, j < xs.length → p ≠ (f.w + j) % f.slots.length) →
    (fifoPush f xs).slots[p]? = f.slots[p]? := by
  induction xs with
  | nil => intro f _ p _; rfl
  | cons x xs ih =>
    intro f h p hp
    have h1 := fifoPush_ok [x] f h
    have e : (fifoPush f [x]).slots = f.slots.set f.w x := rfl
    rw [show fifoPush f (x :: xs) = fifoPush (fifoPush f [x]) xs from rfl, ih _ h1 p, e, List.getElem?_set_ne]
    · have := hp 0 (by simp)
      rw [Nat.add_zero, Nat.mod_eq_of_lt h.1] at this
      exact fun hh => this hh.symm
    · intro j hj
      rw [fifoPush_size, show (fifoPush f [x]).w = (f.w + 1) % f.slots.length from rfl, Nat.mod_add_mod]
      have := hp (j + 1) (by simp; omega)
      rwa [Nat.add_assoc, Nat.add_comm 1]

/-- Element `j` goes to `slot[(w + j) mod N]` (R161). -/
theorem fifoPush_slot (xs : List Elem) : ∀ f : Fifo, FifoOk f → xs.length ≤ f.slots.length → ∀ j, j < xs.length →
    (fifoPush f xs).slots[(f.w + j) % f.slots.length]? = xs[j]? := by
  induction xs with
  | nil => intro f _ _ j hj; simp at hj
  | cons x xs ih =>
    intro f h hl j hj
    have h1 := fifoPush_ok [x] f h
    have hw : (fifoPush f [x]).w = (f.w + 1) % f.slots.length := rfl
    have e : fifoPush f (x :: xs) = fifoPush (fifoPush f [x]) xs := rfl
    simp only [List.length_cons] at hl hj
    cases j with
    | zero =>
      rw [e, Nat.add_zero, Nat.mod_eq_of_lt h.1, fifoPush_slot_ne _ _ h1]
      · have : (fifoPush f [x]).slots = f.slots.set f.w x := rfl
        rw [this]; simp [h.1]
      · intro k hk
        rw [fifoPush_size, hw, Nat.mod_add_mod]
        have hw' := h.1
        by_cases hs : f.w + 1 + k < f.slots.length
        · rw [Nat.mod_eq_of_lt hs]; omega
        · rw [Nat.mod_eq_sub_mod (by omega), Nat.mod_eq_of_lt (by omega)]; omega
    | succ j =>
      have := ih _ h1 (by rw [fifoPush_size]; omega) j (by omega)
      rw [fifoPush_size, hw, Nat.mod_add_mod, Nat.add_assoc, Nat.add_comm 1] at this
      rw [e, this]; rfl

@[simp] theorem fifoDrop_slots (f : Fifo) (k : Nat) : (fifoDrop f k).slots = f.slots := rfl

theorem fifoDrop_ok (f : Fifo) (k : Nat) (h : FifoOk f) : FifoOk (fifoDrop f k) :=
  ⟨h.1, Nat.mod_lt _ (by unfold fifoSize; have := h.1; omega)⟩

theorem fifoCount_drop (f : Fifo) {k : Nat} (h : FifoOk f) (hk : k ≤ fifoCount f) :
    fifoCount (fifoDrop f k) = fifoCount f - k := by
  have hc := fifoCount_eq f h
  have hc1 := fifoCount_eq _ (fifoDrop_ok f k h)
  have hr' : (fifoDrop f k).r = (f.r + k) % f.slots.length := rfl
  have hw' : (fifoDrop f k).w = f.w := rfl
  rw [fifoDrop_slots, hw'] at hc1
  generalize fifoCount (fifoDrop f k) = c at hc1 ⊢
  generalize (fifoDrop f k).r = r' at hc1 hr'
  obtain ⟨hw, hr⟩ := h
  by_cases hs : f.r + k < f.slots.length
  · rw [Nat.mod_eq_of_lt hs] at hr'; split at hc <;> split at hc1 <;> omega
  · rw [Nat.mod_eq_sub_mod (by omega), Nat.mod_eq_of_lt (by split at hc <;> omega)] at hr'
    split at hc <;> split at hc1 <;> omega

/-- Dropping the `k` oldest elements leaves the rest, in order (R162, R163, R170 c). -/
theorem fifoContents_drop (f : Fifo) {k : Nat} (h : FifoOk f) (hk : k ≤ fifoCount f) :
    fifoContents (fifoDrop f k) = (fifoContents f).drop k := by
  have hc := fifoCount_drop f h hk
  apply List.ext_getElem?
  intro j
  by_cases hj : j < fifoCount f - k
  · unfold fifoContents fifoOldest
    rw [hc, List.getElem?_drop]
    simp only [List.getElem?_map, List.getElem?_range hj, List.getElem?_range (show k + j < fifoCount f by omega),
      Option.map_some]
    unfold fifoAt
    simp only [fifoDrop, fifoSize]
    rw [Nat.mod_add_mod, Nat.add_assoc]
  · rw [List.getElem?_eq_none (by simp; omega), List.getElem?_eq_none (by simp; omega)]

/-- FIFO.CLEAR empties (R165). -/
theorem fifoContents_clear (f : Fifo) (h : FifoOk f) : fifoContents { f with r := f.w } = [] := by
  have hok : FifoOk { f with r := f.w } := ⟨h.1, h.1⟩
  have : fifoCount { f with r := f.w } = 0 := by rw [fifoCount_eq _ hok]; simp
  exact List.eq_nil_of_length_eq_zero (by rw [fifoContents_length, this])

/-- FIFO.FIND's scan: the 1-based position of the first occurrence (R166). -/
theorem distanceOf_eq (marker : Elem) (xs : List Elem) : ∀ d, distanceOf marker d xs = (xs.findIdx? (· == marker)).map (· + d) := by
  induction xs with
  | nil => intro d; rfl
  | cons x xs ih =>
    intro d
    rw [distanceOf, List.findIdx?_cons, ih]
    by_cases h : x = marker
    · simp [h]
    · simp only [h, if_false, beq_iff_eq, Option.map_map]
      congr 1; funext n; simp; omega

end Sys2Proof.Machine
end

