-- ==== Sys2Proof/Laws/Mem.lean ====
section
/-! SUPPORT. DPRAM: a read after a write, and the canonical form every memory operation keeps. -/

namespace Sys2Proof.Machine

/-! Reading one byte. -/

theorem memRead_erase (m : List Host.Cell) (a b : Nat) :
    memRead (memErase m a) b = if b = a then 0 else memRead m b := by
  induction m with
  | nil => simp [memErase, memRead]
  | cons c m ih =>
    obtain ⟨k, v⟩ := c
    by_cases hk : k = a
    · subst hk; simp only [memErase, memRead, if_true, ih]
      by_cases hb : b = k <;> simp [hb, eq_comm]
    · simp only [memErase, hk, if_false, memRead, ih]
      by_cases hb : k = b
      · subst hb; simp [hk]
      · simp [hb]

theorem memErase_keys (m : List Host.Cell) (a : Nat) : ∀ c ∈ memErase m a, c.1 ≠ a := by
  induction m with
  | nil => simp [memErase]
  | cons c m ih =>
    obtain ⟨k, v⟩ := c
    by_cases hk : k = a
    · simpa [memErase, hk] using ih
    · simp only [memErase, hk, if_false, List.mem_cons, forall_eq_or_imp]
      exact ⟨hk, ih⟩

theorem memRead_insert (m : List Host.Cell) (a b : Nat) (v : Byte) (h : ∀ c ∈ m, c.1 ≠ a) :
    memRead (memInsert m a v) b = if b = a then v else memRead m b := by
  induction m with
  | nil => simp [memInsert, memRead, eq_comm]
  | cons c m ih =>
    obtain ⟨k, w⟩ := c
    have hk : k ≠ a := h (k, w) (by simp)
    have ih := ih fun c hc => h c (by simp [hc])
    by_cases hlt : a < k
    · simp only [memInsert, hlt, if_true, memRead]
      by_cases hb : b = a
      · simp [hb]
      · simp [hb, Ne.symm hb]
    · simp only [memInsert, hlt, if_false, memRead, ih]
      by_cases hb : k = b
      · subst hb; simp [hk]
      · simp [hb]

/-- A read after a write: the byte written at its address, every other byte as before. -/
theorem memRead_write (m : List Host.Cell) (a b : Nat) (v : Byte) :
    memRead (memWrite m a v) b = if b = a then v else memRead m b := by
  unfold memWrite
  split
  · next h => rw [memRead_erase, h]
  · rw [memRead_insert _ _ _ _ (memErase_keys m a), memRead_erase]
    split <;> rfl

/-- A read after a write of consecutive bytes. -/
theorem memRead_writeBytes (bs : List Byte) : ∀ (m : List Host.Cell) (a b : Nat),
    memRead (memWriteBytes m a bs) b = if a ≤ b ∧ b < a + bs.length then bs.getD (b - a) 0 else memRead m b := by
  induction bs with
  | nil => intro m a b; rw [if_neg (by simp only [List.length_nil]; omega)]; rfl
  | cons x xs ih =>
    intro m a b
    rw [memWriteBytes, ih, memRead_write]
    by_cases h1 : b = a
    · subst h1; simp
    · by_cases h2 : a ≤ b ∧ b < a + (x :: xs).length
      · have h3 : a + 1 ≤ b ∧ b < a + 1 + xs.length := by simp at h2; omega
        have h4 : b - a = (b - (a + 1)) + 1 := by omega
        simp only [h3, h2, and_self, if_true, h4, List.getD_cons_succ]
      · have h3 : ¬(a + 1 ≤ b ∧ b < a + 1 + xs.length) := by simp at h2; omega
        simp only [h3, h2, h1, if_false]

/-- A byte outside the bytes written reads as before. -/
theorem memRead_writeBytes_of_not_mem (m : List Host.Cell) (a b : Nat) (bs : List Byte)
    (h : b < a ∨ a + bs.length ≤ b) : memRead (memWriteBytes m a bs) b = memRead m b := by
  rw [memRead_writeBytes]; simp; intro h1 h2; omega

theorem wordBytes_length (w : Word) : (wordBytes w).length = 4 := rfl

/-- A byte outside the word written reads as before. -/
theorem memRead_writeWord_of_not_mem (m : List Host.Cell) (a b : Nat) (w : Word)
    (h : b < a ∨ a + 4 ≤ b) : memRead (memWriteWord m a w) b = memRead m b :=
  memRead_writeBytes_of_not_mem m a b _ h

theorem wordOfBytes_wordByte (w : Word) :
    wordOfBytes (wordByte w 0) (wordByte w 1) (wordByte w 2) (wordByte w 3) = w := by
  unfold wordOfBytes wordByte
  apply BitVec.eq_of_getLsbD_eq
  intro i hi
  simp only [BitVec.getLsbD_append, BitVec.getLsbD_extractLsb']
  by_cases h1 : i < 8
  · simp [h1]
  · by_cases h2 : i < 16
    · have e : 8 + (i - 8) = i := by omega
      simp [h1, show i - 8 < 8 by omega, e]
    · by_cases h3 : i < 24
      · have e : 16 + (i - 8 - 8) = i := by omega
        simp [h1, show ¬ i - 8 < 8 by omega, show i - 8 - 8 < 8 by omega, e]
      · have e : 24 + (i - 8 - 8 - 8) = i := by omega
        simp [h1, show ¬ i - 8 < 8 by omega, show ¬ i - 8 - 8 < 8 by omega, show i - 8 - 8 - 8 < 8 by omega, e]

/-- A word read back from where it was written. -/
@[simp] theorem memReadWord_writeWord (m : List Host.Cell) (a : Nat) (w : Word) :
    memReadWord (memWriteWord m a w) a = w := by
  have h : ∀ k, k < 4 → memRead (memWriteWord m a w) (a + k) = (wordBytes w).getD k 0 := by
    intro k hk
    rw [memWriteWord, memRead_writeBytes, wordBytes_length]
    simp [hk]
  have h0 := h 0 (by omega)
  have h1 := h 1 (by omega)
  have h2 := h 2 (by omega)
  have h3 := h 3 (by omega)
  simp only [Nat.add_zero] at h0
  unfold memReadWord
  rw [h0, h1, h2, h3]
  exact wordOfBytes_wordByte w

/-- Bytes written away from a word leave it. -/
theorem memReadWord_writeBytes_of_not_mem (m : List Host.Cell) (a b : Nat) (bs : List Byte)
    (h : b + 4 ≤ a ∨ a + bs.length ≤ b) : memReadWord (memWriteBytes m a bs) b = memReadWord m b := by
  unfold memReadWord
  rw [memRead_writeBytes_of_not_mem _ _ _ _ (by omega), memRead_writeBytes_of_not_mem _ _ _ _ (by omega),
    memRead_writeBytes_of_not_mem _ _ _ _ (by omega), memRead_writeBytes_of_not_mem _ _ _ _ (by omega)]

/-- A word written elsewhere leaves a word. -/
theorem memReadWord_writeWord_of_not_mem (m : List Host.Cell) (a b : Nat) (w : Word)
    (h : b + 4 ≤ a ∨ a + 4 ≤ b) : memReadWord (memWriteWord m a w) b = memReadWord m b :=
  memReadWord_writeBytes_of_not_mem m a b _ h

@[simp] theorem memReadBytes_length (m : List Host.Cell) (a n : Nat) : (memReadBytes m a n).length = n := by
  induction n generalizing a with
  | zero => rfl
  | succ n ih => simp [memReadBytes, ih]

/-- Element `j` of a sequence read is the byte at its address. -/
theorem memReadBytes_getElem? (m : List Host.Cell) (a n j : Nat) (h : j < n) :
    (memReadBytes m a n)[j]? = some (memRead m (a + j)) := by
  induction n generalizing a j with
  | zero => omega
  | succ n ih =>
    cases j with
    | zero => simp [memReadBytes]
    | succ j => simp [memReadBytes, ih (a + 1) j (by omega), Nat.add_assoc, Nat.add_comm 1 j]

/-- A sequence read back from where it was written. -/
theorem memReadBytes_writeBytes (m : List Host.Cell) (a : Nat) (bs : List Byte) :
    memReadBytes (memWriteBytes m a bs) a bs.length = bs := by
  apply List.ext_getElem?
  intro j
  by_cases h : j < bs.length
  · rw [memReadBytes_getElem? _ _ _ _ h, memRead_writeBytes]
    simp [h]
  · rw [List.getElem?_eq_none (by simpa using h), List.getElem?_eq_none (by simpa using h)]

/-- Every byte of an empty list reads 0. -/
@[simp] theorem memRead_nil (a : Nat) : memRead [] a = 0 := rfl

@[simp] theorem memReadWord_nil (a : Nat) : memReadWord [] a = 0 := by simp only [memReadWord, memRead_nil]; decide

/-! The canonical form. -/

theorem memWfFrom_mono {lo lo' : Nat} (h : lo' ≤ lo) : ∀ {m : List Host.Cell}, memWfFrom lo m = true → memWfFrom lo' m = true
  | [], _ => rfl
  | (k, v) :: m, hm => by
    simp only [memWfFrom, Bool.and_eq_true, decide_eq_true_eq] at hm ⊢
    exact ⟨⟨⟨by omega, hm.1.1.2⟩, hm.1.2⟩, hm.2⟩

theorem memWfFrom_erase (m : List Host.Cell) : ∀ (lo a : Nat), memWfFrom lo m = true → memWfFrom lo (memErase m a) = true := by
  induction m with
  | nil => intro lo a _; rfl
  | cons c m ih =>
    obtain ⟨k, v⟩ := c
    intro lo a h
    simp only [memWfFrom, Bool.and_eq_true, decide_eq_true_eq] at h
    unfold memErase
    split
    · exact memWfFrom_mono (by omega) (ih _ a h.2)
    · simp only [memWfFrom, Bool.and_eq_true, decide_eq_true_eq]
      exact ⟨h.1, ih _ a h.2⟩

theorem memWfFrom_insert (m : List Host.Cell) : ∀ (lo a : Nat) (v : Byte), memWfFrom lo m = true → lo ≤ a → a < Config.dpramSize →
    v ≠ 0 → (∀ c ∈ m, c.1 ≠ a) → memWfFrom lo (memInsert m a v) = true := by
  induction m with
  | nil => intro lo a v _ h1 h2 h3 _; simpa [memInsert, memWfFrom, h1, h2] using h3
  | cons c m ih =>
    obtain ⟨k, w⟩ := c
    intro lo a v h h1 h2 h3 h4
    simp only [memWfFrom, Bool.and_eq_true, decide_eq_true_eq] at h
    have hk : k ≠ a := h4 (k, w) (by simp)
    unfold memInsert
    split
    · next hlt =>
      simp only [memWfFrom, Bool.and_eq_true, decide_eq_true_eq]
      exact ⟨⟨⟨h1, h2⟩, by simpa using h3⟩, ⟨⟨by omega, h.1.1.2⟩, h.1.2⟩, h.2⟩
    · next hlt =>
      simp only [memWfFrom, Bool.and_eq_true, decide_eq_true_eq]
      exact ⟨h.1, ih _ a v h.2 (by omega) h2 h3 fun c hc => h4 c (by simp [hc])⟩

/-- A write inside DPRAM keeps the canonical form. -/
theorem memWf_write {m : List Host.Cell} (h : memWf m = true) (a : Nat) (v : Byte) (ha : a < Config.dpramSize) :
    memWf (memWrite m a v) = true := by
  unfold memWf memWrite at *
  split
  · exact memWfFrom_erase m 0 a h
  · next hv => exact memWfFrom_insert _ 0 a v (memWfFrom_erase m 0 a h) (by omega) ha hv (memErase_keys m a)

theorem memWf_writeBytes (bs : List Byte) : ∀ {m : List Host.Cell}, memWf m = true → ∀ a, a + bs.length ≤ Config.dpramSize →
    memWf (memWriteBytes m a bs) = true := by
  induction bs with
  | nil => intro m h a _; exact h
  | cons b bs ih =>
    intro m h a ha
    simp only [List.length_cons] at ha
    exact ih (memWf_write h a b (by omega)) (a + 1) (by omega)

theorem memWf_writeWord {m : List Host.Cell} (h : memWf m = true) (a : Nat) (w : Word) (ha : a + 4 ≤ Config.dpramSize) :
    memWf (memWriteWord m a w) = true := memWf_writeBytes _ h a ha

/-- After power-on DPRAM is in canonical form. -/
theorem memWf_reset : memWf State.reset.mem = true := rfl

/-- Below the first address of a canonical list every byte reads 0. -/
theorem memRead_below {m : List Host.Cell} : ∀ {lo a : Nat}, memWfFrom lo m = true → a < lo → memRead m a = 0 := by
  induction m with
  | nil => intro lo a _ _; rfl
  | cons c m ih =>
    obtain ⟨k, v⟩ := c
    intro lo a h ha
    simp only [memWfFrom, Bool.and_eq_true, decide_eq_true_eq] at h
    simp only [memRead, show k ≠ a by omega, if_false]
    exact ih h.2 (by omega)

end Sys2Proof.Machine
end

