-- ==== Sys2Proof/Laws/State.lean ====
section
/-! SUPPORT. One lemma per field per named update of the state, so that no proof unfolds a record update. -/

namespace Sys2Proof.Machine

variable (s : State)

/-! `emit` -/

@[simp] theorem emit_initialized (e : Event) : (emit e s).initialized = s.initialized := rfl
@[simp] theorem emit_configured (e : Event) : (emit e s).configured = s.configured := rfl
@[simp] theorem emit_setupValid (e : Event) : (emit e s).setupValid = s.setupValid := rfl
@[simp] theorem emit_lastSetup (e : Event) : (emit e s).lastSetup = s.lastSetup := rfl
@[simp] theorem emit_toggle (e : Event) : (emit e s).toggle = s.toggle := rfl
@[simp] theorem emit_callback (e : Event) : (emit e s).callback = s.callback := rfl
@[simp] theorem emit_resolver (e : Event) : (emit e s).resolver = s.resolver := rfl
@[simp] theorem emit_devAddr (e : Event) : (emit e s).devAddr = s.devAddr := rfl
@[simp] theorem emit_pullup (e : Event) : (emit e s).pullup = s.pullup := rfl
@[simp] theorem emit_intEn (e : Event) : (emit e s).intEn = s.intEn := rfl
@[simp] theorem emit_busResetLatch (e : Event) : (emit e s).busResetLatch = s.busResetLatch := rfl
@[simp] theorem emit_setupReqLatch (e : Event) : (emit e s).setupReqLatch = s.setupReqLatch := rfl
@[simp] theorem emit_bufStatus (e : Event) : (emit e s).bufStatus = s.bufStatus := rfl
@[simp] theorem emit_irqInstalled (e : Event) : (emit e s).irqInstalled = s.irqInstalled := rfl
@[simp] theorem emit_mem (e : Event) : (emit e s).mem = s.mem := rfl
@[simp] theorem emit_locks (e : Event) : (emit e s).locks = s.locks := rfl
@[simp] theorem emit_holders (e : Event) : (emit e s).holders = s.holders := rfl
@[simp] theorem emit_fifos (e : Event) : (emit e s).fifos = s.fifos := rfl
@[simp] theorem emit_ctx (e : Event) : (emit e s).ctx = s.ctx := rfl
@[simp] theorem emit_hpc (e : Event) : (emit e s).hpc = s.hpc := rfl
@[simp] theorem emit_locals (e : Event) : (emit e s).locals = s.locals := rfl
@[simp] theorem emit_fault (e : Event) : (emit e s).fault = s.fault := rfl
@[simp] theorem emit_irqMask (e : Event) : (emit e s).irqMask = s.irqMask := rfl
@[simp] theorem emit_arming (e : Event) : (emit e s).arming = s.arming := rfl
@[simp] theorem emit_waiting (e : Event) : (emit e s).waiting = s.waiting := rfl
@[simp] theorem emit_ext (e : Event) : (emit e s).ext = s.ext := rfl
@[simp] theorem emit_events (e : Event) : (emit e s).events = s.events ++ [e] := rfl
@[simp] theorem emit_mainPort (e : Event) : (emit e s).mainPort = s.mainPort := rfl
@[simp] theorem emit_busPort (e : Event) : (emit e s).busPort = s.busPort := rfl
@[simp] theorem emit_mainOut (e : Event) : (emit e s).mainOut = s.mainOut := rfl
@[simp] theorem emit_sched (e : Event) : (emit e s).sched = s.sched := rfl
@[simp] theorem emit_procs (e : Event) : (emit e s).procs = s.procs := rfl

/-! `goto` -/

@[simp] theorem goto_initialized (p : HandlerPos) : (goto p s).initialized = s.initialized := rfl
@[simp] theorem goto_configured (p : HandlerPos) : (goto p s).configured = s.configured := rfl
@[simp] theorem goto_setupValid (p : HandlerPos) : (goto p s).setupValid = s.setupValid := rfl
@[simp] theorem goto_lastSetup (p : HandlerPos) : (goto p s).lastSetup = s.lastSetup := rfl
@[simp] theorem goto_toggle (p : HandlerPos) : (goto p s).toggle = s.toggle := rfl
@[simp] theorem goto_callback (p : HandlerPos) : (goto p s).callback = s.callback := rfl
@[simp] theorem goto_resolver (p : HandlerPos) : (goto p s).resolver = s.resolver := rfl
@[simp] theorem goto_devAddr (p : HandlerPos) : (goto p s).devAddr = s.devAddr := rfl
@[simp] theorem goto_pullup (p : HandlerPos) : (goto p s).pullup = s.pullup := rfl
@[simp] theorem goto_intEn (p : HandlerPos) : (goto p s).intEn = s.intEn := rfl
@[simp] theorem goto_busResetLatch (p : HandlerPos) : (goto p s).busResetLatch = s.busResetLatch := rfl
@[simp] theorem goto_setupReqLatch (p : HandlerPos) : (goto p s).setupReqLatch = s.setupReqLatch := rfl
@[simp] theorem goto_bufStatus (p : HandlerPos) : (goto p s).bufStatus = s.bufStatus := rfl
@[simp] theorem goto_irqInstalled (p : HandlerPos) : (goto p s).irqInstalled = s.irqInstalled := rfl
@[simp] theorem goto_mem (p : HandlerPos) : (goto p s).mem = s.mem := rfl
@[simp] theorem goto_locks (p : HandlerPos) : (goto p s).locks = s.locks := rfl
@[simp] theorem goto_holders (p : HandlerPos) : (goto p s).holders = s.holders := rfl
@[simp] theorem goto_fifos (p : HandlerPos) : (goto p s).fifos = s.fifos := rfl
@[simp] theorem goto_ctx (p : HandlerPos) : (goto p s).ctx = s.ctx := rfl
@[simp] theorem goto_hpc (p : HandlerPos) : (goto p s).hpc = p := rfl
@[simp] theorem goto_locals (p : HandlerPos) : (goto p s).locals = s.locals := rfl
@[simp] theorem goto_fault (p : HandlerPos) : (goto p s).fault = s.fault := rfl
@[simp] theorem goto_irqMask (p : HandlerPos) : (goto p s).irqMask = s.irqMask := rfl
@[simp] theorem goto_arming (p : HandlerPos) : (goto p s).arming = s.arming := rfl
@[simp] theorem goto_waiting (p : HandlerPos) : (goto p s).waiting = s.waiting := rfl
@[simp] theorem goto_ext (p : HandlerPos) : (goto p s).ext = s.ext := rfl
@[simp] theorem goto_events (p : HandlerPos) : (goto p s).events = s.events := rfl
@[simp] theorem goto_mainPort (p : HandlerPos) : (goto p s).mainPort = s.mainPort := rfl
@[simp] theorem goto_busPort (p : HandlerPos) : (goto p s).busPort = s.busPort := rfl
@[simp] theorem goto_mainOut (p : HandlerPos) : (goto p s).mainOut = s.mainOut := rfl
@[simp] theorem goto_sched (p : HandlerPos) : (goto p s).sched = s.sched := rfl
@[simp] theorem goto_procs (p : HandlerPos) : (goto p s).procs = s.procs := rfl

/-! `setBufCtrl` -/

@[simp] theorem setBufCtrl_initialized (i : EpIdx) (w : Word) : (setBufCtrl i w s).initialized = s.initialized := rfl
@[simp] theorem setBufCtrl_configured (i : EpIdx) (w : Word) : (setBufCtrl i w s).configured = s.configured := rfl
@[simp] theorem setBufCtrl_setupValid (i : EpIdx) (w : Word) : (setBufCtrl i w s).setupValid = s.setupValid := rfl
@[simp] theorem setBufCtrl_lastSetup (i : EpIdx) (w : Word) : (setBufCtrl i w s).lastSetup = s.lastSetup := rfl
@[simp] theorem setBufCtrl_toggle (i : EpIdx) (w : Word) : (setBufCtrl i w s).toggle = s.toggle := rfl
@[simp] theorem setBufCtrl_callback (i : EpIdx) (w : Word) : (setBufCtrl i w s).callback = s.callback := rfl
@[simp] theorem setBufCtrl_resolver (i : EpIdx) (w : Word) : (setBufCtrl i w s).resolver = s.resolver := rfl
@[simp] theorem setBufCtrl_devAddr (i : EpIdx) (w : Word) : (setBufCtrl i w s).devAddr = s.devAddr := rfl
@[simp] theorem setBufCtrl_pullup (i : EpIdx) (w : Word) : (setBufCtrl i w s).pullup = s.pullup := rfl
@[simp] theorem setBufCtrl_intEn (i : EpIdx) (w : Word) : (setBufCtrl i w s).intEn = s.intEn := rfl
@[simp] theorem setBufCtrl_busResetLatch (i : EpIdx) (w : Word) : (setBufCtrl i w s).busResetLatch = s.busResetLatch := rfl
@[simp] theorem setBufCtrl_setupReqLatch (i : EpIdx) (w : Word) : (setBufCtrl i w s).setupReqLatch = s.setupReqLatch := rfl
@[simp] theorem setBufCtrl_bufStatus (i : EpIdx) (w : Word) : (setBufCtrl i w s).bufStatus = s.bufStatus := rfl
@[simp] theorem setBufCtrl_irqInstalled (i : EpIdx) (w : Word) : (setBufCtrl i w s).irqInstalled = s.irqInstalled := rfl
@[simp] theorem setBufCtrl_mem (i : EpIdx) (w : Word) : (setBufCtrl i w s).mem = memWriteWord s.mem (bufCtrlAddr i) w := rfl
@[simp] theorem setBufCtrl_locks (i : EpIdx) (w : Word) : (setBufCtrl i w s).locks = s.locks := rfl
@[simp] theorem setBufCtrl_holders (i : EpIdx) (w : Word) : (setBufCtrl i w s).holders = s.holders := rfl
@[simp] theorem setBufCtrl_fifos (i : EpIdx) (w : Word) : (setBufCtrl i w s).fifos = s.fifos := rfl
@[simp] theorem setBufCtrl_ctx (i : EpIdx) (w : Word) : (setBufCtrl i w s).ctx = s.ctx := rfl
@[simp] theorem setBufCtrl_hpc (i : EpIdx) (w : Word) : (setBufCtrl i w s).hpc = s.hpc := rfl
@[simp] theorem setBufCtrl_locals (i : EpIdx) (w : Word) : (setBufCtrl i w s).locals = s.locals := rfl
@[simp] theorem setBufCtrl_fault (i : EpIdx) (w : Word) : (setBufCtrl i w s).fault = s.fault := rfl
@[simp] theorem setBufCtrl_irqMask (i : EpIdx) (w : Word) : (setBufCtrl i w s).irqMask = s.irqMask := rfl
@[simp] theorem setBufCtrl_arming (i : EpIdx) (w : Word) : (setBufCtrl i w s).arming = s.arming := rfl
@[simp] theorem setBufCtrl_waiting (i : EpIdx) (w : Word) : (setBufCtrl i w s).waiting = s.waiting := rfl
@[simp] theorem setBufCtrl_ext (i : EpIdx) (w : Word) : (setBufCtrl i w s).ext = s.ext := rfl
@[simp] theorem setBufCtrl_events (i : EpIdx) (w : Word) : (setBufCtrl i w s).events = s.events := rfl
@[simp] theorem setBufCtrl_mainPort (i : EpIdx) (w : Word) : (setBufCtrl i w s).mainPort = s.mainPort := rfl
@[simp] theorem setBufCtrl_busPort (i : EpIdx) (w : Word) : (setBufCtrl i w s).busPort = s.busPort := rfl
@[simp] theorem setBufCtrl_mainOut (i : EpIdx) (w : Word) : (setBufCtrl i w s).mainOut = s.mainOut := rfl
@[simp] theorem setBufCtrl_sched (i : EpIdx) (w : Word) : (setBufCtrl i w s).sched = s.sched := rfl
@[simp] theorem setBufCtrl_procs (i : EpIdx) (w : Word) : (setBufCtrl i w s).procs = s.procs := rfl

/-! `setEpCtrl` -/

@[simp] theorem setEpCtrl_initialized (i : EpIdx) (w : Word) : (setEpCtrl i w s).initialized = s.initialized := rfl
@[simp] theorem setEpCtrl_configured (i : EpIdx) (w : Word) : (setEpCtrl i w s).configured = s.configured := rfl
@[simp] theorem setEpCtrl_setupValid (i : EpIdx) (w : Word) : (setEpCtrl i w s).setupValid = s.setupValid := rfl
@[simp] theorem setEpCtrl_lastSetup (i : EpIdx) (w : Word) : (setEpCtrl i w s).lastSetup = s.lastSetup := rfl
@[simp] theorem setEpCtrl_toggle (i : EpIdx) (w : Word) : (setEpCtrl i w s).toggle = s.toggle := rfl
@[simp] theorem setEpCtrl_callback (i : EpIdx) (w : Word) : (setEpCtrl i w s).callback = s.callback := rfl
@[simp] theorem setEpCtrl_resolver (i : EpIdx) (w : Word) : (setEpCtrl i w s).resolver = s.resolver := rfl
@[simp] theorem setEpCtrl_devAddr (i : EpIdx) (w : Word) : (setEpCtrl i w s).devAddr = s.devAddr := rfl
@[simp] theorem setEpCtrl_pullup (i : EpIdx) (w : Word) : (setEpCtrl i w s).pullup = s.pullup := rfl
@[simp] theorem setEpCtrl_intEn (i : EpIdx) (w : Word) : (setEpCtrl i w s).intEn = s.intEn := rfl
@[simp] theorem setEpCtrl_busResetLatch (i : EpIdx) (w : Word) : (setEpCtrl i w s).busResetLatch = s.busResetLatch := rfl
@[simp] theorem setEpCtrl_setupReqLatch (i : EpIdx) (w : Word) : (setEpCtrl i w s).setupReqLatch = s.setupReqLatch := rfl
@[simp] theorem setEpCtrl_bufStatus (i : EpIdx) (w : Word) : (setEpCtrl i w s).bufStatus = s.bufStatus := rfl
@[simp] theorem setEpCtrl_irqInstalled (i : EpIdx) (w : Word) : (setEpCtrl i w s).irqInstalled = s.irqInstalled := rfl
@[simp] theorem setEpCtrl_mem (i : EpIdx) (w : Word) : (setEpCtrl i w s).mem = memWriteWord s.mem (epCtrlAddr i) w := rfl
@[simp] theorem setEpCtrl_locks (i : EpIdx) (w : Word) : (setEpCtrl i w s).locks = s.locks := rfl
@[simp] theorem setEpCtrl_holders (i : EpIdx) (w : Word) : (setEpCtrl i w s).holders = s.holders := rfl
@[simp] theorem setEpCtrl_fifos (i : EpIdx) (w : Word) : (setEpCtrl i w s).fifos = s.fifos := rfl
@[simp] theorem setEpCtrl_ctx (i : EpIdx) (w : Word) : (setEpCtrl i w s).ctx = s.ctx := rfl
@[simp] theorem setEpCtrl_hpc (i : EpIdx) (w : Word) : (setEpCtrl i w s).hpc = s.hpc := rfl
@[simp] theorem setEpCtrl_locals (i : EpIdx) (w : Word) : (setEpCtrl i w s).locals = s.locals := rfl
@[simp] theorem setEpCtrl_fault (i : EpIdx) (w : Word) : (setEpCtrl i w s).fault = s.fault := rfl
@[simp] theorem setEpCtrl_irqMask (i : EpIdx) (w : Word) : (setEpCtrl i w s).irqMask = s.irqMask := rfl
@[simp] theorem setEpCtrl_arming (i : EpIdx) (w : Word) : (setEpCtrl i w s).arming = s.arming := rfl
@[simp] theorem setEpCtrl_waiting (i : EpIdx) (w : Word) : (setEpCtrl i w s).waiting = s.waiting := rfl
@[simp] theorem setEpCtrl_ext (i : EpIdx) (w : Word) : (setEpCtrl i w s).ext = s.ext := rfl
@[simp] theorem setEpCtrl_events (i : EpIdx) (w : Word) : (setEpCtrl i w s).events = s.events := rfl
@[simp] theorem setEpCtrl_mainPort (i : EpIdx) (w : Word) : (setEpCtrl i w s).mainPort = s.mainPort := rfl
@[simp] theorem setEpCtrl_busPort (i : EpIdx) (w : Word) : (setEpCtrl i w s).busPort = s.busPort := rfl
@[simp] theorem setEpCtrl_mainOut (i : EpIdx) (w : Word) : (setEpCtrl i w s).mainOut = s.mainOut := rfl
@[simp] theorem setEpCtrl_sched (i : EpIdx) (w : Word) : (setEpCtrl i w s).sched = s.sched := rfl
@[simp] theorem setEpCtrl_procs (i : EpIdx) (w : Word) : (setEpCtrl i w s).procs = s.procs := rfl

/-! `writeBuf` -/

@[simp] theorem writeBuf_initialized (i : EpIdx) (o : Nat) (bs : List Byte) : (writeBuf i o bs s).initialized = s.initialized := rfl
@[simp] theorem writeBuf_configured (i : EpIdx) (o : Nat) (bs : List Byte) : (writeBuf i o bs s).configured = s.configured := rfl
@[simp] theorem writeBuf_setupValid (i : EpIdx) (o : Nat) (bs : List Byte) : (writeBuf i o bs s).setupValid = s.setupValid := rfl
@[simp] theorem writeBuf_lastSetup (i : EpIdx) (o : Nat) (bs : List Byte) : (writeBuf i o bs s).lastSetup = s.lastSetup := rfl
@[simp] theorem writeBuf_toggle (i : EpIdx) (o : Nat) (bs : List Byte) : (writeBuf i o bs s).toggle = s.toggle := rfl
@[simp] theorem writeBuf_callback (i : EpIdx) (o : Nat) (bs : List Byte) : (writeBuf i o bs s).callback = s.callback := rfl
@[simp] theorem writeBuf_resolver (i : EpIdx) (o : Nat) (bs : List Byte) : (writeBuf i o bs s).resolver = s.resolver := rfl
@[simp] theorem writeBuf_devAddr (i : EpIdx) (o : Nat) (bs : List Byte) : (writeBuf i o bs s).devAddr = s.devAddr := rfl
@[simp] theorem writeBuf_pullup (i : EpIdx) (o : Nat) (bs : List Byte) : (writeBuf i o bs s).pullup = s.pullup := rfl
@[simp] theorem writeBuf_intEn (i : EpIdx) (o : Nat) (bs : List Byte) : (writeBuf i o bs s).intEn = s.intEn := rfl
@[simp] theorem writeBuf_busResetLatch (i : EpIdx) (o : Nat) (bs : List Byte) : (writeBuf i o bs s).busResetLatch = s.busResetLatch := rfl
@[simp] theorem writeBuf_setupReqLatch (i : EpIdx) (o : Nat) (bs : List Byte) : (writeBuf i o bs s).setupReqLatch = s.setupReqLatch := rfl
@[simp] theorem writeBuf_bufStatus (i : EpIdx) (o : Nat) (bs : List Byte) : (writeBuf i o bs s).bufStatus = s.bufStatus := rfl
@[simp] theorem writeBuf_irqInstalled (i : EpIdx) (o : Nat) (bs : List Byte) : (writeBuf i o bs s).irqInstalled = s.irqInstalled := rfl
@[simp] theorem writeBuf_mem (i : EpIdx) (o : Nat) (bs : List Byte) : (writeBuf i o bs s).mem = memWriteBytes s.mem (bufAddr i + o) bs := rfl
@[simp] theorem writeBuf_locks (i : EpIdx) (o : Nat) (bs : List Byte) : (writeBuf i o bs s).locks = s.locks := rfl
@[simp] theorem writeBuf_holders (i : EpIdx) (o : Nat) (bs : List Byte) : (writeBuf i o bs s).holders = s.holders := rfl
@[simp] theorem writeBuf_fifos (i : EpIdx) (o : Nat) (bs : List Byte) : (writeBuf i o bs s).fifos = s.fifos := rfl
@[simp] theorem writeBuf_ctx (i : EpIdx) (o : Nat) (bs : List Byte) : (writeBuf i o bs s).ctx = s.ctx := rfl
@[simp] theorem writeBuf_hpc (i : EpIdx) (o : Nat) (bs : List Byte) : (writeBuf i o bs s).hpc = s.hpc := rfl
@[simp] theorem writeBuf_locals (i : EpIdx) (o : Nat) (bs : List Byte) : (writeBuf i o bs s).locals = s.locals := rfl
@[simp] theorem writeBuf_fault (i : EpIdx) (o : Nat) (bs : List Byte) : (writeBuf i o bs s).fault = s.fault := rfl
@[simp] theorem writeBuf_irqMask (i : EpIdx) (o : Nat) (bs : List Byte) : (writeBuf i o bs s).irqMask = s.irqMask := rfl
@[simp] theorem writeBuf_arming (i : EpIdx) (o : Nat) (bs : List Byte) : (writeBuf i o bs s).arming = s.arming := rfl
@[simp] theorem writeBuf_waiting (i : EpIdx) (o : Nat) (bs : List Byte) : (writeBuf i o bs s).waiting = s.waiting := rfl
@[simp] theorem writeBuf_ext (i : EpIdx) (o : Nat) (bs : List Byte) : (writeBuf i o bs s).ext = s.ext := rfl
@[simp] theorem writeBuf_events (i : EpIdx) (o : Nat) (bs : List Byte) : (writeBuf i o bs s).events = s.events := rfl
@[simp] theorem writeBuf_mainPort (i : EpIdx) (o : Nat) (bs : List Byte) : (writeBuf i o bs s).mainPort = s.mainPort := rfl
@[simp] theorem writeBuf_busPort (i : EpIdx) (o : Nat) (bs : List Byte) : (writeBuf i o bs s).busPort = s.busPort := rfl
@[simp] theorem writeBuf_mainOut (i : EpIdx) (o : Nat) (bs : List Byte) : (writeBuf i o bs s).mainOut = s.mainOut := rfl
@[simp] theorem writeBuf_sched (i : EpIdx) (o : Nat) (bs : List Byte) : (writeBuf i o bs s).sched = s.sched := rfl
@[simp] theorem writeBuf_procs (i : EpIdx) (o : Nat) (bs : List Byte) : (writeBuf i o bs s).procs = s.procs := rfl

/-! `setSetupHw` -/

@[simp] theorem setSetupHw_initialized (p : SetupPacket) : (setSetupHw p s).initialized = s.initialized := rfl
@[simp] theorem setSetupHw_configured (p : SetupPacket) : (setSetupHw p s).configured = s.configured := rfl
@[simp] theorem setSetupHw_setupValid (p : SetupPacket) : (setSetupHw p s).setupValid = s.setupValid := rfl
@[simp] theorem setSetupHw_lastSetup (p : SetupPacket) : (setSetupHw p s).lastSetup = s.lastSetup := rfl
@[simp] theorem setSetupHw_toggle (p : SetupPacket) : (setSetupHw p s).toggle = s.toggle := rfl
@[simp] theorem setSetupHw_callback (p : SetupPacket) : (setSetupHw p s).callback = s.callback := rfl
@[simp] theorem setSetupHw_resolver (p : SetupPacket) : (setSetupHw p s).resolver = s.resolver := rfl
@[simp] theorem setSetupHw_devAddr (p : SetupPacket) : (setSetupHw p s).devAddr = s.devAddr := rfl
@[simp] theorem setSetupHw_pullup (p : SetupPacket) : (setSetupHw p s).pullup = s.pullup := rfl
@[simp] theorem setSetupHw_intEn (p : SetupPacket) : (setSetupHw p s).intEn = s.intEn := rfl
@[simp] theorem setSetupHw_busResetLatch (p : SetupPacket) : (setSetupHw p s).busResetLatch = s.busResetLatch := rfl
@[simp] theorem setSetupHw_setupReqLatch (p : SetupPacket) : (setSetupHw p s).setupReqLatch = s.setupReqLatch := rfl
@[simp] theorem setSetupHw_bufStatus (p : SetupPacket) : (setSetupHw p s).bufStatus = s.bufStatus := rfl
@[simp] theorem setSetupHw_irqInstalled (p : SetupPacket) : (setSetupHw p s).irqInstalled = s.irqInstalled := rfl
@[simp] theorem setSetupHw_mem (p : SetupPacket) : (setSetupHw p s).mem = memWriteBytes s.mem Config.setupBase (packetBytes p) := rfl
@[simp] theorem setSetupHw_locks (p : SetupPacket) : (setSetupHw p s).locks = s.locks := rfl
@[simp] theorem setSetupHw_holders (p : SetupPacket) : (setSetupHw p s).holders = s.holders := rfl
@[simp] theorem setSetupHw_fifos (p : SetupPacket) : (setSetupHw p s).fifos = s.fifos := rfl
@[simp] theorem setSetupHw_ctx (p : SetupPacket) : (setSetupHw p s).ctx = s.ctx := rfl
@[simp] theorem setSetupHw_hpc (p : SetupPacket) : (setSetupHw p s).hpc = s.hpc := rfl
@[simp] theorem setSetupHw_locals (p : SetupPacket) : (setSetupHw p s).locals = s.locals := rfl
@[simp] theorem setSetupHw_fault (p : SetupPacket) : (setSetupHw p s).fault = s.fault := rfl
@[simp] theorem setSetupHw_irqMask (p : SetupPacket) : (setSetupHw p s).irqMask = s.irqMask := rfl
@[simp] theorem setSetupHw_arming (p : SetupPacket) : (setSetupHw p s).arming = s.arming := rfl
@[simp] theorem setSetupHw_waiting (p : SetupPacket) : (setSetupHw p s).waiting = s.waiting := rfl
@[simp] theorem setSetupHw_ext (p : SetupPacket) : (setSetupHw p s).ext = s.ext := rfl
@[simp] theorem setSetupHw_events (p : SetupPacket) : (setSetupHw p s).events = s.events := rfl
@[simp] theorem setSetupHw_mainPort (p : SetupPacket) : (setSetupHw p s).mainPort = s.mainPort := rfl
@[simp] theorem setSetupHw_busPort (p : SetupPacket) : (setSetupHw p s).busPort = s.busPort := rfl
@[simp] theorem setSetupHw_mainOut (p : SetupPacket) : (setSetupHw p s).mainOut = s.mainOut := rfl
@[simp] theorem setSetupHw_sched (p : SetupPacket) : (setSetupHw p s).sched = s.sched := rfl
@[simp] theorem setSetupHw_procs (p : SetupPacket) : (setSetupHw p s).procs = s.procs := rfl

/-! `writeIntClr` -/

@[simp] theorem writeIntClr_initialized (m : Word) : (writeIntClr m s).initialized = s.initialized := rfl
@[simp] theorem writeIntClr_configured (m : Word) : (writeIntClr m s).configured = s.configured := rfl
@[simp] theorem writeIntClr_setupValid (m : Word) : (writeIntClr m s).setupValid = s.setupValid := rfl
@[simp] theorem writeIntClr_lastSetup (m : Word) : (writeIntClr m s).lastSetup = s.lastSetup := rfl
@[simp] theorem writeIntClr_toggle (m : Word) : (writeIntClr m s).toggle = s.toggle := rfl
@[simp] theorem writeIntClr_callback (m : Word) : (writeIntClr m s).callback = s.callback := rfl
@[simp] theorem writeIntClr_resolver (m : Word) : (writeIntClr m s).resolver = s.resolver := rfl
@[simp] theorem writeIntClr_devAddr (m : Word) : (writeIntClr m s).devAddr = s.devAddr := rfl
@[simp] theorem writeIntClr_pullup (m : Word) : (writeIntClr m s).pullup = s.pullup := rfl
@[simp] theorem writeIntClr_intEn (m : Word) : (writeIntClr m s).intEn = s.intEn := rfl
@[simp] theorem writeIntClr_busResetLatch (m : Word) : (writeIntClr m s).busResetLatch = (s.busResetLatch && !m.getLsbD intsBusReset) := rfl
@[simp] theorem writeIntClr_setupReqLatch (m : Word) : (writeIntClr m s).setupReqLatch = (s.setupReqLatch && !m.getLsbD intsSetupReq) := rfl
@[simp] theorem writeIntClr_bufStatus (m : Word) : (writeIntClr m s).bufStatus = s.bufStatus := rfl
@[simp] theorem writeIntClr_irqInstalled (m : Word) : (writeIntClr m s).irqInstalled = s.irqInstalled := rfl
@[simp] theorem writeIntClr_mem (m : Word) : (writeIntClr m s).mem = s.mem := rfl
@[simp] theorem writeIntClr_locks (m : Word) : (writeIntClr m s).locks = s.locks := rfl
@[simp] theorem writeIntClr_holders (m : Word) : (writeIntClr m s).holders = s.holders := rfl
@[simp] theorem writeIntClr_fifos (m : Word) : (writeIntClr m s).fifos = s.fifos := rfl
@[simp] theorem writeIntClr_ctx (m : Word) : (writeIntClr m s).ctx = s.ctx := rfl
@[simp] theorem writeIntClr_hpc (m : Word) : (writeIntClr m s).hpc = s.hpc := rfl
@[simp] theorem writeIntClr_locals (m : Word) : (writeIntClr m s).locals = s.locals := rfl
@[simp] theorem writeIntClr_fault (m : Word) : (writeIntClr m s).fault = s.fault := rfl
@[simp] theorem writeIntClr_irqMask (m : Word) : (writeIntClr m s).irqMask = s.irqMask := rfl
@[simp] theorem writeIntClr_arming (m : Word) : (writeIntClr m s).arming = s.arming := rfl
@[simp] theorem writeIntClr_waiting (m : Word) : (writeIntClr m s).waiting = s.waiting := rfl
@[simp] theorem writeIntClr_ext (m : Word) : (writeIntClr m s).ext = s.ext := rfl
@[simp] theorem writeIntClr_events (m : Word) : (writeIntClr m s).events = s.events := rfl
@[simp] theorem writeIntClr_mainPort (m : Word) : (writeIntClr m s).mainPort = s.mainPort := rfl
@[simp] theorem writeIntClr_busPort (m : Word) : (writeIntClr m s).busPort = s.busPort := rfl
@[simp] theorem writeIntClr_mainOut (m : Word) : (writeIntClr m s).mainOut = s.mainOut := rfl
@[simp] theorem writeIntClr_sched (m : Word) : (writeIntClr m s).sched = s.sched := rfl
@[simp] theorem writeIntClr_procs (m : Word) : (writeIntClr m s).procs = s.procs := rfl

/-! `writeBufStatusClr` -/

@[simp] theorem writeBufStatusClr_initialized (m : Word) : (writeBufStatusClr m s).initialized = s.initialized := rfl
@[simp] theorem writeBufStatusClr_configured (m : Word) : (writeBufStatusClr m s).configured = s.configured := rfl
@[simp] theorem writeBufStatusClr_setupValid (m : Word) : (writeBufStatusClr m s).setupValid = s.setupValid := rfl
@[simp] theorem writeBufStatusClr_lastSetup (m : Word) : (writeBufStatusClr m s).lastSetup = s.lastSetup := rfl
@[simp] theorem writeBufStatusClr_toggle (m : Word) : (writeBufStatusClr m s).toggle = s.toggle := rfl
@[simp] theorem writeBufStatusClr_callback (m : Word) : (writeBufStatusClr m s).callback = s.callback := rfl
@[simp] theorem writeBufStatusClr_resolver (m : Word) : (writeBufStatusClr m s).resolver = s.resolver := rfl
@[simp] theorem writeBufStatusClr_devAddr (m : Word) : (writeBufStatusClr m s).devAddr = s.devAddr := rfl
@[simp] theorem writeBufStatusClr_pullup (m : Word) : (writeBufStatusClr m s).pullup = s.pullup := rfl
@[simp] theorem writeBufStatusClr_intEn (m : Word) : (writeBufStatusClr m s).intEn = s.intEn := rfl
@[simp] theorem writeBufStatusClr_busResetLatch (m : Word) : (writeBufStatusClr m s).busResetLatch = s.busResetLatch := rfl
@[simp] theorem writeBufStatusClr_setupReqLatch (m : Word) : (writeBufStatusClr m s).setupReqLatch = s.setupReqLatch := rfl
@[simp] theorem writeBufStatusClr_bufStatus (m : Word) : (writeBufStatusClr m s).bufStatus = s.bufStatus &&& ~~~m := rfl
@[simp] theorem writeBufStatusClr_irqInstalled (m : Word) : (writeBufStatusClr m s).irqInstalled = s.irqInstalled := rfl
@[simp] theorem writeBufStatusClr_mem (m : Word) : (writeBufStatusClr m s).mem = s.mem := rfl
@[simp] theorem writeBufStatusClr_locks (m : Word) : (writeBufStatusClr m s).locks = s.locks := rfl
@[simp] theorem writeBufStatusClr_holders (m : Word) : (writeBufStatusClr m s).holders = s.holders := rfl
@[simp] theorem writeBufStatusClr_fifos (m : Word) : (writeBufStatusClr m s).fifos = s.fifos := rfl
@[simp] theorem writeBufStatusClr_ctx (m : Word) : (writeBufStatusClr m s).ctx = s.ctx := rfl
@[simp] theorem writeBufStatusClr_hpc (m : Word) : (writeBufStatusClr m s).hpc = s.hpc := rfl
@[simp] theorem writeBufStatusClr_locals (m : Word) : (writeBufStatusClr m s).locals = s.locals := rfl
@[simp] theorem writeBufStatusClr_fault (m : Word) : (writeBufStatusClr m s).fault = s.fault := rfl
@[simp] theorem writeBufStatusClr_irqMask (m : Word) : (writeBufStatusClr m s).irqMask = s.irqMask := rfl
@[simp] theorem writeBufStatusClr_arming (m : Word) : (writeBufStatusClr m s).arming = s.arming := rfl
@[simp] theorem writeBufStatusClr_waiting (m : Word) : (writeBufStatusClr m s).waiting = s.waiting := rfl
@[simp] theorem writeBufStatusClr_ext (m : Word) : (writeBufStatusClr m s).ext = s.ext := rfl
@[simp] theorem writeBufStatusClr_events (m : Word) : (writeBufStatusClr m s).events = s.events := rfl
@[simp] theorem writeBufStatusClr_mainPort (m : Word) : (writeBufStatusClr m s).mainPort = s.mainPort := rfl
@[simp] theorem writeBufStatusClr_busPort (m : Word) : (writeBufStatusClr m s).busPort = s.busPort := rfl
@[simp] theorem writeBufStatusClr_mainOut (m : Word) : (writeBufStatusClr m s).mainOut = s.mainOut := rfl
@[simp] theorem writeBufStatusClr_sched (m : Word) : (writeBufStatusClr m s).sched = s.sched := rfl
@[simp] theorem writeBufStatusClr_procs (m : Word) : (writeBufStatusClr m s).procs = s.procs := rfl

/-! `setBufStatus` -/

@[simp] theorem setBufStatus_initialized (i : EpIdx) : (setBufStatus i s).initialized = s.initialized := rfl
@[simp] theorem setBufStatus_configured (i : EpIdx) : (setBufStatus i s).configured = s.configured := rfl
@[simp] theorem setBufStatus_setupValid (i : EpIdx) : (setBufStatus i s).setupValid = s.setupValid := rfl
@[simp] theorem setBufStatus_lastSetup (i : EpIdx) : (setBufStatus i s).lastSetup = s.lastSetup := rfl
@[simp] theorem setBufStatus_toggle (i : EpIdx) : (setBufStatus i s).toggle = s.toggle := rfl
@[simp] theorem setBufStatus_callback (i : EpIdx) : (setBufStatus i s).callback = s.callback := rfl
@[simp] theorem setBufStatus_resolver (i : EpIdx) : (setBufStatus i s).resolver = s.resolver := rfl
@[simp] theorem setBufStatus_devAddr (i : EpIdx) : (setBufStatus i s).devAddr = s.devAddr := rfl
@[simp] theorem setBufStatus_pullup (i : EpIdx) : (setBufStatus i s).pullup = s.pullup := rfl
@[simp] theorem setBufStatus_intEn (i : EpIdx) : (setBufStatus i s).intEn = s.intEn := rfl
@[simp] theorem setBufStatus_busResetLatch (i : EpIdx) : (setBufStatus i s).busResetLatch = s.busResetLatch := rfl
@[simp] theorem setBufStatus_setupReqLatch (i : EpIdx) : (setBufStatus i s).setupReqLatch = s.setupReqLatch := rfl
@[simp] theorem setBufStatus_bufStatus (i : EpIdx) : (setBufStatus i s).bufStatus = setBit s.bufStatus i.val true := rfl
@[simp] theorem setBufStatus_irqInstalled (i : EpIdx) : (setBufStatus i s).irqInstalled = s.irqInstalled := rfl
@[simp] theorem setBufStatus_mem (i : EpIdx) : (setBufStatus i s).mem = s.mem := rfl
@[simp] theorem setBufStatus_locks (i : EpIdx) : (setBufStatus i s).locks = s.locks := rfl
@[simp] theorem setBufStatus_holders (i : EpIdx) : (setBufStatus i s).holders = s.holders := rfl
@[simp] theorem setBufStatus_fifos (i : EpIdx) : (setBufStatus i s).fifos = s.fifos := rfl
@[simp] theorem setBufStatus_ctx (i : EpIdx) : (setBufStatus i s).ctx = s.ctx := rfl
@[simp] theorem setBufStatus_hpc (i : EpIdx) : (setBufStatus i s).hpc = s.hpc := rfl
@[simp] theorem setBufStatus_locals (i : EpIdx) : (setBufStatus i s).locals = s.locals := rfl
@[simp] theorem setBufStatus_fault (i : EpIdx) : (setBufStatus i s).fault = s.fault := rfl
@[simp] theorem setBufStatus_irqMask (i : EpIdx) : (setBufStatus i s).irqMask = s.irqMask := rfl
@[simp] theorem setBufStatus_arming (i : EpIdx) : (setBufStatus i s).arming = s.arming := rfl
@[simp] theorem setBufStatus_waiting (i : EpIdx) : (setBufStatus i s).waiting = s.waiting := rfl
@[simp] theorem setBufStatus_ext (i : EpIdx) : (setBufStatus i s).ext = s.ext := rfl
@[simp] theorem setBufStatus_events (i : EpIdx) : (setBufStatus i s).events = s.events := rfl
@[simp] theorem setBufStatus_mainPort (i : EpIdx) : (setBufStatus i s).mainPort = s.mainPort := rfl
@[simp] theorem setBufStatus_busPort (i : EpIdx) : (setBufStatus i s).busPort = s.busPort := rfl
@[simp] theorem setBufStatus_mainOut (i : EpIdx) : (setBufStatus i s).mainOut = s.mainOut := rfl
@[simp] theorem setBufStatus_sched (i : EpIdx) : (setBufStatus i s).sched = s.sched := rfl
@[simp] theorem setBufStatus_procs (i : EpIdx) : (setBufStatus i s).procs = s.procs := rfl

/-! `flipToggle` -/

@[simp] theorem flipToggle_initialized (i : EpIdx) : (flipToggle i s).initialized = s.initialized := rfl
@[simp] theorem flipToggle_configured (i : EpIdx) : (flipToggle i s).configured = s.configured := rfl
@[simp] theorem flipToggle_setupValid (i : EpIdx) : (flipToggle i s).setupValid = s.setupValid := rfl
@[simp] theorem flipToggle_lastSetup (i : EpIdx) : (flipToggle i s).lastSetup = s.lastSetup := rfl
@[simp] theorem flipToggle_toggle (i : EpIdx) : (flipToggle i s).toggle = s.toggle.set i.val (!s.toggle[i.val]) := rfl
@[simp] theorem flipToggle_callback (i : EpIdx) : (flipToggle i s).callback = s.callback := rfl
@[simp] theorem flipToggle_resolver (i : EpIdx) : (flipToggle i s).resolver = s.resolver := rfl
@[simp] theorem flipToggle_devAddr (i : EpIdx) : (flipToggle i s).devAddr = s.devAddr := rfl
@[simp] theorem flipToggle_pullup (i : EpIdx) : (flipToggle i s).pullup = s.pullup := rfl
@[simp] theorem flipToggle_intEn (i : EpIdx) : (flipToggle i s).intEn = s.intEn := rfl
@[simp] theorem flipToggle_busResetLatch (i : EpIdx) : (flipToggle i s).busResetLatch = s.busResetLatch := rfl
@[simp] theorem flipToggle_setupReqLatch (i : EpIdx) : (flipToggle i s).setupReqLatch = s.setupReqLatch := rfl
@[simp] theorem flipToggle_bufStatus (i : EpIdx) : (flipToggle i s).bufStatus = s.bufStatus := rfl
@[simp] theorem flipToggle_irqInstalled (i : EpIdx) : (flipToggle i s).irqInstalled = s.irqInstalled := rfl
@[simp] theorem flipToggle_mem (i : EpIdx) : (flipToggle i s).mem = s.mem := rfl
@[simp] theorem flipToggle_locks (i : EpIdx) : (flipToggle i s).locks = s.locks := rfl
@[simp] theorem flipToggle_holders (i : EpIdx) : (flipToggle i s).holders = s.holders := rfl
@[simp] theorem flipToggle_fifos (i : EpIdx) : (flipToggle i s).fifos = s.fifos := rfl
@[simp] theorem flipToggle_ctx (i : EpIdx) : (flipToggle i s).ctx = s.ctx := rfl
@[simp] theorem flipToggle_hpc (i : EpIdx) : (flipToggle i s).hpc = s.hpc := rfl
@[simp] theorem flipToggle_locals (i : EpIdx) : (flipToggle i s).locals = s.locals := rfl
@[simp] theorem flipToggle_fault (i : EpIdx) : (flipToggle i s).fault = s.fault := rfl
@[simp] theorem flipToggle_irqMask (i : EpIdx) : (flipToggle i s).irqMask = s.irqMask := rfl
@[simp] theorem flipToggle_arming (i : EpIdx) : (flipToggle i s).arming = s.arming := rfl
@[simp] theorem flipToggle_waiting (i : EpIdx) : (flipToggle i s).waiting = s.waiting := rfl
@[simp] theorem flipToggle_ext (i : EpIdx) : (flipToggle i s).ext = s.ext := rfl
@[simp] theorem flipToggle_events (i : EpIdx) : (flipToggle i s).events = s.events := rfl
@[simp] theorem flipToggle_mainPort (i : EpIdx) : (flipToggle i s).mainPort = s.mainPort := rfl
@[simp] theorem flipToggle_busPort (i : EpIdx) : (flipToggle i s).busPort = s.busPort := rfl
@[simp] theorem flipToggle_mainOut (i : EpIdx) : (flipToggle i s).mainOut = s.mainOut := rfl
@[simp] theorem flipToggle_sched (i : EpIdx) : (flipToggle i s).sched = s.sched := rfl
@[simp] theorem flipToggle_procs (i : EpIdx) : (flipToggle i s).procs = s.procs := rfl

/-! `setToggle` -/

@[simp] theorem setToggle_initialized (i : EpIdx) (v : Bool) : (setToggle i v s).initialized = s.initialized := rfl
@[simp] theorem setToggle_configured (i : EpIdx) (v : Bool) : (setToggle i v s).configured = s.configured := rfl
@[simp] theorem setToggle_setupValid (i : EpIdx) (v : Bool) : (setToggle i v s).setupValid = s.setupValid := rfl
@[simp] theorem setToggle_lastSetup (i : EpIdx) (v : Bool) : (setToggle i v s).lastSetup = s.lastSetup := rfl
@[simp] theorem setToggle_toggle (i : EpIdx) (v : Bool) : (setToggle i v s).toggle = s.toggle.set i.val v := rfl
@[simp] theorem setToggle_callback (i : EpIdx) (v : Bool) : (setToggle i v s).callback = s.callback := rfl
@[simp] theorem setToggle_resolver (i : EpIdx) (v : Bool) : (setToggle i v s).resolver = s.resolver := rfl
@[simp] theorem setToggle_devAddr (i : EpIdx) (v : Bool) : (setToggle i v s).devAddr = s.devAddr := rfl
@[simp] theorem setToggle_pullup (i : EpIdx) (v : Bool) : (setToggle i v s).pullup = s.pullup := rfl
@[simp] theorem setToggle_intEn (i : EpIdx) (v : Bool) : (setToggle i v s).intEn = s.intEn := rfl
@[simp] theorem setToggle_busResetLatch (i : EpIdx) (v : Bool) : (setToggle i v s).busResetLatch = s.busResetLatch := rfl
@[simp] theorem setToggle_setupReqLatch (i : EpIdx) (v : Bool) : (setToggle i v s).setupReqLatch = s.setupReqLatch := rfl
@[simp] theorem setToggle_bufStatus (i : EpIdx) (v : Bool) : (setToggle i v s).bufStatus = s.bufStatus := rfl
@[simp] theorem setToggle_irqInstalled (i : EpIdx) (v : Bool) : (setToggle i v s).irqInstalled = s.irqInstalled := rfl
@[simp] theorem setToggle_mem (i : EpIdx) (v : Bool) : (setToggle i v s).mem = s.mem := rfl
@[simp] theorem setToggle_locks (i : EpIdx) (v : Bool) : (setToggle i v s).locks = s.locks := rfl
@[simp] theorem setToggle_holders (i : EpIdx) (v : Bool) : (setToggle i v s).holders = s.holders := rfl
@[simp] theorem setToggle_fifos (i : EpIdx) (v : Bool) : (setToggle i v s).fifos = s.fifos := rfl
@[simp] theorem setToggle_ctx (i : EpIdx) (v : Bool) : (setToggle i v s).ctx = s.ctx := rfl
@[simp] theorem setToggle_hpc (i : EpIdx) (v : Bool) : (setToggle i v s).hpc = s.hpc := rfl
@[simp] theorem setToggle_locals (i : EpIdx) (v : Bool) : (setToggle i v s).locals = s.locals := rfl
@[simp] theorem setToggle_fault (i : EpIdx) (v : Bool) : (setToggle i v s).fault = s.fault := rfl
@[simp] theorem setToggle_irqMask (i : EpIdx) (v : Bool) : (setToggle i v s).irqMask = s.irqMask := rfl
@[simp] theorem setToggle_arming (i : EpIdx) (v : Bool) : (setToggle i v s).arming = s.arming := rfl
@[simp] theorem setToggle_waiting (i : EpIdx) (v : Bool) : (setToggle i v s).waiting = s.waiting := rfl
@[simp] theorem setToggle_ext (i : EpIdx) (v : Bool) : (setToggle i v s).ext = s.ext := rfl
@[simp] theorem setToggle_events (i : EpIdx) (v : Bool) : (setToggle i v s).events = s.events := rfl
@[simp] theorem setToggle_mainPort (i : EpIdx) (v : Bool) : (setToggle i v s).mainPort = s.mainPort := rfl
@[simp] theorem setToggle_busPort (i : EpIdx) (v : Bool) : (setToggle i v s).busPort = s.busPort := rfl
@[simp] theorem setToggle_mainOut (i : EpIdx) (v : Bool) : (setToggle i v s).mainOut = s.mainOut := rfl
@[simp] theorem setToggle_sched (i : EpIdx) (v : Bool) : (setToggle i v s).sched = s.sched := rfl
@[simp] theorem setToggle_procs (i : EpIdx) (v : Bool) : (setToggle i v s).procs = s.procs := rfl

/-! `acquireLock` -/

@[simp] theorem acquireLock_initialized (l : Nat) : (acquireLock l s).initialized = s.initialized := rfl
@[simp] theorem acquireLock_configured (l : Nat) : (acquireLock l s).configured = s.configured := rfl
@[simp] theorem acquireLock_setupValid (l : Nat) : (acquireLock l s).setupValid = s.setupValid := rfl
@[simp] theorem acquireLock_lastSetup (l : Nat) : (acquireLock l s).lastSetup = s.lastSetup := rfl
@[simp] theorem acquireLock_toggle (l : Nat) : (acquireLock l s).toggle = s.toggle := rfl
@[simp] theorem acquireLock_callback (l : Nat) : (acquireLock l s).callback = s.callback := rfl
@[simp] theorem acquireLock_resolver (l : Nat) : (acquireLock l s).resolver = s.resolver := rfl
@[simp] theorem acquireLock_devAddr (l : Nat) : (acquireLock l s).devAddr = s.devAddr := rfl
@[simp] theorem acquireLock_pullup (l : Nat) : (acquireLock l s).pullup = s.pullup := rfl
@[simp] theorem acquireLock_intEn (l : Nat) : (acquireLock l s).intEn = s.intEn := rfl
@[simp] theorem acquireLock_busResetLatch (l : Nat) : (acquireLock l s).busResetLatch = s.busResetLatch := rfl
@[simp] theorem acquireLock_setupReqLatch (l : Nat) : (acquireLock l s).setupReqLatch = s.setupReqLatch := rfl
@[simp] theorem acquireLock_bufStatus (l : Nat) : (acquireLock l s).bufStatus = s.bufStatus := rfl
@[simp] theorem acquireLock_irqInstalled (l : Nat) : (acquireLock l s).irqInstalled = s.irqInstalled := rfl
@[simp] theorem acquireLock_mem (l : Nat) : (acquireLock l s).mem = s.mem := rfl
@[simp] theorem acquireLock_locks (l : Nat) : (acquireLock l s).locks = s.locks.set l (some s.ctx) := rfl
@[simp] theorem acquireLock_holders (l : Nat) : (acquireLock l s).holders = s.holders := rfl
@[simp] theorem acquireLock_fifos (l : Nat) : (acquireLock l s).fifos = s.fifos := rfl
@[simp] theorem acquireLock_ctx (l : Nat) : (acquireLock l s).ctx = s.ctx := rfl
@[simp] theorem acquireLock_hpc (l : Nat) : (acquireLock l s).hpc = s.hpc := rfl
@[simp] theorem acquireLock_locals (l : Nat) : (acquireLock l s).locals = s.locals := rfl
@[simp] theorem acquireLock_fault (l : Nat) : (acquireLock l s).fault = s.fault := rfl
@[simp] theorem acquireLock_irqMask (l : Nat) : (acquireLock l s).irqMask = if s.ctx = .main ∧ Config.lockMasksIrq then s.irqMask + 1 else s.irqMask := rfl
@[simp] theorem acquireLock_arming (l : Nat) : (acquireLock l s).arming = s.arming := rfl
@[simp] theorem acquireLock_waiting (l : Nat) : (acquireLock l s).waiting = none := rfl
@[simp] theorem acquireLock_ext (l : Nat) : (acquireLock l s).ext = s.ext := rfl
@[simp] theorem acquireLock_events (l : Nat) : (acquireLock l s).events = s.events := rfl
@[simp] theorem acquireLock_mainPort (l : Nat) : (acquireLock l s).mainPort = s.mainPort := rfl
@[simp] theorem acquireLock_busPort (l : Nat) : (acquireLock l s).busPort = s.busPort := rfl
@[simp] theorem acquireLock_mainOut (l : Nat) : (acquireLock l s).mainOut = s.mainOut := rfl
@[simp] theorem acquireLock_sched (l : Nat) : (acquireLock l s).sched = s.sched := rfl
@[simp] theorem acquireLock_procs (l : Nat) : (acquireLock l s).procs = s.procs := rfl

/-! `releaseLock` -/

@[simp] theorem releaseLock_initialized (l : Nat) : (releaseLock l s).initialized = s.initialized := rfl
@[simp] theorem releaseLock_configured (l : Nat) : (releaseLock l s).configured = s.configured := rfl
@[simp] theorem releaseLock_setupValid (l : Nat) : (releaseLock l s).setupValid = s.setupValid := rfl
@[simp] theorem releaseLock_lastSetup (l : Nat) : (releaseLock l s).lastSetup = s.lastSetup := rfl
@[simp] theorem releaseLock_toggle (l : Nat) : (releaseLock l s).toggle = s.toggle := rfl
@[simp] theorem releaseLock_callback (l : Nat) : (releaseLock l s).callback = s.callback := rfl
@[simp] theorem releaseLock_resolver (l : Nat) : (releaseLock l s).resolver = s.resolver := rfl
@[simp] theorem releaseLock_devAddr (l : Nat) : (releaseLock l s).devAddr = s.devAddr := rfl
@[simp] theorem releaseLock_pullup (l : Nat) : (releaseLock l s).pullup = s.pullup := rfl
@[simp] theorem releaseLock_intEn (l : Nat) : (releaseLock l s).intEn = s.intEn := rfl
@[simp] theorem releaseLock_busResetLatch (l : Nat) : (releaseLock l s).busResetLatch = s.busResetLatch := rfl
@[simp] theorem releaseLock_setupReqLatch (l : Nat) : (releaseLock l s).setupReqLatch = s.setupReqLatch := rfl
@[simp] theorem releaseLock_bufStatus (l : Nat) : (releaseLock l s).bufStatus = s.bufStatus := rfl
@[simp] theorem releaseLock_irqInstalled (l : Nat) : (releaseLock l s).irqInstalled = s.irqInstalled := rfl
@[simp] theorem releaseLock_mem (l : Nat) : (releaseLock l s).mem = s.mem := rfl
@[simp] theorem releaseLock_locks (l : Nat) : (releaseLock l s).locks = s.locks.set l none := rfl
@[simp] theorem releaseLock_holders (l : Nat) : (releaseLock l s).holders = s.holders := rfl
@[simp] theorem releaseLock_fifos (l : Nat) : (releaseLock l s).fifos = s.fifos := rfl
@[simp] theorem releaseLock_ctx (l : Nat) : (releaseLock l s).ctx = s.ctx := rfl
@[simp] theorem releaseLock_hpc (l : Nat) : (releaseLock l s).hpc = s.hpc := rfl
@[simp] theorem releaseLock_locals (l : Nat) : (releaseLock l s).locals = s.locals := rfl
@[simp] theorem releaseLock_fault (l : Nat) : (releaseLock l s).fault = s.fault := rfl
@[simp] theorem releaseLock_irqMask (l : Nat) : (releaseLock l s).irqMask = if s.ctx = .main ∧ Config.lockMasksIrq then s.irqMask - 1 else s.irqMask := rfl
@[simp] theorem releaseLock_arming (l : Nat) : (releaseLock l s).arming = s.arming := rfl
@[simp] theorem releaseLock_waiting (l : Nat) : (releaseLock l s).waiting = s.waiting := rfl
@[simp] theorem releaseLock_ext (l : Nat) : (releaseLock l s).ext = s.ext := rfl
@[simp] theorem releaseLock_events (l : Nat) : (releaseLock l s).events = s.events := rfl
@[simp] theorem releaseLock_mainPort (l : Nat) : (releaseLock l s).mainPort = s.mainPort := rfl
@[simp] theorem releaseLock_busPort (l : Nat) : (releaseLock l s).busPort = s.busPort := rfl
@[simp] theorem releaseLock_mainOut (l : Nat) : (releaseLock l s).mainOut = s.mainOut := rfl
@[simp] theorem releaseLock_sched (l : Nat) : (releaseLock l s).sched = s.sched := rfl
@[simp] theorem releaseLock_procs (l : Nat) : (releaseLock l s).procs = s.procs := rfl

/-! `takeInterrupt` -/

@[simp] theorem takeInterrupt_initialized : (takeInterrupt s).initialized = s.initialized := rfl
@[simp] theorem takeInterrupt_configured : (takeInterrupt s).configured = s.configured := rfl
@[simp] theorem takeInterrupt_setupValid : (takeInterrupt s).setupValid = s.setupValid := rfl
@[simp] theorem takeInterrupt_lastSetup : (takeInterrupt s).lastSetup = s.lastSetup := rfl
@[simp] theorem takeInterrupt_toggle : (takeInterrupt s).toggle = s.toggle := rfl
@[simp] theorem takeInterrupt_callback : (takeInterrupt s).callback = s.callback := rfl
@[simp] theorem takeInterrupt_resolver : (takeInterrupt s).resolver = s.resolver := rfl
@[simp] theorem takeInterrupt_devAddr : (takeInterrupt s).devAddr = s.devAddr := rfl
@[simp] theorem takeInterrupt_pullup : (takeInterrupt s).pullup = s.pullup := rfl
@[simp] theorem takeInterrupt_intEn : (takeInterrupt s).intEn = s.intEn := rfl
@[simp] theorem takeInterrupt_busResetLatch : (takeInterrupt s).busResetLatch = s.busResetLatch := rfl
@[simp] theorem takeInterrupt_setupReqLatch : (takeInterrupt s).setupReqLatch = s.setupReqLatch := rfl
@[simp] theorem takeInterrupt_bufStatus : (takeInterrupt s).bufStatus = s.bufStatus := rfl
@[simp] theorem takeInterrupt_irqInstalled : (takeInterrupt s).irqInstalled = s.irqInstalled := rfl
@[simp] theorem takeInterrupt_mem : (takeInterrupt s).mem = s.mem := rfl
@[simp] theorem takeInterrupt_locks : (takeInterrupt s).locks = s.locks := rfl
@[simp] theorem takeInterrupt_holders : (takeInterrupt s).holders = s.holders := rfl
@[simp] theorem takeInterrupt_fifos : (takeInterrupt s).fifos = s.fifos := rfl
@[simp] theorem takeInterrupt_ctx : (takeInterrupt s).ctx = .irq := rfl
@[simp] theorem takeInterrupt_hpc : (takeInterrupt s).hpc = .h1Read := rfl
@[simp] theorem takeInterrupt_locals : (takeInterrupt s).locals = s.locals := rfl
@[simp] theorem takeInterrupt_fault : (takeInterrupt s).fault = s.fault := rfl
@[simp] theorem takeInterrupt_irqMask : (takeInterrupt s).irqMask = s.irqMask := rfl
@[simp] theorem takeInterrupt_arming : (takeInterrupt s).arming = s.arming := rfl
@[simp] theorem takeInterrupt_waiting : (takeInterrupt s).waiting = s.waiting := rfl
@[simp] theorem takeInterrupt_ext : (takeInterrupt s).ext = s.ext := rfl
@[simp] theorem takeInterrupt_events : (takeInterrupt s).events = s.events := rfl
@[simp] theorem takeInterrupt_mainPort : (takeInterrupt s).mainPort = s.mainPort := rfl
@[simp] theorem takeInterrupt_busPort : (takeInterrupt s).busPort = s.busPort := rfl
@[simp] theorem takeInterrupt_mainOut : (takeInterrupt s).mainOut = s.mainOut := rfl
@[simp] theorem takeInterrupt_sched : (takeInterrupt s).sched = s.sched := rfl
@[simp] theorem takeInterrupt_procs : (takeInterrupt s).procs = s.procs := rfl

/-! `leaveInterrupt` -/

@[simp] theorem leaveInterrupt_initialized : (leaveInterrupt s).initialized = s.initialized := rfl
@[simp] theorem leaveInterrupt_configured : (leaveInterrupt s).configured = s.configured := rfl
@[simp] theorem leaveInterrupt_setupValid : (leaveInterrupt s).setupValid = s.setupValid := rfl
@[simp] theorem leaveInterrupt_lastSetup : (leaveInterrupt s).lastSetup = s.lastSetup := rfl
@[simp] theorem leaveInterrupt_toggle : (leaveInterrupt s).toggle = s.toggle := rfl
@[simp] theorem leaveInterrupt_callback : (leaveInterrupt s).callback = s.callback := rfl
@[simp] theorem leaveInterrupt_resolver : (leaveInterrupt s).resolver = s.resolver := rfl
@[simp] theorem leaveInterrupt_devAddr : (leaveInterrupt s).devAddr = s.devAddr := rfl
@[simp] theorem leaveInterrupt_pullup : (leaveInterrupt s).pullup = s.pullup := rfl
@[simp] theorem leaveInterrupt_intEn : (leaveInterrupt s).intEn = s.intEn := rfl
@[simp] theorem leaveInterrupt_busResetLatch : (leaveInterrupt s).busResetLatch = s.busResetLatch := rfl
@[simp] theorem leaveInterrupt_setupReqLatch : (leaveInterrupt s).setupReqLatch = s.setupReqLatch := rfl
@[simp] theorem leaveInterrupt_bufStatus : (leaveInterrupt s).bufStatus = s.bufStatus := rfl
@[simp] theorem leaveInterrupt_irqInstalled : (leaveInterrupt s).irqInstalled = s.irqInstalled := rfl
@[simp] theorem leaveInterrupt_mem : (leaveInterrupt s).mem = s.mem := rfl
@[simp] theorem leaveInterrupt_locks : (leaveInterrupt s).locks = s.locks := rfl
@[simp] theorem leaveInterrupt_holders : (leaveInterrupt s).holders = s.holders := rfl
@[simp] theorem leaveInterrupt_fifos : (leaveInterrupt s).fifos = s.fifos := rfl
@[simp] theorem leaveInterrupt_ctx : (leaveInterrupt s).ctx = .main := rfl
@[simp] theorem leaveInterrupt_hpc : (leaveInterrupt s).hpc = .idle := rfl
@[simp] theorem leaveInterrupt_locals : (leaveInterrupt s).locals = Locals.none := rfl
@[simp] theorem leaveInterrupt_fault : (leaveInterrupt s).fault = s.fault := rfl
@[simp] theorem leaveInterrupt_irqMask : (leaveInterrupt s).irqMask = s.irqMask := rfl
@[simp] theorem leaveInterrupt_arming : (leaveInterrupt s).arming = s.arming := rfl
@[simp] theorem leaveInterrupt_waiting : (leaveInterrupt s).waiting = s.waiting := rfl
@[simp] theorem leaveInterrupt_ext : (leaveInterrupt s).ext = s.ext := rfl
@[simp] theorem leaveInterrupt_events : (leaveInterrupt s).events = s.events := rfl
@[simp] theorem leaveInterrupt_mainPort : (leaveInterrupt s).mainPort = s.mainPort := rfl
@[simp] theorem leaveInterrupt_busPort : (leaveInterrupt s).busPort = s.busPort := rfl
@[simp] theorem leaveInterrupt_mainOut : (leaveInterrupt s).mainOut = s.mainOut := rfl
@[simp] theorem leaveInterrupt_sched : (leaveInterrupt s).sched = s.sched := rfl
@[simp] theorem leaveInterrupt_procs : (leaveInterrupt s).procs = s.procs := rfl

/-! `beginCall` -/

@[simp] theorem beginCall_initialized (p : Proc) (xs : List Byte) : (beginCall p xs s).initialized = s.initialized := rfl
@[simp] theorem beginCall_configured (p : Proc) (xs : List Byte) : (beginCall p xs s).configured = s.configured := rfl
@[simp] theorem beginCall_setupValid (p : Proc) (xs : List Byte) : (beginCall p xs s).setupValid = s.setupValid := rfl
@[simp] theorem beginCall_lastSetup (p : Proc) (xs : List Byte) : (beginCall p xs s).lastSetup = s.lastSetup := rfl
@[simp] theorem beginCall_toggle (p : Proc) (xs : List Byte) : (beginCall p xs s).toggle = s.toggle := rfl
@[simp] theorem beginCall_callback (p : Proc) (xs : List Byte) : (beginCall p xs s).callback = s.callback := rfl
@[simp] theorem beginCall_resolver (p : Proc) (xs : List Byte) : (beginCall p xs s).resolver = s.resolver := rfl
@[simp] theorem beginCall_devAddr (p : Proc) (xs : List Byte) : (beginCall p xs s).devAddr = s.devAddr := rfl
@[simp] theorem beginCall_pullup (p : Proc) (xs : List Byte) : (beginCall p xs s).pullup = s.pullup := rfl
@[simp] theorem beginCall_intEn (p : Proc) (xs : List Byte) : (beginCall p xs s).intEn = s.intEn := rfl
@[simp] theorem beginCall_busResetLatch (p : Proc) (xs : List Byte) : (beginCall p xs s).busResetLatch = s.busResetLatch := rfl
@[simp] theorem beginCall_setupReqLatch (p : Proc) (xs : List Byte) : (beginCall p xs s).setupReqLatch = s.setupReqLatch := rfl
@[simp] theorem beginCall_bufStatus (p : Proc) (xs : List Byte) : (beginCall p xs s).bufStatus = s.bufStatus := rfl
@[simp] theorem beginCall_irqInstalled (p : Proc) (xs : List Byte) : (beginCall p xs s).irqInstalled = s.irqInstalled := rfl
@[simp] theorem beginCall_mem (p : Proc) (xs : List Byte) : (beginCall p xs s).mem = s.mem := rfl
@[simp] theorem beginCall_locks (p : Proc) (xs : List Byte) : (beginCall p xs s).locks = s.locks := rfl
@[simp] theorem beginCall_holders (p : Proc) (xs : List Byte) : (beginCall p xs s).holders = s.holders := rfl
@[simp] theorem beginCall_fifos (p : Proc) (xs : List Byte) : (beginCall p xs s).fifos = s.fifos := rfl
@[simp] theorem beginCall_ctx (p : Proc) (xs : List Byte) : (beginCall p xs s).ctx = s.ctx := rfl
@[simp] theorem beginCall_hpc (p : Proc) (xs : List Byte) : (beginCall p xs s).hpc = s.hpc := rfl
@[simp] theorem beginCall_locals (p : Proc) (xs : List Byte) : (beginCall p xs s).locals = s.locals := rfl
@[simp] theorem beginCall_fault (p : Proc) (xs : List Byte) : (beginCall p xs s).fault = s.fault := rfl
@[simp] theorem beginCall_irqMask (p : Proc) (xs : List Byte) : (beginCall p xs s).irqMask = s.irqMask := rfl
@[simp] theorem beginCall_arming (p : Proc) (xs : List Byte) : (beginCall p xs s).arming = s.arming := rfl
@[simp] theorem beginCall_waiting (p : Proc) (xs : List Byte) : (beginCall p xs s).waiting = s.waiting := rfl
@[simp] theorem beginCall_ext (p : Proc) (xs : List Byte) : (beginCall p xs s).ext = some { args := xs, result := [], rest := p } := rfl
@[simp] theorem beginCall_events (p : Proc) (xs : List Byte) : (beginCall p xs s).events = s.events := rfl
@[simp] theorem beginCall_mainPort (p : Proc) (xs : List Byte) : (beginCall p xs s).mainPort = s.mainPort := rfl
@[simp] theorem beginCall_busPort (p : Proc) (xs : List Byte) : (beginCall p xs s).busPort = s.busPort := rfl
@[simp] theorem beginCall_mainOut (p : Proc) (xs : List Byte) : (beginCall p xs s).mainOut = s.mainOut := rfl
@[simp] theorem beginCall_sched (p : Proc) (xs : List Byte) : (beginCall p xs s).sched = s.sched := rfl
@[simp] theorem beginCall_procs (p : Proc) (xs : List Byte) : (beginCall p xs s).procs = s.procs := rfl

/-! `reply` -/

@[simp] theorem reply_initialized (r : Result) : (reply r s).initialized = s.initialized := by unfold reply; cases s.ctx <;> rfl
@[simp] theorem reply_configured (r : Result) : (reply r s).configured = s.configured := by unfold reply; cases s.ctx <;> rfl
@[simp] theorem reply_setupValid (r : Result) : (reply r s).setupValid = s.setupValid := by unfold reply; cases s.ctx <;> rfl
@[simp] theorem reply_lastSetup (r : Result) : (reply r s).lastSetup = s.lastSetup := by unfold reply; cases s.ctx <;> rfl
@[simp] theorem reply_toggle (r : Result) : (reply r s).toggle = s.toggle := by unfold reply; cases s.ctx <;> rfl
@[simp] theorem reply_callback (r : Result) : (reply r s).callback = s.callback := by unfold reply; cases s.ctx <;> rfl
@[simp] theorem reply_resolver (r : Result) : (reply r s).resolver = s.resolver := by unfold reply; cases s.ctx <;> rfl
@[simp] theorem reply_devAddr (r : Result) : (reply r s).devAddr = s.devAddr := by unfold reply; cases s.ctx <;> rfl
@[simp] theorem reply_pullup (r : Result) : (reply r s).pullup = s.pullup := by unfold reply; cases s.ctx <;> rfl
@[simp] theorem reply_intEn (r : Result) : (reply r s).intEn = s.intEn := by unfold reply; cases s.ctx <;> rfl
@[simp] theorem reply_busResetLatch (r : Result) : (reply r s).busResetLatch = s.busResetLatch := by unfold reply; cases s.ctx <;> rfl
@[simp] theorem reply_setupReqLatch (r : Result) : (reply r s).setupReqLatch = s.setupReqLatch := by unfold reply; cases s.ctx <;> rfl
@[simp] theorem reply_bufStatus (r : Result) : (reply r s).bufStatus = s.bufStatus := by unfold reply; cases s.ctx <;> rfl
@[simp] theorem reply_irqInstalled (r : Result) : (reply r s).irqInstalled = s.irqInstalled := by unfold reply; cases s.ctx <;> rfl
@[simp] theorem reply_mem (r : Result) : (reply r s).mem = s.mem := by unfold reply; cases s.ctx <;> rfl
@[simp] theorem reply_locks (r : Result) : (reply r s).locks = s.locks := by unfold reply; cases s.ctx <;> rfl
@[simp] theorem reply_holders (r : Result) : (reply r s).holders = s.holders := by unfold reply; cases s.ctx <;> rfl
@[simp] theorem reply_fifos (r : Result) : (reply r s).fifos = s.fifos := by unfold reply; cases s.ctx <;> rfl
@[simp] theorem reply_ctx (r : Result) : (reply r s).ctx = s.ctx := by unfold reply; cases s.ctx <;> rfl
@[simp] theorem reply_hpc (r : Result) : (reply r s).hpc = s.hpc := by unfold reply; cases s.ctx <;> rfl
@[simp] theorem reply_locals (r : Result) : (reply r s).locals = s.locals := by unfold reply; cases s.ctx <;> rfl
@[simp] theorem reply_fault (r : Result) : (reply r s).fault = s.fault := by unfold reply; cases s.ctx <;> rfl
@[simp] theorem reply_irqMask (r : Result) : (reply r s).irqMask = s.irqMask := by unfold reply; cases s.ctx <;> rfl
@[simp] theorem reply_arming (r : Result) : (reply r s).arming = s.arming := by unfold reply; cases s.ctx <;> rfl
@[simp] theorem reply_waiting (r : Result) : (reply r s).waiting = s.waiting := by unfold reply; cases s.ctx <;> rfl
@[simp] theorem reply_events (r : Result) : (reply r s).events = s.events := by unfold reply; cases s.ctx <;> rfl
@[simp] theorem reply_mainPort (r : Result) : (reply r s).mainPort = s.mainPort := by unfold reply; cases s.ctx <;> rfl
@[simp] theorem reply_busPort (r : Result) : (reply r s).busPort = s.busPort := by unfold reply; cases s.ctx <;> rfl
@[simp] theorem reply_sched (r : Result) : (reply r s).sched = s.sched := by unfold reply; cases s.ctx <;> rfl
@[simp] theorem reply_procs (r : Result) : (reply r s).procs = s.procs := by unfold reply; cases s.ctx <;> rfl

theorem reply_main (r : Result) (h : s.ctx = .main) : reply r s = { s with mainOut := s.mainOut ++ [r] } := by
  unfold reply; rw [h]

theorem reply_irq (r : Result) (h : s.ctx = .irq) :
    reply r s = { s with ext := s.ext.map fun e => { e with result := encodeResult r } } := by
  unfold reply; rw [h]

end Sys2Proof.Machine
end

