-- ==== Sys2Proof/Laws/Ops.lean ====
section
/-! SUPPORT. For each shared operation, once, what it does: the lock bracket, the registers in DPRAM, the arming. -/

namespace Sys2Proof.Machine

/-! The lock bracket. -/

/-- A list set where it holds the value already. -/
theorem set_self {α : Type} {l : List α} {k : Nat} {a : α} (h : l[k]? = some a) : l.set k a = l := by
  apply List.ext_getElem?
  intro j
  by_cases hj : k = j
  · subst hj
    rw [h, List.getElem?_set_self (by by_contra hk; rw [List.getElem?_eq_none (by omega)] at h; cases h)]
  · rw [List.getElem?_set_ne hj]

theorem acquireOrWait_free {s : State} {l : Nat} (h : LockFree s l) (i : Instr) (inner : Bool) (k : State → Outcome) :
    acquireOrWait i l inner s k = k (acquireLock l s) := by
  unfold LockFree at h; simp only [acquireOrWait, h]

theorem acquireOrWait_owned {s : State} {l : Nat} (h : LockOwned s l) (i : Instr) (inner : Bool) (k : State → Outcome) :
    acquireOrWait i l inner s k = .next { s with waiting := some { instr := i, lock := l, inner := inner } } := by
  obtain ⟨c, h⟩ := h; simp only [acquireOrWait, h]

/-- Whatever the lock, an acquisition refuses, waits, or goes on with the lock taken. -/
theorem acquireOrWait_cases {i : Instr} {l : Nat} {inner : Bool} {s t : State} {k : State → Outcome}
    (h : acquireOrWait i l inner s k = .next t) :
    (LockFree s l ∧ k (acquireLock l s) = .next t) ∨
    (LockOwned s l ∧ t = { s with waiting := some { instr := i, lock := l, inner := inner } }) := by
  unfold acquireOrWait at h
  unfold LockFree LockOwned
  split at h
  · cases h
  · next he => exact .inl ⟨he, h⟩
  · next c he => cases h; exact .inr ⟨⟨c, he⟩, rfl⟩

/-- Taking a free lock and giving it back leaves every lock and the mask as they were (R143). -/
theorem release_acquire (s u : State) (l : Nat) (h : LockFree s l) (hu : u.locks = (acquireLock l s).locks)
    (hm : u.irqMask = (acquireLock l s).irqMask) (hc : u.ctx = s.ctx) :
    (releaseLock l u).locks = s.locks ∧ (releaseLock l u).irqMask = s.irqMask := by
  unfold releaseLock
  rw [hu, hm, hc]
  unfold acquireLock
  constructor
  · simp only [List.set_set]; exact set_self h
  · simp only; split <;> omega

/-- A bracket around a function of one holder whose lock is free. -/
theorem holderOp_ready {s : State} {id : Byte} {h : Holder} (hr : HolderReady s id h) (i : Instr) (f : Elem → Elem × Result) :
    holderOp i id s f = .next (reply (f h.value).2
      { s with holders := s.holders.set id.toNat { h with value := (f h.value).1 } }) := by
  obtain ⟨hh, hl, hw⟩ := hr
  have hra := release_acquire s { acquireLock h.lock s with
      holders := s.holders.set id.toNat { h with value := (f h.value).1 } } h.lock hl rfl rfl rfl
  unfold holderOp
  rw [hh]
  simp only [withLock]
  rw [acquireOrWait_free hl]
  congr 2
  simp only [releaseLock, acquireLock] at hra ⊢
  rw [State.mk.injEq]
  simp only [hra.1, hra.2, hw, and_self]

/-- A bracket around a function of one FIFO whose lock is free. -/
theorem fifoOp_ready {s : State} {id : Byte} {q : Fifo} (hr : FifoReady s id q) (i : Instr) (f : Fifo → Fifo × Result) :
    fifoOp i id s f = .next (reply (f q).2 { s with fifos := s.fifos.set id.toNat (f q).1 }) := by
  obtain ⟨hh, _, hl, hw⟩ := hr
  have hra := release_acquire s { acquireLock q.lock s with
      fifos := s.fifos.set id.toNat (f q).1 } q.lock hl rfl rfl rfl
  unfold fifoOp
  rw [hh]
  simp only [withLock]
  rw [acquireOrWait_free hl]
  congr 2
  simp only [releaseLock, acquireLock] at hra ⊢
  rw [State.mk.injEq]
  simp only [hra.1, hra.2, hw, and_self]

/-! The registers in DPRAM. -/

@[simp] theorem bufCtrl_set (i : EpIdx) (w : Word) (s : State) : bufCtrl (setBufCtrl i w s) i = w :=
  memReadWord_writeWord _ _ _

theorem bufCtrl_set_ne {i j : EpIdx} (h : j ≠ i) (w : Word) (s : State) : bufCtrl (setBufCtrl i w s) j = bufCtrl s j :=
  memReadWord_writeWord_of_not_mem _ _ _ _ (bufCtrlAddr_ne h)

theorem bufCtrl_set_eq (i j : EpIdx) (w : Word) (s : State) :
    bufCtrl (setBufCtrl i w s) j = if j = i then w else bufCtrl s j := by
  split
  · next h => rw [h, bufCtrl_set]
  · next h => exact bufCtrl_set_ne h w s

/-- A buffer lies above every register word (R70). -/
theorem bufCtrl_writeBuf (i j : EpIdx) (off : Nat) (bs : List Byte) (s : State) :
    bufCtrl (writeBuf i off bs s) j = bufCtrl s j :=
  memReadWord_writeBytes_of_not_mem _ _ _ _ (by have := bufAddr_ge i; have := bufCtrlAddr_range j; omega)

theorem bufCtrl_setEpCtrl (i j : EpIdx) (w : Word) (s : State) : bufCtrl (setEpCtrl i w s) j = bufCtrl s j :=
  memReadWord_writeWord_of_not_mem _ _ _ _ (by have := epCtrlAddr_range i; have := bufCtrlAddr_range j; omega)

theorem bufCtrl_setSetupHw (p : SetupPacket) (j : EpIdx) (s : State) : bufCtrl (setSetupHw p s) j = bufCtrl s j :=
  memReadWord_writeBytes_of_not_mem _ _ _ _ (by
    have := bufCtrlAddr_range j
    simp only [packetBytes_length, Config.setupBase]; omega)

@[simp] theorem epCtrl_set (i : EpIdx) (w : Word) (s : State) : epCtrl (setEpCtrl i w s) i = w :=
  memReadWord_writeWord _ _ _

theorem epCtrl_set_ne {i j : EpIdx} (h : j ≠ i) (hi : 2 ≤ i.val) (hj : 2 ≤ j.val) (w : Word) (s : State) :
    epCtrl (setEpCtrl i w s) j = epCtrl s j :=
  memReadWord_writeWord_of_not_mem _ _ _ _ (epCtrlAddr_ne h hj hi)

theorem epCtrl_setBufCtrl (i j : EpIdx) (w : Word) (s : State) : epCtrl (setBufCtrl i w s) j = epCtrl s j :=
  memReadWord_writeWord_of_not_mem _ _ _ _ (by have := epCtrlAddr_range j; have := bufCtrlAddr_range i; omega)

theorem epCtrl_writeBuf (i j : EpIdx) (off : Nat) (bs : List Byte) (s : State) :
    epCtrl (writeBuf i off bs s) j = epCtrl s j :=
  memReadWord_writeBytes_of_not_mem _ _ _ _ (by have := bufAddr_ge i; have := epCtrlAddr_range j; omega)

theorem epCtrl_setSetupHw (p : SetupPacket) (j : EpIdx) (s : State) : epCtrl (setSetupHw p s) j = epCtrl s j :=
  memReadWord_writeBytes_of_not_mem _ _ _ _ (by
    have := epCtrlAddr_range j
    simp only [packetBytes_length, Config.setupBase]; omega)

/-- The setup packet read back as it was written (R77). -/
theorem setupHw_setSetupHw (p : SetupPacket) (s : State) : setupHw (setSetupHw p s) = p := by
  have h : ∀ k, k < 8 → memRead (setSetupHw p s).mem (Config.setupBase + k) = (packetBytes p).getD k 0 := by
    intro k hk
    simp only [setSetupHw, memRead_writeBytes, packetBytes_length]
    simp [hk]
  unfold setupHw
  simp only
  rw [h 0 (by omega), h 1 (by omega), h 2 (by omega), h 3 (by omega), h 4 (by omega), h 5 (by omega), h 6 (by omega),
    h 7 (by omega)]
  exact packetOfBytes_packetBytes p

/-! Arming. -/

theorem armStep_none {s : State} (h : s.arming = none) : armStep s = s := by unfold armStep; rw [h]

/-- Line 1 of R186, one byte. -/
theorem armStep_byte {s : State} {a : Arming} {b : Byte} {bs : List Byte} (h : s.arming = some a) (ht : a.todo = b :: bs) :
    armStep s = { writeBuf a.idx a.off [b] s with arming := some { a with todo := bs, off := a.off + 1 } } := by
  unfold armStep; rw [h]; simp only [ht]

/-- Line 2 of R186. -/
theorem armStep_word {s : State} {a : Arming} (h : s.arming = some a) (ht : a.todo = []) (hw : a.wordDone = false) :
    armStep s = { setBufCtrl a.idx (armInWord s.toggle[a.idx.val] a.len) s with arming := some { a with wordDone := true } } := by
  unfold armStep; rw [h]; simp only [ht, hw, Bool.false_eq_true, if_false]

/-- Line 3 of R186 and the end of the command. -/
theorem armStep_flip {s : State} {a : Arming} (h : s.arming = some a) (ht : a.todo = []) (hw : a.wordDone = true) :
    armStep s = reply .done { flipToggle a.idx s with
      arming := none, irqMask := if Config.cmdAtomic then s.irqMask - 1 else s.irqMask } := by
  unfold armStep; rw [h]; simp only [ht, hw, if_true]

/-- Every micro-step is one of the three. -/
theorem armStep_cases {s : State} {a : Arming} (h : s.arming = some a) :
    (∃ b bs, a.todo = b :: bs ∧
      armStep s = { writeBuf a.idx a.off [b] s with arming := some { a with todo := bs, off := a.off + 1 } }) ∨
    (a.todo = [] ∧ a.wordDone = false ∧
      armStep s = { setBufCtrl a.idx (armInWord s.toggle[a.idx.val] a.len) s with arming := some { a with wordDone := true } }) ∨
    (a.todo = [] ∧ a.wordDone = true ∧
      armStep s = reply .done { flipToggle a.idx s with
        arming := none, irqMask := if Config.cmdAtomic then s.irqMask - 1 else s.irqMask }) := by
  rcases ht : a.todo with _ | ⟨b, bs⟩
  · rcases hw : a.wordDone with _ | _
    · exact .inr (.inl ⟨rfl, rfl, ht ▸ armStep_word h ht hw⟩)
    · exact .inr (.inr ⟨rfl, rfl, armStep_flip h ht hw⟩)
  · exact .inl ⟨b, bs, rfl, armStep_byte h ht⟩

/-- The copy of line 1, to its end. -/
theorem armSteps_copy (todo : List Byte) : ∀ (n : Nat) (s : State) (a : Arming), s.arming = some { a with todo := todo } →
    armSteps (todo.length + n) s = armSteps n
      { writeBuf a.idx a.off todo s with arming := some { a with todo := [], off := a.off + todo.length } } := by
  induction todo with
  | nil =>
    intro n s a h
    have e : { writeBuf a.idx a.off [] s with arming := some { a with todo := [], off := a.off + ([] : List Byte).length } } = s := by
      rw [State.mk.injEq]; simp [writeBuf, memWriteBytes, h]
    rw [e, List.length_nil, Nat.zero_add]
  | cons b bs ih =>
    intro n s a h
    rw [List.length_cons, show bs.length + 1 + n = (bs.length + n) + 1 by omega, armSteps, armStep_byte h rfl,
      ih n _ { a with off := a.off + 1 } rfl]
    congr 1
    rw [State.mk.injEq]
    simp [writeBuf, memWriteBytes, Nat.add_assoc, Nat.add_comm 1]

/-- The state in which `arm_in` begins (R186): nothing is written yet, MAIN holds one more reason in `irq_mask` (R85). -/
theorem startArm_eq (i : EpIdx) (data : List Byte) (s : State) : startArm i data s = armStep { s with
    arming := some { idx := i, todo := data, off := 0, len := data.length, wordDone := false }
    irqMask := if Config.cmdAtomic then s.irqMask + 1 else s.irqMask } := rfl

/-- The whole of `arm_in` from the state in which it begins. -/
theorem armSteps_whole (i : EpIdx) (data : List Byte) (s : State) (h : s.arming = none) :
    armSteps (data.length + 2) { s with
      arming := some { idx := i, todo := data, off := 0, len := data.length, wordDone := false }
      irqMask := if Config.cmdAtomic then s.irqMask + 1 else s.irqMask } = reply .done (armIn i data s) := by
  rw [armSteps_copy data 2 _ { idx := i, todo := data, off := 0, len := data.length, wordDone := false } rfl]
  simp only [armSteps]
  have hw : ∀ u : State, ∀ a : Arming, u.arming = some a → a.todo = [] → a.wordDone = false →
      armStep (armStep u) = reply .done { flipToggle a.idx (setBufCtrl a.idx (armInWord u.toggle[a.idx.val] a.len) u) with
        arming := none, irqMask := if Config.cmdAtomic then u.irqMask - 1 else u.irqMask } := by
    intro u a hu ht hd
    rw [armStep_word hu ht hd, armStep_flip (a := { a with wordDone := true }) rfl ht rfl]; rfl
  rw [hw _ _ rfl rfl rfl]
  congr 1
  rw [State.mk.injEq]
  simp only [armIn, writeBuf, setBufCtrl, flipToggle, h, true_and, and_true]
  simp [Config.cmdAtomic]

theorem runArmIn_main (i : EpIdx) (data : List Byte) {s : State} (h : s.ctx = .main) :
    runArmIn i data s = startArm i data s := by unfold runArmIn; rw [h]

theorem runArmIn_irq (i : EpIdx) (data : List Byte) {s : State} (h : s.ctx = .irq) :
    runArmIn i data s = reply .done (armIn i data s) := by unfold runArmIn; rw [h]

theorem armSteps_none : ∀ (n : Nat) {s : State}, s.arming = none → armSteps n s = s
  | 0, _, _ => rfl
  | n + 1, s, h => by rw [armSteps, armStep_none h, armSteps_none n h]

/-- `arm_in` from its first micro-step to its end with no other agent between its steps: the whole of R186, the reply,
and the mask as it was. -/
theorem finishArm_startArm (i : EpIdx) (data : List Byte) (s : State) (h : s.arming = none) :
    finishArm (startArm i data s) = reply .done (armIn i data s) := by
  rw [← armSteps_whole i data s h, startArm_eq]
  generalize hv : ({ s with
    arming := some { idx := i, todo := data, off := 0, len := data.length, wordDone := false }
    irqMask := if Config.cmdAtomic then s.irqMask + 1 else s.irqMask } : State) = v
  have hva : v.arming = some { idx := i, todo := data, off := 0, len := data.length, wordDone := false } := by
    rw [← hv]
  unfold finishArm
  cases data with
  | nil =>
    have e1 := armStep_word hva rfl rfl
    have ha : (armStep v).arming = some { idx := i, todo := [], off := 0, len := 0, wordDone := true } := by
      rw [e1]; rfl
    rw [ha]
    have e2 : (armStep (armStep v)).arming = none := by rw [armStep_flip ha rfl rfl, reply_arming]
    show armSteps 1 (armStep (armStep v)) = armStep (armStep v)
    exact armSteps_none 1 e2
  | cons b bs =>
    have e1 := armStep_byte hva rfl
    have ha : (armStep v).arming = some { idx := i, todo := bs, off := 1, len := (b :: bs).length, wordDone := false } := by
      rw [e1]
    rw [ha]
    rfl

/-- `arm_in` of either context, carried to its end: the whole of R186 and the reply. -/
theorem finishArm_runArmIn (i : EpIdx) (data : List Byte) (s : State) (h : s.arming = none) :
    finishArm (runArmIn i data s) = reply .done (armIn i data s) := by
  rcases hc : s.ctx with _ | _
  · rw [runArmIn_main i data hc, finishArm_startArm i data s h]
  · rw [runArmIn_irq i data hc]
    have : (reply .done (armIn i data s)).arming = none := by simpa [armIn] using h
    unfold finishArm; rw [this]

end Sys2Proof.Machine
end

