-- ==== Sys2Proof/Laws/Step.lean ====
section
/-! SUPPORT. Everything a step, a lock bracket and a check can do, once: later proofs cite these and unfold nothing. -/

namespace Sys2Proof.Machine

/-! What the ports decode to. -/

theorem takeByte_ok {bs : List Byte} {k : Byte → List Byte → Decoded} {x : Instr × List Byte}
    (h : takeByte bs k = .ok x) : ∃ b r, bs = b :: r ∧ k b r = .ok x := by
  cases bs with
  | nil => simp [takeByte] at h
  | cons b r => exact ⟨b, r, rfl, h⟩

theorem takeHalf_ok {bs : List Byte} {k : Half → List Byte → Decoded} {x : Instr × List Byte}
    (h : takeHalf bs k = .ok x) : ∃ v r, k v r = .ok x := by
  unfold takeHalf at h
  split at h
  · exact ⟨_, _, h⟩
  · cases h

theorem takeSeq_ok {n : Nat} {bs : List Byte} {k : List Byte → List Byte → Decoded} {x : Instr × List Byte}
    (h : takeSeq n bs k = .ok x) : ∃ v r, v.length = n ∧ k v r = .ok x := by
  unfold takeSeq at h
  split at h
  · next hn => exact ⟨_, _, by simp [hn], h⟩
  · cases h

theorem takeCounted_ok {bs : List Byte} {k : List Byte → List Byte → Decoded} {x : Instr × List Byte}
    (h : takeCounted bs k = .ok x) : ∃ v r, lengthOk v = true ∧ k v r = .ok x := by
  obtain ⟨n, _, h⟩ := takeHalf_ok h
  obtain ⟨v, r, hv, h⟩ := takeSeq_ok h
  exact ⟨v, r, by have := n.isLt; simp only [lengthOk, decide_eq_true_eq]; omega, h⟩

/-- Bytes cut into values: as many as asked for, each of the size asked for. -/
theorem cutElems_ok (size n : Nat) : ∀ bs : List Byte, n * size ≤ bs.length →
    (cutElems size n bs).length = n ∧ (cutElems size n bs).all (elemOk size) = true := by
  induction n with
  | zero => intro bs _; exact ⟨rfl, rfl⟩
  | succ n ih =>
    intro bs h
    rw [Nat.succ_mul] at h
    obtain ⟨h1, h2⟩ := ih (bs.drop size) (by rw [List.length_drop]; omega)
    simp only [cutElems, List.length_cons, h1, List.all_cons, h2, elemOk, List.length_take, Bool.and_true, beq_iff_eq, true_and]
    omega

theorem takeElems_ok {size : Nat} {bs : List Byte} {k : List Elem → List Byte → Decoded} {x : Instr × List Byte}
    (h : takeElems size bs k = .ok x) : ∃ v r, (lengthOk v && v.all (elemOk size)) = true ∧ k v r = .ok x := by
  obtain ⟨n, _, h⟩ := takeHalf_ok h
  obtain ⟨raw, r, hr, h⟩ := takeSeq_ok h
  obtain ⟨h1, h2⟩ := cutElems_ok size n.toNat raw (by omega)
  exact ⟨_, r, by rw [h2]; have := n.isLt; simp only [lengthOk, h1, decide_eq_true_eq, Bool.and_true]; omega, h⟩

theorem identityOfByte_ok (b : Byte) : identityOk (identityOfByte b) = true := by
  unfold identityOfByte; split
  · rfl
  · next h => simpa [identityOk] using h

theorem takePacket_ok {bs : List Byte} {k : SetupPacket → List Byte → Decoded} {x : Instr × List Byte}
    (h : takePacket bs k = .ok x) : ∃ v r, k v r = .ok x := by
  unfold takePacket at h
  split at h
  · exact ⟨_, _, h⟩
  · cases h

/-- The command port spells commands and nothing else, and each with operands of the right size (R116, R117, R124). -/
theorem decodeCmd_ok {z : Sizes} {bs : List Byte} {i : Instr} {r : List Byte} (h : decodeCmd z bs = .ok (i, r)) :
    i.format = .cmd ∧ i.wf z = true := by
  obtain ⟨op, t, -, h⟩ := takeByte_ok h
  have one : ∀ {f : Byte → Instr} {t : List Byte}, (∀ b, (f b).format = .cmd ∧ (f b).wf z = true) →
      takeByte t (fun b r => .ok (f b, r)) = .ok (i, r) → i.format = .cmd ∧ i.wf z = true := by
    intro f t hf h
    obtain ⟨b, _, -, h⟩ := takeByte_ok h
    cases h; exact hf b
  split at h
  all_goals first
    | exact one (fun _ => ⟨rfl, rfl⟩) h
    | (cases h; first | exact ⟨rfl, rfl⟩ | done)
    | (obtain ⟨v, _, hv, h⟩ := takeCounted_ok h; cases h; exact ⟨rfl, hv⟩)
    | skip
  all_goals obtain ⟨id, _, -, h⟩ := takeByte_ok h
  all_goals first
    | exact one (fun _ => ⟨rfl, rfl⟩) h
    | (cases h; exact ⟨rfl, identityOfByte_ok _⟩)
    | (obtain ⟨v, _, hv, h⟩ := takeCounted_ok h; cases h; exact ⟨rfl, hv⟩)
    | (obtain ⟨v, _, hv, h⟩ := takeElems_ok h; cases h; exact ⟨rfl, hv⟩)
    | (obtain ⟨v, _, h⟩ := takeHalf_ok h; cases h; exact ⟨rfl, rfl⟩)
    | (obtain ⟨v, _, hv, h⟩ := takeSeq_ok h; cases h; exact ⟨rfl, by simp [Instr.wf, elemOk, hv]⟩)
    | skip
  · obtain ⟨e, _, he, h⟩ := takeSeq_ok h
    obtain ⟨n, _, hn, h⟩ := takeSeq_ok h
    cases h; exact ⟨rfl, by simp [Instr.wf, elemOk, he, hn]⟩
  · obtain ⟨at_, _, -, h⟩ := takeByte_ok h
    obtain ⟨mp, _, h⟩ := takeHalf_ok h
    obtain ⟨cb, _, -, h⟩ := takeByte_ok h
    cases h; exact ⟨rfl, identityOfByte_ok _⟩

/-- The bus port spells bus events and nothing else (R118). -/
theorem decodeBus_format {bs : List Byte} {i : Instr} {r : List Byte} (h : decodeBus bs = .ok (i, r)) : i.format = .bus := by
  obtain ⟨op, t, -, h⟩ := takeByte_ok h
  have addr : ∀ {bs : List Byte} {k : BitVec 7 → List Byte → Decoded} {x}, takeAddress bs k = .ok x → ∃ a r, k a r = .ok x := by
    intro bs k x h
    obtain ⟨_, _, -, h⟩ := takeByte_ok h
    split at h
    · exact ⟨_, _, h⟩
    · cases h
  have num : ∀ {bs : List Byte} {k : BitVec 4 → List Byte → Decoded} {x}, takeNumber bs k = .ok x → ∃ a r, k a r = .ok x := by
    intro bs k x h
    obtain ⟨_, _, -, h⟩ := takeByte_ok h
    split at h
    · exact ⟨_, _, h⟩
    · cases h
  split at h
  · cases h; rfl
  · obtain ⟨_, _, h⟩ := addr h; obtain ⟨_, _, h⟩ := takePacket_ok h; cases h; rfl
  · obtain ⟨_, _, h⟩ := addr h; obtain ⟨_, _, h⟩ := num h; cases h; rfl
  · obtain ⟨_, _, h⟩ := addr h
    obtain ⟨_, _, h⟩ := num h
    obtain ⟨_, _, -, h⟩ := takeByte_ok h
    split at h
    · obtain ⟨_, _, h⟩ := takeHalf_ok h
      split at h
      · obtain ⟨_, _, -, h⟩ := takeSeq_ok h; cases h; rfl
      · cases h
    · cases h
  · cases h

/-! One step. -/

/-- Everything a step can do: of `u`, which is `s` with the schedule's entry taken. -/
inductive StepOf (u t : State) : Prop where
  /-- the agent has no move -/
  | idle (h : t = u)
  /-- the `arm_in` under way (R186) -/
  | arm (a : Arming) (ha : u.arming = some a) (h : t = armStep u)
  /-- a waiting command is tried again (R140) -/
  | retry (w : Waiting) (ha : u.arming = none) (hw : u.waiting = some w) (h : exec w.instr u = .next t)
  /-- external code returns (R11) -/
  | extReturn (e : ExtCall) (ok : Bool) (ha : u.arming = none) (hw : u.waiting = none) (he : u.ext = some e)
      (h : t = endCall ok u)
  /-- external code issues a command (R279) -/
  | extIssue (e : ExtCall) (k : Proc) (i : Instr) (ha : u.arming = none) (hw : u.waiting = none) (he : u.ext = some e)
      (hf : i.format = .cmd) (hwf : i.wf (sizesOf u) = true) (h : exec i { u with ext := some { e with rest := k } } = .next t)
  /-- a line of the handler (R230) -/
  | handler (ha : u.arming = none) (hw : u.waiting = none) (he : u.ext = none) (hc : u.ctx = .irq)
      (h : exec (handlerInstr u) u = .next t)
  /-- the handler is entered (R275) -/
  | entry (ha : u.arming = none) (hw : u.waiting = none) (he : u.ext = none) (hc : u.ctx = .main)
      (hn : entryEnabled u = true) (h : t = takeInterrupt u)
  /-- MAIN's next command -/
  | main (i : Instr) (rest : List Byte) (ha : u.arming = none) (hw : u.waiting = none) (he : u.ext = none)
      (hc : u.ctx = .main) (hn : entryEnabled u = false) (hf : i.format = .cmd)
      (hwf : i.wf (sizesOf u) = true) (h : exec i { u with mainPort := rest } = .next t)
  /-- HOST's next event -/
  | host (i : Instr) (rest : List Byte) (hb : busEnabled u = true) (hf : i.format = .bus)
      (h : exec i { u with busPort := rest } = .next t)

theorem procTurn_cases {u t : State} (h : procTurn u = .next t) : StepOf u t := by
  unfold procTurn at h
  split at h
  · next ha =>
    obtain ⟨a, ha⟩ := Option.isSome_iff_exists.1 ha
    cases h; exact .arm a ha rfl
  · next ha =>
    have ha : u.arming = none := by simpa using ha
    split at h
    · next w hw => exact .retry w ha hw h
    · next hw =>
      split at h
      · next e he =>
        unfold extTurn at h
        split at h
        · next ok _ => cases h; exact .extReturn e ok ha hw he rfl
        · next bytes k _ =>
          split at h
          · next i hd => exact .extIssue e k i ha hw he (decodeCmd_ok hd).1 (decodeCmd_ok hd).2 h
          · cases h
      · next he =>
        split at h
        · next hc => exact .handler ha hw he hc h
        · next hc =>
          split at h
          · next hn => cases h; exact .entry ha hw he hc hn rfl
          · next hn =>
            unfold mainTurn at h
            split at h
            · cases h; exact .idle rfl
            · split at h
              · next i rest hd => exact .main i rest ha hw he hc (by simpa using hn) (decodeCmd_ok hd).1 (decodeCmd_ok hd).2 h
              · cases h

theorem hostTurn_cases {u t : State} (h : hostTurn u = .next t) : StepOf u t := by
  unfold hostTurn at h
  split at h
  · cases h; exact .idle rfl
  · next hb =>
    split at h
    · cases h; exact .idle rfl
    · split at h
      · next i rest hd => exact .host i rest (by simpa using hb) (decodeBus_format hd) h
      · cases h

/-- A step that goes on does one of the nine things, on `s` with its schedule's first entry taken. -/
theorem step_cases {s t : State} (h : step s = .next t) :
    s.fault = none ∧ ∃ sched, StepOf { s with sched := sched } t := by
  unfold step stepOnce at h
  split at h
  · cases h
  · next hf =>
    refine ⟨hf, ?_⟩
    split at h
    · exact ⟨_, hostTurn_cases h⟩
    · exact ⟨_, procTurn_cases h⟩
    · refine ⟨s.sched, ?_⟩
      split at h
      · exact procTurn_cases h
      · exact hostTurn_cases h

/-- A predicate that the ports and the schedule do not touch, and that every operation, every micro-step of `arm_in`, the
entry and a return of external code keep, is kept by every step. -/
theorem step_keeps {P : State → Prop} {s t : State}
    (hport : ∀ u sched mp bp, P u → P { u with sched := sched, mainPort := mp, busPort := bp })
    (hext : ∀ (u : State) (e e' : ExtCall), u.ext = some e → P u → P { u with ext := some e' })
    (harm : ∀ u, P u → P (armStep u)) (hend : ∀ u ok, P u → P (endCall ok u)) (hentry : ∀ u, P u → P (takeInterrupt u))
    (hexec : ∀ i u v, P u → exec i u = .next v → P v) (hs : P s) (h : step s = .next t) : P t := by
  obtain ⟨-, sched, h⟩ := step_cases h
  have hu : P { s with sched := sched } := hport s sched s.mainPort s.busPort hs
  cases h with
  | idle h => exact h ▸ hu
  | arm a _ h => exact h ▸ harm _ hu
  | retry w _ _ h => exact hexec _ _ _ hu h
  | extReturn e ok _ _ _ h => exact h ▸ hend _ _ hu
  | extIssue e k i _ _ he _ _ h => exact hexec _ _ _ (hext _ e _ he hu) h
  | handler _ _ _ _ h => exact hexec _ _ _ hu h
  | entry _ _ _ _ _ h => exact h ▸ hentry _ hu
  | main i rest _ _ _ _ _ _ _ h => exact hexec _ _ _ (hport _ sched rest s.busPort hu) h
  | host i rest _ _ h => exact hexec _ _ _ (hport _ sched s.mainPort rest hu) h

/-! Brackets, checks and guards, by what they answer. -/

/-- A holder operation that goes on: it took the free lock, changed one value and gave the lock back; or it waits. -/
theorem holderOp_cases {i : Instr} {id : Byte} {s t : State} {f : Elem → Elem × Result} (h : holderOp i id s f = .next t) :
    ∃ q, s.holders[id.toNat]? = some q ∧
      ((LockFree s q.lock ∧ t = reply (f q.value).2 { s with
          holders := s.holders.set id.toNat { q with value := (f q.value).1 }, waiting := none }) ∨
       (LockOwned s q.lock ∧ t = { s with waiting := some { instr := i, lock := q.lock, inner := false } })) := by
  unfold holderOp at h
  split at h
  · cases h
  · next q hq =>
    refine ⟨q, hq, ?_⟩
    simp only [withLock] at h
    obtain ⟨hl, h⟩ | ⟨hl, h⟩ := acquireOrWait_cases h
    · refine .inl ⟨hl, ?_⟩
      have hra := release_acquire s { acquireLock q.lock s with
        holders := s.holders.set id.toNat { q with value := (f q.value).1 } } q.lock hl rfl rfl rfl
      cases h
      congr 1
      simp only [releaseLock, acquireLock] at hra ⊢
      rw [State.mk.injEq]
      simp only [hra.1, hra.2, and_self]
    · exact .inr ⟨hl, h⟩

/-- The same for a FIFO operation with one bracket. -/
theorem fifoOp_cases {i : Instr} {id : Byte} {s t : State} {f : Fifo → Fifo × Result} (h : fifoOp i id s f = .next t) :
    ∃ q, s.fifos[id.toNat]? = some q ∧
      ((LockFree s q.lock ∧ t = reply (f q).2 { s with fifos := s.fifos.set id.toNat (f q).1, waiting := none }) ∨
       (LockOwned s q.lock ∧ t = { s with waiting := some { instr := i, lock := q.lock, inner := false } })) := by
  unfold fifoOp at h
  split at h
  · cases h
  · next q hq =>
    refine ⟨q, hq, ?_⟩
    simp only [withLock] at h
    obtain ⟨hl, h⟩ | ⟨hl, h⟩ := acquireOrWait_cases h
    · refine .inl ⟨hl, ?_⟩
      have hra := release_acquire s { acquireLock q.lock s with
        fifos := s.fifos.set id.toNat (f q).1 } q.lock hl rfl rfl rfl
      cases h
      congr 1
      simp only [releaseLock, acquireLock] at hra ⊢
      rw [State.mk.injEq]
      simp only [hra.1, hra.2, and_self]
    · exact .inr ⟨hl, h⟩

theorem whenEnabled_next {s t : State} {k : Outcome} (h : whenEnabled s k = .next t) : busEnabled s = true ∧ k = .next t := by
  unfold whenEnabled at h
  split at h
  · next hb => exact ⟨hb, h⟩
  · cases h

theorem whenEnabled_of {s : State} {k : Outcome} (h1 : s.initialized = true) (h2 : s.pullup = true) : whenEnabled s k = k := by
  simp [whenEnabled, busEnabled, h1, h2]

/-- A command with an identity operand goes on only where the identity names a procedure (R126 g). -/
theorem withProc_next {s t : State} {fn : Option Byte} {k : Outcome} (h : withProc s fn k = .next t) :
    procNamed s fn = true ∧ k = .next t := by
  unfold withProc at h
  split at h
  · next hn => exact ⟨hn, h⟩
  · cases h

theorem withProc_of {s : State} {fn : Option Byte} {k : Outcome} (h : procNamed s fn = true) : withProc s fn k = k := by
  simp [withProc, h]

/-- A call that goes on begins a procedure that exists. -/
theorem callProc_next {s t : State} {f : Byte} {args : List Byte} (h : callProc f args s = .next t) :
    ∃ p, procBody s.procs f = some p ∧ t = beginCall p args s := by
  unfold callProc at h
  split at h
  · cases h
  · next p hp => cases h; exact ⟨p, hp, rfl⟩

theorem raise_of {s : State} (k : FaultKind) (h : s.fault = none) : raise k s = .next { s with fault := some k } := by
  simp [raise, h]

end Sys2Proof.Machine
end

