-- ==== Sys2Proof/Laws/Frames.lean ====
section
/-! SUPPORT. What each composite operation leaves alone: every field not named is the state's own. -/

namespace Sys2Proof.Machine

theorem acceptSetup_frame (p : SetupPacket) (s : State) : acceptSetup p s =
    { s with mem := (acceptSetup p s).mem, setupReqLatch := true, events := s.events ++ [.setupAccepted p] } := by
  simp only [acceptSetup, emit, setBufCtrl, setSetupHw]

theorem completeIn_frame (n : BitVec 4) (s : State) : completeIn n s =
    { s with
      mem := (completeIn n s).mem
      bufStatus := setBit s.bufStatus (idxOf n true).val true
      events := s.events ++ [.tx n ((bufCtrl s (idxOf n true)).getLsbD bcPid)
        (readBuf s (idxOf n true) (bcLen (bufCtrl s (idxOf n true))).toNat)] } := by
  simp only [completeIn, emit, setBufCtrl, setBufStatus]

theorem completeIn_mem (n : BitVec 4) (s : State) : (completeIn n s).mem =
    (setBufCtrl (idxOf n true) (inDoneWord (bufCtrl s (idxOf n true))) s).mem := by
  simp only [completeIn, emit, setBufCtrl, setBufStatus]

theorem completeOut_frame (n : BitVec 4) (pid : Bool) (data : List Byte) (s : State) : completeOut n pid data s =
    { s with
      mem := (completeOut n pid data s).mem
      bufStatus := setBit s.bufStatus (idxOf n false).val true
      events := s.events ++ [.rx n pid data] } := by
  simp only [completeOut, emit, setBufCtrl, setBufStatus, writeBuf]

theorem completeOut_mem (n : BitVec 4) (pid : Bool) (data : List Byte) (s : State) : (completeOut n pid data s).mem =
    (setBufCtrl (idxOf n false) (outDoneWord (bufCtrl s (idxOf n false)) data.length) (writeBuf (idxOf n false) 0 data s)).mem := by
  simp only [completeOut, emit, setBufCtrl, setBufStatus, writeBuf]

theorem armIn_frame (i : EpIdx) (data : List Byte) (s : State) : armIn i data s =
    { s with mem := (armIn i data s).mem, toggle := s.toggle.set i.val (!s.toggle[i.val]) } := by
  simp only [armIn, flipToggle, setBufCtrl, writeBuf]

theorem armIn_mem (i : EpIdx) (data : List Byte) (s : State) : (armIn i data s).mem =
    (setBufCtrl i (armInWord s.toggle[i.val] data.length) (writeBuf i 0 data s)).mem := by
  simp only [armIn, flipToggle, setBufCtrl, writeBuf]

theorem armOut_frame (i : EpIdx) (m : Nat) (s : State) : armOut i m s =
    { s with mem := (armOut i m s).mem, toggle := s.toggle.set i.val (!s.toggle[i.val]) } := by
  simp only [armOut, flipToggle, setBufCtrl]

theorem armOut_mem (i : EpIdx) (m : Nat) (s : State) :
    (armOut i m s).mem = (setBufCtrl i (armOutWord s.toggle[i.val] m) s).mem := by
  simp only [armOut, flipToggle, setBufCtrl]

theorem configureEp_frame (i : EpIdx) (ty : BitVec 2) (cb : Option Byte) (s : State) : configureEp i ty cb s =
    { s with
      mem := (setEpCtrl i (mkEpCtrl true ty (BitVec.ofNat 16 (bufAddr i))) s).mem
      toggle := s.toggle.set i.val false
      callback := s.callback.set i.val cb } := by
  simp only [configureEp, setToggle, setEpCtrl]

theorem stallControl_frame (s : State) : stallControl s = { s with mem := (stallControl s).mem } := by
  simp only [stallControl, setBufCtrl]

/-- A register word depends on DPRAM alone. -/
theorem bufCtrl_congr {s t : State} (h : s.mem = t.mem) (i : EpIdx) : bufCtrl s i = bufCtrl t i := by
  unfold bufCtrl; rw [h]

theorem epCtrl_congr {s t : State} (h : s.mem = t.mem) (i : EpIdx) : epCtrl s i = epCtrl t i := by
  unfold epCtrl; rw [h]

theorem setupHw_congr {s t : State} (h : s.mem = t.mem) : setupHw s = setupHw t := by
  unfold setupHw; simp only [h]

/-- FIFO.PULL between two FIFOs whose locks are free and distinct: the body of R164, every lock and the mask as before. -/
theorem execFifoPull_ready {s : State} {id other : Byte} {a b : Fifo} (ha : FifoReady s id a) (hb : FifoReady s other b)
    (hlk : a.lock ≠ b.lock) (hsz : a.size = b.size) : execFifoPull id other s = .next (reply (.count (pullCount a b)) { s with
      fifos := (s.fifos.set id.toNat (fifoPush a (fifoOldest b (pullCount a b)))).set other.toNat
        (fifoDrop b (pullCount a b)) }) := by
  have hl2 : LockFree (acquireLock a.lock s) b.lock := by
    simp only [LockFree, acquireLock_locks]; rw [List.getElem?_set_ne hlk]; exact hb.2.2.1
  have h1 := release_acquire (acquireLock a.lock s) (pullBody id other a b (acquireLock b.lock (acquireLock a.lock s)))
    b.lock hl2 rfl rfl rfl
  have h2 := release_acquire s (releaseLock b.lock (pullBody id other a b (acquireLock b.lock (acquireLock a.lock s))))
    a.lock ha.2.2.1 h1.1 h1.2 rfl
  simp only [execFifoPull, ha.1, hb.1, hsz, ne_eq, not_true_eq_false, pullHoldsOuter, ha.2.2.2, Bool.false_eq_true, if_false]
  rw [acquireOrWait_free ha.2.2.1, pullInner, acquireOrWait_free hl2]
  simp only [releaseLock, pullBody, acquireLock] at h2 ⊢
  refine congrArg Host.Outcome.next (congrArg (reply _) ?_)
  rw [State.mk.injEq]
  simp only [h2.1, h2.2, and_self]

/-- No bus event writes anything of the processor side. -/
theorem bus_frame {i : Instr} {s t : State} (hf : i.format = .bus) (h : exec i s = .next t) :
    t = { s with
      mem := t.mem
      busResetLatch := t.busResetLatch
      setupReqLatch := t.setupReqLatch
      bufStatus := t.bufStatus
      events := t.events } := by
  cases i <;> simp only [Instr.format, reduceCtorEq] at hf
  · rw [exec_busReset] at h; obtain ⟨-, h⟩ := whenEnabled_next h; cases h; rfl
  · rw [exec_busSetup] at h; obtain ⟨-, h⟩ := whenEnabled_next h
    split at h
    · cases h; rw [acceptSetup_frame]
    · cases h; rfl
  · rw [exec_busIn] at h; obtain ⟨-, h⟩ := whenEnabled_next h
    repeat' split at h
    · cases h; rfl
    · cases h; rfl
    · cases h; rfl
    · cases h; rw [completeIn_frame]
    · cases h
  · rw [exec_busOut] at h; obtain ⟨-, h⟩ := whenEnabled_next h
    repeat' split at h
    · cases h; rfl
    · cases h; rfl
    · cases h; rfl
    · cases h
    · cases h; rw [completeOut_frame]
    · cases h

end Sys2Proof.Machine
end

