-- ==== Sys2Proof/Laws/PerInstr.lean ====
section
/-! SUPPORT. Per operation: what its encoder writes fits the row spec/opcode_table.json gives it. The match and mask
values below are copied from that table, not from the encoder. -/

namespace Sys2Proof.Laws.TableRow

/-- The row's `match` and `mask` (spec/opcode_table.json). -/
def row : Instr → Nat × Nat
  | .lockAcquire _ => (0x01, 0xFF)
  | .lockRelease _ => (0x02, 0xFF)
  | .shGet _ => (0x08, 0xFF)
  | .shIs _ _ => (0x09, 0xFF)
  | .shTransition _ _ _ => (0x0A, 0xFF)
  | .shForce _ _ => (0x0B, 0xFF)
  | .fifoEnqueue _ _ => (0x10, 0xFF)
  | .fifoDequeue _ _ => (0x11, 0xFF)
  | .fifoErase _ _ => (0x12, 0xFF)
  | .fifoPull _ _ => (0x13, 0xFF)
  | .fifoClear _ => (0x14, 0xFF)
  | .fifoFind _ _ => (0x15, 0xFF)
  | .fifoOccupied _ => (0x16, 0xFF)
  | .fifoFree _ => (0x17, 0xFF)
  | .fifoCapacity _ => (0x18, 0xFF)
  | .devInit => (0x20, 0xFF)
  | .devSetResolver _ => (0x21, 0xFF)
  | .devConfigureEp _ _ _ _ => (0x22, 0xFF)
  | .devControlSend _ => (0x23, 0xFF)
  | .devSend _ _ => (0x24, 0xFF)
  | .devReceive _ _ => (0x25, 0xFF)
  | .devIsSendPending _ => (0x26, 0xFF)
  | .devStallControl => (0x27, 0xFF)
  | .busReset => (0x40, 0xFF)
  | .busSetup _ _ => (0x41, 0xFF)
  | .busIn _ _ => (0x42, 0xFF)
  | .busOut _ _ _ _ => (0x43, 0xFF)
  | .irqEntry => (0x00000000, 0x00000000)
  | .irqBusReset => (0x00001000, 0x00001000)
  | .irqSetup => (0x00010000, 0x00010000)
  | .irqBuff => (0x00000010, 0x00000010)
  | .irqExit => (0x00000000, 0x00000000)
  | .completeEp0In => (0x00, 0x1F)
  | .completeOut _ => (0x01, 0x01)
  | .completeIn _ => (0x00, 0x01)
  | .setupSetAddress _ _ _ => (0x0500, 0xFFFF)
  | .setupSetConfiguration _ _ _ => (0x0900, 0xFFFF)
  | .setupOther _ => (0x0000, 0x0000)

/-- How many bytes the row's number spans (R130). -/
def rowBytes : Format → Nat
  | .cmd | .bus | .epidx => 1
  | .ints => 4
  | .setup8 => 2

/-- The number that bytes spell, the first holding bits 7:0. -/
def number : List Byte → Nat
  | [] => 0
  | b :: bs => b.toNat + 256 * number bs

/-- The operation's leading bytes have the row's fixed bits, and its encoding is not empty. -/
def Statement (i : Instr) : Prop :=
  ∀ z : Sizes, i.wf z = true → encode i ≠ [] ∧ number ((encode i).take (rowBytes i.format)) &&& (row i).2 = (row i).1

theorem lockAcquire (id : Byte) : Statement (.lockAcquire id) := fun _ _ => ⟨by simp [encode], by simp [encode, halfBytes, lengthBytes, packetBytes, wordBytes, wordByte, Instr.format, rowBytes, number, row]⟩
theorem lockRelease (id : Byte) : Statement (.lockRelease id) := fun _ _ => ⟨by simp [encode], by simp [encode, halfBytes, lengthBytes, packetBytes, wordBytes, wordByte, Instr.format, rowBytes, number, row]⟩
theorem shGet (id : Byte) : Statement (.shGet id) := fun _ _ => ⟨by simp [encode], by simp [encode, halfBytes, lengthBytes, packetBytes, wordBytes, wordByte, Instr.format, rowBytes, number, row]⟩
theorem shIs (id : Byte) (v : Elem) : Statement (.shIs id v) := fun _ _ => ⟨by simp [encode], by simp [encode, halfBytes, lengthBytes, packetBytes, wordBytes, wordByte, Instr.format, rowBytes, number, row]⟩
theorem shTransition (id : Byte) (e : Elem) (n : Elem) : Statement (.shTransition id e n) := fun _ _ => ⟨by simp [encode], by simp [encode, halfBytes, lengthBytes, packetBytes, wordBytes, wordByte, Instr.format, rowBytes, number, row]⟩
theorem shForce (id : Byte) (n : Elem) : Statement (.shForce id n) := fun _ _ => ⟨by simp [encode], by simp [encode, halfBytes, lengthBytes, packetBytes, wordBytes, wordByte, Instr.format, rowBytes, number, row]⟩
theorem fifoEnqueue (id : Byte) (xs : List Elem) : Statement (.fifoEnqueue id xs) := fun _ _ => ⟨by simp [encode], by simp [encode, halfBytes, lengthBytes, packetBytes, wordBytes, wordByte, Instr.format, rowBytes, number, row]⟩
theorem fifoDequeue (id : Byte) (m : Half) : Statement (.fifoDequeue id m) := fun _ _ => ⟨by simp [encode], by simp [encode, halfBytes, lengthBytes, packetBytes, wordBytes, wordByte, Instr.format, rowBytes, number, row]⟩
theorem fifoErase (id : Byte) (n : Half) : Statement (.fifoErase id n) := fun _ _ => ⟨by simp [encode], by simp [encode, halfBytes, lengthBytes, packetBytes, wordBytes, wordByte, Instr.format, rowBytes, number, row]⟩
theorem fifoPull (id : Byte) (o : Byte) : Statement (.fifoPull id o) := fun _ _ => ⟨by simp [encode], by simp [encode, halfBytes, lengthBytes, packetBytes, wordBytes, wordByte, Instr.format, rowBytes, number, row]⟩
theorem fifoClear (id : Byte) : Statement (.fifoClear id) := fun _ _ => ⟨by simp [encode], by simp [encode, halfBytes, lengthBytes, packetBytes, wordBytes, wordByte, Instr.format, rowBytes, number, row]⟩
theorem fifoFind (id : Byte) (m : Elem) : Statement (.fifoFind id m) := fun _ _ => ⟨by simp [encode], by simp [encode, halfBytes, lengthBytes, packetBytes, wordBytes, wordByte, Instr.format, rowBytes, number, row]⟩
theorem fifoOccupied (id : Byte) : Statement (.fifoOccupied id) := fun _ _ => ⟨by simp [encode], by simp [encode, halfBytes, lengthBytes, packetBytes, wordBytes, wordByte, Instr.format, rowBytes, number, row]⟩
theorem fifoFree (id : Byte) : Statement (.fifoFree id) := fun _ _ => ⟨by simp [encode], by simp [encode, halfBytes, lengthBytes, packetBytes, wordBytes, wordByte, Instr.format, rowBytes, number, row]⟩
theorem fifoCapacity (id : Byte) : Statement (.fifoCapacity id) := fun _ _ => ⟨by simp [encode], by simp [encode, halfBytes, lengthBytes, packetBytes, wordBytes, wordByte, Instr.format, rowBytes, number, row]⟩
theorem devInit : Statement .devInit := fun _ _ => ⟨by simp [encode], by simp [encode, halfBytes, lengthBytes, packetBytes, wordBytes, wordByte, Instr.format, rowBytes, number, row]⟩
theorem devSetResolver (fn : Option Byte) : Statement (.devSetResolver fn) := fun _ _ => ⟨by simp [encode], by simp [encode, halfBytes, lengthBytes, packetBytes, wordBytes, wordByte, Instr.format, rowBytes, number, row]⟩
theorem devConfigureEp (ep : Byte) (a : Byte) (mp : Half) (cb : Option Byte) : Statement (.devConfigureEp ep a mp cb) := fun _ _ => ⟨by simp [encode], by simp [encode, halfBytes, lengthBytes, packetBytes, wordBytes, wordByte, Instr.format, rowBytes, number, row]⟩
theorem devControlSend (xs : List Byte) : Statement (.devControlSend xs) := fun _ _ => ⟨by simp [encode], by simp [encode, halfBytes, lengthBytes, packetBytes, wordBytes, wordByte, Instr.format, rowBytes, number, row]⟩
theorem devSend (ep : Byte) (xs : List Byte) : Statement (.devSend ep xs) := fun _ _ => ⟨by simp [encode], by simp [encode, halfBytes, lengthBytes, packetBytes, wordBytes, wordByte, Instr.format, rowBytes, number, row]⟩
theorem devReceive (ep : Byte) (m : Half) : Statement (.devReceive ep m) := fun _ _ => ⟨by simp [encode], by simp [encode, halfBytes, lengthBytes, packetBytes, wordBytes, wordByte, Instr.format, rowBytes, number, row]⟩
theorem devIsSendPending (ep : Byte) : Statement (.devIsSendPending ep) := fun _ _ => ⟨by simp [encode], by simp [encode, halfBytes, lengthBytes, packetBytes, wordBytes, wordByte, Instr.format, rowBytes, number, row]⟩
theorem devStallControl : Statement .devStallControl := fun _ _ => ⟨by simp [encode], by simp [encode, halfBytes, lengthBytes, packetBytes, wordBytes, wordByte, Instr.format, rowBytes, number, row]⟩
theorem busReset : Statement .busReset := fun _ _ => ⟨by simp [encode], by simp [encode, halfBytes, lengthBytes, packetBytes, wordBytes, wordByte, Instr.format, rowBytes, number, row]⟩
theorem busSetup (a : BitVec 7) (p : SetupPacket) : Statement (.busSetup a p) := fun _ _ => ⟨by simp [encode], by simp [encode, halfBytes, lengthBytes, packetBytes, wordBytes, wordByte, Instr.format, rowBytes, number, row]⟩
theorem busIn (a : BitVec 7) (n : BitVec 4) : Statement (.busIn a n) := fun _ _ => ⟨by simp [encode], by simp [encode, halfBytes, lengthBytes, packetBytes, wordBytes, wordByte, Instr.format, rowBytes, number, row]⟩
theorem busOut (a : BitVec 7) (n : BitVec 4) (pid : Bool) (xs : List Byte) : Statement (.busOut a n pid xs) := fun _ _ => ⟨by simp [encode], by simp [encode, halfBytes, lengthBytes, packetBytes, wordBytes, wordByte, Instr.format, rowBytes, number, row]⟩
theorem irqEntry : Statement .irqEntry := fun _ _ => ⟨by simp [encode, wordBytes], by simp [encode, halfBytes, lengthBytes, packetBytes, wordBytes, wordByte, Instr.format, rowBytes, number, row]⟩
theorem irqBusReset : Statement .irqBusReset := fun _ _ => ⟨by simp [encode, wordBytes], by simp [encode, halfBytes, lengthBytes, packetBytes, wordBytes, wordByte, Instr.format, rowBytes, number, row]⟩
theorem irqSetup : Statement .irqSetup := fun _ _ => ⟨by simp [encode, wordBytes], by simp [encode, halfBytes, lengthBytes, packetBytes, wordBytes, wordByte, Instr.format, rowBytes, number, row]⟩
theorem irqBuff : Statement .irqBuff := fun _ _ => ⟨by simp [encode, wordBytes], by simp [encode, halfBytes, lengthBytes, packetBytes, wordBytes, wordByte, Instr.format, rowBytes, number, row]⟩
theorem irqExit : Statement .irqExit := fun _ _ => ⟨by simp [encode, wordBytes], by simp [encode, halfBytes, lengthBytes, packetBytes, wordBytes, wordByte, Instr.format, rowBytes, number, row]⟩
theorem completeEp0In : Statement .completeEp0In := fun _ _ => ⟨by simp [encode], by simp [encode, halfBytes, lengthBytes, packetBytes, wordBytes, wordByte, Instr.format, rowBytes, number, row]⟩
theorem completeOut (i : EpIdx) : Statement (.completeOut i) := by
  intro z; revert i; simp only [Instr.wf]; decide
theorem completeIn (i : EpIdx) : Statement (.completeIn i) := by
  intro z; revert i; simp only [Instr.wf]; decide
theorem setupSetAddress (v : Half) (i : Half) (l : Half) : Statement (.setupSetAddress v i l) := fun _ _ => ⟨by simp [encode, packetBytes], by simp [encode, halfBytes, lengthBytes, packetBytes, wordBytes, wordByte, Instr.format, rowBytes, number, row]⟩
theorem setupSetConfiguration (v : Half) (i : Half) (l : Half) : Statement (.setupSetConfiguration v i l) := fun _ _ => ⟨by simp [encode, packetBytes], by simp [encode, halfBytes, lengthBytes, packetBytes, wordBytes, wordByte, Instr.format, rowBytes, number, row]⟩
theorem setupOther (p : SetupPacket) : Statement (.setupOther p) := fun _ _ => ⟨by simp [encode, packetBytes], by simp [row]⟩

end Sys2Proof.Laws.TableRow
end

