-- ==== Sys2Proof/Tests/Slice0.lean ====
section
/-! SUPPORT. Small checks: the ill-formed terms `wf` refuses, words written out from the encoding tables, one step per
operation with the values of 95_test_vectors.md (the vector is named), and for each statement a state and operands that
meet its hypotheses. -/

namespace Sys2Proof.Tests

open Sys2Proof Sys2Proof.Machine

/-! Helpers. -/

/-- The outcome is a next state of which `p` holds. -/
def nextIs (o : Outcome) (p : State → Bool) : Bool :=
  match o with
  | .next t => p t
  | _ => false

theorem next_of {o : Outcome} {p : State → Bool} (h : nextIs o p = true) : ∃ t, o = .next t ∧ p t = true := by
  unfold nextIs at h; split at h
  · exact ⟨_, rfl, h⟩
  · cases h

/-- After DEV.INIT (95_test_vectors.md, start of part 1). -/
def booted : State := initBlock State.reset

/-- The handler stands at a position. -/
def at_ (p : HandlerPos) (s : State) : State := { s with ctx := .irq, hpc := p }

/-- A packet is on record. -/
def withSetup (p : SetupPacket) (s : State) : State := { s with lastSetup := p, setupValid := true }

/-- Values of a type of one byte (R124). -/
def el (bs : List Byte) : List Elem := bs.map fun b => [b]

/-- FIFO 0 is this one. -/
def withFifo (slots : List Byte) (w r : Nat) (s : State) : State :=
  { s with fifos := s.fifos.set 0 { slots := el slots, w := w, r := r, lock := 2, size := 1 } }

/-- Holder 0 has this value. -/
def withHolder (v : Byte) (s : State) : State := { s with holders := [{ value := [v], lock := 0, size := 1 }] }

/-- External procedures 0, 2, 3 and 0xFE exist. -/
def withProcs (s : State) : State :=
  { s with procs := [(0, .ret true), (2, .ret false), (3, .ret false), (0xFE, .ret false)] }

/-- What was returned last to MAIN. -/
def returned (t : State) (r : Result) : Bool := t.mainOut.getLast? == some r

/-- SET_ADDRESS(5), S6. -/
def setAddress5 : SetupPacket := ⟨0x00, 0x05, 0x0005, 0, 0⟩
/-- SET_CONFIGURATION(1), P1. -/
def setConfig1 : SetupPacket := ⟨0x00, 0x09, 0x0001, 0, 0⟩
/-- A request with direction bit 1, P2. -/
def getDescriptor : SetupPacket := ⟨0x80, 0x06, 0x0100, 0, 0x0040⟩

/-! Ill-formed terms. -/

theorem test_wf_refuses_identity_ff : Instr.wf .bytes (.devSetResolver (some 0xFF)) = false := by decide
theorem test_wf_refuses_callback_ff : Instr.wf .bytes (.devConfigureEp 0x81 2 64 (some 0xFF)) = false := by decide
theorem test_wf_refuses_long_enqueue : Instr.wf .bytes (.fifoEnqueue 0 (List.replicate 65536 [0])) = false := by
  simp only [Instr.wf, lengthOk, List.length_replicate]; rfl
theorem test_wf_refuses_long_control_send : Instr.wf .bytes (.devControlSend (List.replicate 65536 0)) = false := by
  simp only [Instr.wf, lengthOk, List.length_replicate]; decide
theorem test_wf_refuses_long_send : Instr.wf .bytes (.devSend 0x81 (List.replicate 65536 0)) = false := by
  simp only [Instr.wf, lengthOk, List.length_replicate]; decide
theorem test_wf_refuses_long_out : Instr.wf .bytes (.busOut 0 1 false (List.replicate 1024 0)) = false := by
  simp only [Instr.wf, List.length_replicate]; decide
theorem test_wf_refuses_wide_values :
    Instr.wf .bytes (.shIs 0 [1, 2]) = false ∧ Instr.wf .bytes (.shTransition 0 [1] []) = false ∧
    Instr.wf .bytes (.shForce 0 []) = false ∧ Instr.wf .bytes (.fifoEnqueue 0 [[1], [2, 3]]) = false ∧
    Instr.wf .bytes (.fifoFind 0 [1, 2]) = false ∧ Instr.wf ⟨[], [2]⟩ (.fifoFind 0 [1]) = false := by decide
theorem test_wf_refuses_even_complete_out : Instr.wf .bytes (.completeOut 2) = false := by decide
theorem test_wf_refuses_odd_complete_in : Instr.wf .bytes (.completeIn 3) = false := by decide
theorem test_wf_refuses_zero_complete_in : Instr.wf .bytes (.completeIn 0) = false := by decide
theorem test_wf_refuses_other_set_address : Instr.wf .bytes (.setupOther setAddress5) = false := by decide
theorem test_wf_refuses_other_set_configuration : Instr.wf .bytes (.setupOther setConfig1) = false := by decide

/-! Words of V1, written out from the tables. -/

theorem test_decode_lock_holder :
    decodeCmd .bytes [0x01, 0x00] = .ok (.lockAcquire 0, []) ∧ decodeCmd .bytes [0x02, 0x00] = .ok (.lockRelease 0, []) ∧
    decodeCmd .bytes [0x08, 0x00] = .ok (.shGet 0, []) ∧ decodeCmd .bytes [0x09, 0x00, 0x02] = .ok (.shIs 0 [2], []) ∧
    decodeCmd .bytes [0x0A, 0x00, 0x01, 0x02] = .ok (.shTransition 0 [1] [2], []) ∧
    decodeCmd .bytes [0x0B, 0x03, 0x04] = .ok (.shForce 3 [4], []) := by decide

theorem test_decode_fifo :
    decodeCmd .bytes [0x10, 0x00, 0x03, 0x00, 0x01, 0x02, 0x03] = .ok (.fifoEnqueue 0 [[1], [2], [3]], []) ∧
    decodeCmd .bytes [0x11, 0x00, 0x02, 0x01] = .ok (.fifoDequeue 0 0x0102, []) ∧
    decodeCmd .bytes [0x12, 0x00, 0x05, 0x00] = .ok (.fifoErase 0 5, []) ∧
    decodeCmd .bytes [0x13, 0x00, 0x01] = .ok (.fifoPull 0 1, []) ∧ decodeCmd .bytes [0x14, 0x00] = .ok (.fifoClear 0, []) ∧
    decodeCmd .bytes [0x15, 0x00, 0x0D] = .ok (.fifoFind 0 [0x0D], []) ∧ decodeCmd .bytes [0x16, 0x00] = .ok (.fifoOccupied 0, []) ∧
    decodeCmd .bytes [0x17, 0x00] = .ok (.fifoFree 0, []) ∧ decodeCmd .bytes [0x18, 0x00] = .ok (.fifoCapacity 0, []) := by decide

/-- A holder of two-byte values and a FIFO of three-byte elements (R124): the count is of elements (R122). -/
theorem test_decode_wide :
    decodeCmd ⟨[2], [3]⟩ [0x0B, 0x00, 0x34, 0x12] = .ok (.shForce 0 [0x34, 0x12], []) ∧
    decodeCmd ⟨[2], [3]⟩ [0x10, 0x00, 0x02, 0x00, 1, 2, 3, 4, 5, 6, 7] = .ok (.fifoEnqueue 0 [[1, 2, 3], [4, 5, 6]], [7]) ∧
    decodeCmd ⟨[2], [3]⟩ [0x15, 0x00, 1, 2] = .error .truncated := by decide

theorem test_decode_device :
    decodeCmd .bytes [0x20] = .ok (.devInit, []) ∧ decodeCmd .bytes [0x21, 0x00] = .ok (.devSetResolver (some 0), []) ∧
    decodeCmd .bytes [0x21, 0xFF] = .ok (.devSetResolver none, []) ∧
    decodeCmd .bytes [0x22, 0x81, 0x02, 0x40, 0x00, 0x02] = .ok (.devConfigureEp 0x81 0x02 64 (some 2), []) ∧
    decodeCmd .bytes [0x23, 0x02, 0x00, 0x12, 0x01] = .ok (.devControlSend [0x12, 0x01], []) ∧
    decodeCmd .bytes [0x24, 0x81, 0x02, 0x00, 0x41, 0x42] = .ok (.devSend 0x81 [0x41, 0x42], []) ∧
    decodeCmd .bytes [0x25, 0x01, 0x40, 0x00] = .ok (.devReceive 0x01 64, []) ∧
    decodeCmd .bytes [0x26, 0x81] = .ok (.devIsSendPending 0x81, []) ∧ decodeCmd .bytes [0x27] = .ok (.devStallControl, []) := by decide

theorem test_decode_bus :
    decodeBus [0x40] = .ok (.busReset, []) ∧
    decodeBus [0x41, 0x00, 0x00, 0x05, 0x85, 0xFF, 0x00, 0x00, 0x00, 0x00] =
      .ok (.busSetup 0 ⟨0x00, 0x05, 0xFF85, 0, 0⟩, []) ∧
    decodeBus [0x42, 0x05, 0x01] = .ok (.busIn 5 1, []) ∧
    decodeBus [0x43, 0x05, 0x01, 0x00, 0x03, 0x00, 0x41, 0x54, 0x0D] = .ok (.busOut 5 1 false [0x41, 0x54, 0x0D], []) := by
  decide

theorem test_decode_handler :
    decodeInts 0x00001000 = .irqBusReset ∧ decodeInts 0x00010000 = .irqSetup ∧ decodeInts 0x00000010 = .irqBuff ∧
    decodePhases 0x00010010 = [.irqEntry, .irqSetup, .irqBuff, .irqExit] ∧ decodePhases 0 = [.irqEntry, .irqExit] ∧
    decodeIndex 0 = .completeEp0In ∧ decodeIndex 1 = .completeOut 1 ∧ decodeIndex 30 = .completeIn 30 := by decide

theorem test_decode_setup :
    decodeAs .bytes .setup8 [0x00, 0x05, 0xFF, 0xFF, 0, 0, 0, 0] = .ok (.setupSetAddress 0xFFFF 0 0, []) ∧
    decodeAs .bytes .setup8 [0x00, 0x09, 0x01, 0, 0, 0, 0, 0] = .ok (.setupSetConfiguration 1 0 0, []) ∧
    decodeAs .bytes .setup8 [0x21, 0x05, 0, 0, 0, 0, 0, 0] = .ok (.setupOther ⟨0x21, 0x05, 0, 0, 0⟩, []) ∧
    decodeAs .bytes .setup8 [0xC0, 0x01, 0, 0, 0, 0, 0x02, 0] = .ok (.setupOther ⟨0xC0, 0x01, 0, 0, 2⟩, []) := by decide

/-- V1, last row, and R126 (h). -/
theorem test_decode_refuses :
    ([0x00, 0x03, 0x0C, 0x19, 0x28, 0x3F, 0x44, 0xFF] : List Byte).all
      (fun b => decodePort .bytes [b, 0, 0, 0] == .error .unknownOpcode) = true ∧
    decodeBus [0x42, 0x80, 0x01] = .error .badToken ∧ decodeBus [0x42, 0x05, 0x11] = .error .badToken ∧
    decodeCmd .bytes [0x24, 0x81, 0x02, 0x00, 0x41] = .error .truncated := by decide

/-- V1, register words and derived addresses. -/
theorem test_words :
    mkBufCtrl true true true true 0 = 0x0000AC00 ∧ mkBufCtrl true false false true 64 = 0x00008440 ∧
    mkEpCtrl true 3 0x200 = 0x8C000200 ∧ bufAddr 1 = 0x100 ∧ bufAddr 31 = 0x8C0 ∧ idx 0x0F = 31 ∧ addrOf 17 = 0x08 := by
  decide

/-! One step per operation. -/

/-- V2. -/
theorem test_acquire : nextIs (exec (.lockAcquire 1) booted) (fun t => t.locks[1]? == some (some .main) && t.irqMask == 1) = true := by
  decide
/-- V2: the cell is already MAIN's. -/
theorem test_acquire_twice : nextIs (exec (.lockAcquire 1) (acquireLock 1 booted)) (fun t => t.waiting.isSome) = true := by decide
/-- V2. -/
theorem test_release : nextIs (exec (.lockRelease 1) (acquireLock 1 booted)) (fun t => t.locks[1]? == some none && t.irqMask == 0) = true := by
  decide
/-- V2: code 7. -/
theorem test_release_misuse : nextIs (exec (.lockRelease 0) booted) (fun t => t.fault.map faultCode == some 7) = true := by decide
theorem test_get : nextIs (exec (.shGet 0) (withHolder 2 booted)) (returned · (.value [2])) = true := by decide
theorem test_is : nextIs (exec (.shIs 0 [3]) (withHolder 2 booted)) (returned · (.bool false)) = true := by decide
theorem test_transition : nextIs (exec (.shTransition 0 [1] [2]) (withHolder 1 booted))
    (fun t => returned t (.bool true) && t.holders == [⟨[2], 0, 1⟩] && t.irqMask == 0) = true := by decide
theorem test_transition_fails : nextIs (exec (.shTransition 0 [1] [2]) (withHolder 2 booted))
    (fun t => returned t (.bool false) && t.holders == [⟨[2], 0, 1⟩]) = true := by decide
theorem test_force : nextIs (exec (.shForce 0 [0]) (withHolder 7 booted)) (fun t => t.holders == [⟨[0], 0, 1⟩]) = true := by decide

/-- S1 step 4: across the end of the slots, two of two fit. -/
theorem test_enqueue_wraps : nextIs (exec (.fifoEnqueue 0 (el [6, 7])) (withFifo [1, 2, 3, 0] 3 2 booted))
    (fun t => returned t (.count 2) && t.fifos.head? == some ⟨el [7, 2, 3, 6], 1, 2, 2, 1⟩) = true := by decide
/-- S1 step 1: three of five fit. -/
theorem test_enqueue_truncates : nextIs (exec (.fifoEnqueue 0 (el [1, 2, 3, 4, 5])) (withFifo [0, 0, 0, 0] 0 0 booted))
    (fun t => returned t (.count 3) && t.fifos.head? == some ⟨el [1, 2, 3, 0], 3, 0, 2, 1⟩) = true := by decide
/-- S1 step 6. -/
theorem test_dequeue_wraps : nextIs (exec (.fifoDequeue 0 5) (withFifo [7, 2, 3, 6] 1 3 booted))
    (fun t => returned t (.items (el [6, 7])) && t.fifos.head?.map Fifo.r == some 1) = true := by decide
/-- S1 step 5. -/
theorem test_erase : nextIs (exec (.fifoErase 0 1) (withFifo [7, 2, 3, 6] 1 2 booted))
    (fun t => returned t (.count 1) && t.fifos.head?.map Fifo.r == some 3) = true := by decide
/-- S3 step 1. -/
theorem test_pull : nextIs (exec (.fifoPull 0 1) { booted with
      fifos := [⟨el [0, 0, 0, 0], 0, 0, 2, 1⟩, ⟨el [7, 6, 5, 0, 0, 0, 9, 8], 3, 6, 3, 1⟩] })
    (fun t => returned t (.count 3) && t.fifos == [⟨el [9, 8, 7, 0], 3, 0, 2, 1⟩, ⟨el [7, 6, 5, 0, 0, 0, 9, 8], 3, 1, 3, 1⟩]) = true := by
  decide
/-- V3. -/
theorem test_pull_itself : nextIs (exec (.fifoPull 0 0) booted) (fun t => t.waiting.isSome) = true := by decide
/-- V3 step 13. -/
theorem test_clear : nextIs (exec (.fifoClear 0) (withFifo [7, 8, 3, 6] 2 1 booted))
    (fun t => t.fifos.head? == some ⟨el [7, 8, 3, 6], 2, 2, 2, 1⟩) = true := by decide
/-- S2: across the wrap. -/
theorem test_find : nextIs (exec (.fifoFind 0 [7]) (withFifo [7, 2, 3, 6] 1 2 booted)) (returned · (.distance (some 3))) = true := by decide
/-- S2: the slot that holds it is not occupied. -/
theorem test_find_unoccupied : nextIs (exec (.fifoFind 0 [2]) (withFifo [7, 2, 3, 6] 1 2 booted)) (returned · (.distance none)) = true := by
  decide
/-- V3: `N = 4`, `w = 1`, `r = 3`. -/
theorem test_occupied : nextIs (exec (.fifoOccupied 0) (withFifo [0, 0, 0, 0] 1 3 booted)) (returned · (.count 2)) = true := by decide
theorem test_free : nextIs (exec (.fifoFree 0) (withFifo [0, 0, 0, 0] 1 3 booted)) (returned · (.count 1)) = true := by decide
/-- V3: `N = 1`. -/
theorem test_capacity : nextIs (exec (.fifoCapacity 0) (withFifo [0] 0 0 booted)) (returned · (.count 0)) = true := by decide

/-- V4. -/
theorem test_init : nextIs (exec .devInit { State.reset with resolver := some 0 })
    (fun t => returned t .ok && t.intEn == 0x00011010 && t.pullup && t.resolver == some 0) = true := by decide
theorem test_init_twice : nextIs (exec .devInit { booted with configured := true, devAddr := 5 })
    (fun t => returned t .errAlreadyInitialized && t.configured && t.devAddr == 5) = true := by decide
theorem test_set_resolver : nextIs (exec (.devSetResolver (some 0)) (withProcs State.reset)) (fun t => t.resolver == some 0 && t.fault.isNone) = true := by
  decide
theorem test_configure : nextIs (exec (.devConfigureEp 0x82 0x03 8 (some 3)) (withProcs booted))
    (fun t => memReadWord t.mem 0x010 == 0x8C000200 && t.callback[4] == some 3) = true := by decide
/-- Reserved bit 4, checked before type and length. -/
theorem test_configure_order : nextIs (exec (.devConfigureEp 0x91 0x01 65 none) booted) (fun t => t.fault == some .badEndpoint) = true := by
  decide
/-- S8 step 1. -/
theorem test_send : nextIs (exec (.devSend 0x81 [0x41, 0x42]) booted)
    (fun t => let u := finishArm t; memRead u.mem 0x181 == 0x42 && bufCtrl u 2 == 0x00008402 && u.toggle[2]) = true := by decide
theorem test_send_direction : nextIs (exec (.devSend 0x01 [0]) booted) (fun t => t.fault.map faultCode == some 3) = true := by decide
/-- `toggle[0] = 1` after a setup packet. -/
theorem test_control_send : nextIs (exec (.devControlSend [0x12, 0x01]) { booted with toggle := booted.toggle.set 0 true })
    (fun t => let u := finishArm t; bufCtrl u 0 == 0x0000A402 && !u.toggle[0] && memRead u.mem 0x101 == 0x01) = true := by decide
theorem test_receive : nextIs (exec (.devReceive 0x01 8) { booted with toggle := booted.toggle.set 3 true })
    (fun t => bufCtrl t 3 == 0x00002408 && !t.toggle[3]) = true := by decide
theorem test_receive_length : nextIs (exec (.devReceive 0x00 65) booted) (fun t => t.fault.map faultCode == some 5) = true := by decide
theorem test_pending : nextIs (exec (.devIsSendPending 0x81) (setBufCtrl 2 0x00008402 booted)) (returned · (.bool true)) = true := by decide
/-- Endpoint 15 was never configured. -/
theorem test_pending_unarmed : nextIs (exec (.devIsSendPending 0x8F) booted) (returned · (.bool false)) = true := by decide
theorem test_stall : nextIs (exec .devStallControl (setBufCtrl 1 0x00000400 (withSetup setConfig1 booted)))
    (fun t => bufCtrl t 1 == 0x00000C00 && bufCtrl t 0 == 0) = true := by decide
theorem test_stall_no_setup : nextIs (exec .devStallControl booted) (fun t => t.fault.map faultCode == some 6) = true := by decide

/-- V5. -/
theorem test_bus_reset : nextIs (exec .busReset booted) (fun t => t.busResetLatch && intStatus t == 0x00001000) = true := by decide
theorem test_bus_before_init : exec .busReset State.reset = .refused .hostHasNoMove := rfl
/-- V5: stalls cleared, arming kept. -/
theorem test_bus_setup : nextIs (exec (.busSetup 0 getDescriptor) (setBufCtrl 0 0x0000AC00 (setBufCtrl 1 0x00000C00 booted)))
    (fun t => bufCtrl t 0 == 0x0000A400 && bufCtrl t 1 == 0x00000400 && t.setupReqLatch && memRead t.mem 6 == 0x40) = true := by decide
theorem test_bus_setup_ignored : nextIs (exec (.busSetup 3 getDescriptor) booted)
    (fun t => !t.setupReqLatch && t.events == [.ignored] && t.mem.isEmpty) = true := by decide
/-- P3 variant A step 6: PID 1 and the bytes, then `0x00002002`. -/
theorem test_bus_in : nextIs (exec (.busIn 0 1) (setBufCtrl 2 0x0000A402 (writeBuf 2 0 [0x43, 0x44] (setEpCtrl 2 0x88000180 booted))))
    (fun t => bufCtrl t 2 == 0x00002002 && t.bufStatus == 4 && t.events == [.tx 1 true [0x43, 0x44]]) = true := by decide
/-- V5: not enabled. -/
theorem test_bus_in_ignored : nextIs (exec (.busIn 0 1) (setBufCtrl 2 0x00008402 booted)) (fun t => t.events == [.ignored]) = true := by decide
/-- P4 step 7. -/
theorem test_bus_out : nextIs (exec (.busOut 0 1 false [0x41, 0x54, 0x0D]) (setBufCtrl 3 0x00000440 (setEpCtrl 3 0x880001C0 booted)))
    (fun t => bufCtrl t 3 == 0x00008003 && t.bufStatus == 8 && memRead t.mem 0x1C2 == 0x0D) = true := by decide
/-- V5: `BUF_CTRL[1] = 0x00000C00`. -/
theorem test_bus_out_stall : nextIs (exec (.busOut 0 0 true []) (setBufCtrl 1 0x00000C00 booted))
    (fun t => t.events == [.stallSent 0 .dirOut]) = true := by decide

/-- V6: a setup packet and buffers pending. -/
theorem test_irq_entry : nextIs (exec .irqEntry (at_ .h1Read { booted with setupReqLatch := true, bufStatus := 8 }))
    (fun t => t.locals.s == 0x00010010 && t.hpc == .h1Go) = true := by decide
/-- S7. -/
theorem test_irq_bus_reset : nextIs (exec .irqBusReset (at_ .h2Addr { booted with devAddr := 5, configured := true }))
    (fun t => t.devAddr == 0 && t.configured && t.hpc == .h2Conf) = true := by decide
theorem test_irq_bus_reset_skipped : nextIs (exec .irqBusReset (at_ .h2Clear { booted with busResetLatch := true }))
    (fun t => t.busResetLatch && t.hpc == .h3Clear) = true := by decide
/-- S6 step 3. -/
theorem test_irq_setup_copy : nextIs (exec .irqSetup (at_ .h3Copy (setSetupHw setAddress5 booted)))
    (fun t => t.lastSetup == setAddress5 && t.setupValid) = true := by decide
theorem test_irq_setup_toggle : nextIs (exec .irqSetup (at_ .h3Toggle booted)) (fun t => t.toggle[0] && t.hpc == .h3Dispatch) = true := by
  decide
/-- S9: one bit is cleared, the third stays. -/
theorem test_irq_buff : nextIs (exec .irqBuff (at_ .h5Loop { booted with
      bufStatus := 0x1C, locals := { Locals.none with b := 0xC, i := 2 } })) (fun t => t.bufStatus == 0x18 && t.hpc == .h5Len) = true := by
  decide
theorem test_irq_buff_len : nextIs (exec .irqBuff (at_ .h5Len (setBufCtrl 3 0x00008003 { booted with locals := { Locals.none with i := 3 } })))
    (fun t => t.locals.len == 3 && t.hpc == .h5Serve) = true := by decide
theorem test_irq_exit : nextIs (exec .irqExit (at_ .h6 booted)) (fun t => t.ctx == .main && t.hpc == .idle) = true := by decide

/-- V6: `wValue = 0xFF85` gives address 5. -/
theorem test_complete_ep0_in : nextIs (exec .completeEp0In (at_ .h5Ep0 (withSetup ⟨0x00, 0x05, 0xFF85, 0, 0⟩ booted)))
    (fun t => t.devAddr == 5 && t.events == [.addrSet 5]) = true := by decide
/-- V6: no packet on record. -/
theorem test_complete_ep0_in_no_setup : nextIs (exec .completeEp0In (at_ .h5Ep0 { booted with lastSetup := setAddress5 }))
    (fun t => t.devAddr == 0 && t.events.isEmpty) = true := by decide
/-- V6: no callback, nothing called. -/
theorem test_complete_out_none : nextIs (exec (.completeOut 1) (at_ .h5Serve booted)) (fun t => t.hpc == .h5Next && t.events.isEmpty) = true := by
  decide
theorem test_complete_in_call : nextIs (exec (.completeIn 2) (at_ .h5Emit { booted with
      locals := { Locals.none with bytes := [0x4F, 0x4B], len := 2 } })) (fun t => t.events == [.call 2 [0x4F, 0x4B] 2]) = true := by decide
/-- S6 step 3: the address is not written. -/
theorem test_set_address : nextIs (exec (.setupSetAddress 5 0 0) (at_ .h3Dispatch { booted with toggle := booted.toggle.set 0 true }))
    (fun t => bufCtrl t 0 == 0x0000A400 && !t.toggle[0] && t.devAddr == 0) = true := by decide
/-- V6: `configured` whatever `wValue`. -/
theorem test_set_configuration : nextIs (exec (.setupSetConfiguration 0 0 0) (at_ .h3Configure { booted with
      locals := { Locals.none with ok := true } })) (fun t => t.configured) = true := by decide
/-- P5. -/
theorem test_other_no_resolver : nextIs (exec (.setupOther getDescriptor) (at_ .h3Dispatch booted))
    (fun t => t.fault == some .noResolver && t.ctx == .irq) = true := by decide
/-- P2 step 2. -/
theorem test_other_rejected : nextIs (exec (.setupOther getDescriptor) (at_ .h3Reject (withSetup getDescriptor booted)))
    (fun t => bufCtrl t 0 == 0x00000800 && t.hpc == .h3Go) = true := by decide

/-! What the statements assume can be met: for each, states and operands at the ends of their ranges. -/

/-- A call of external code is under way. -/
def calling (rest : Proc) : State :=
  { at_ .h3Call booted with ext := some { args := [], result := [], rest := rest }, sched := [.proc] }

/-- MAIN owns lock 0 and waits for it. -/
def stuckMain : State :=
  { acquireLock 0 booted with waiting := some { instr := .shGet 0, lock := 0, inner := false }, sched := [.proc] }

/-- An index is armed for a host. -/
def armedAt (i : EpIdx) (w : Word) : State := setBufCtrl i w (setEpCtrl i 0x88000000 booted)

/-- An `arm_in` under way. -/
def armingBy (todo : List Byte) (done : Bool) : State :=
  { booted with
    arming := some { idx := 2, todo := todo, off := 0, len := 1, wordDone := done }, irqMask := 1, sched := [.proc] }

/-- The holder and FIFO 0 after power-on. -/
def holder0 : Holder := ⟨[0], 0, 1⟩

def fifo0 : Fifo := ⟨List.replicate 8 [0], 0, 0, 2, 1⟩

theorem holder_ready : HolderReady State.reset 0 holder0 := ⟨rfl, rfl, rfl⟩

theorem fifo_ready : FifoReady State.reset 0 fifo0 := ⟨rfl, ⟨by decide, by decide⟩, rfl, rfl⟩

theorem wit_ResultGoesToTheCaller : State.reset.ctx = .main ∧ (calling (.ret true)).ctx = .irq ∧
    (calling (.ret true)).ext = some { args := [], result := [], rest := .ret true } ∧ 65535 < 65536 := ⟨rfl, rfl, rfl, by decide⟩

theorem wit_IndexAndAddressAreABijection : epValid 0x00 = true ∧ epValid 0x8F = true := by decide

theorem wit_DecodeInvertsEncode : Instr.wf .bytes (.fifoEnqueue 0xFF []) = true ∧ Instr.wf .bytes (.completeIn 30) = true ∧
    Instr.wf .bytes (.busOut 127 15 true [0]) = true ∧ Instr.completeIn 30 ≠ .irqExit := by decide

theorem wit_IllegalEncodingsDecodeToNothing :
    (0x00 : Byte).toNat ∉ [0x01, 0x02, 0x08, 0x09, 0x0A, 0x0B, 0x10, 0x11, 0x12, 0x13, 0x14, 0x15, 0x16, 0x17, 0x18,
      0x20, 0x21, 0x22, 0x23, 0x24, 0x25, 0x26, 0x27] ∧ (0x3F : Byte).toNat ∉ [0x40, 0x41, 0x42, 0x43] ∧
    (0x41 : Byte).toNat ∈ [0x41, 0x42, 0x43] ∧ 128 ≤ (0x80 : Byte).toNat ∧ (0x42 : Byte).toNat ∈ [0x42, 0x43] ∧
    (0x7F : Byte).toNat < 128 ∧ 16 ≤ (0x10 : Byte).toNat ∧ (0x0F : Byte).toNat < 16 ∧ 2 ≤ (0x02 : Byte).toNat ∧
    (0x01 : Byte).toNat < 2 ∧ 1023 < (0x00 : Byte).toNat + 256 * (0x04 : Byte).toNat := by decide

theorem wit_MissingObjectsAreRefused : State.reset.locks[(4 : Byte).toNat]? = none ∧
    State.reset.holders[(1 : Byte).toNat]? = none ∧ State.reset.fifos[(2 : Byte).toNat]? = none ∧
    procBody (withProcs State.reset).procs 1 = none := by decide

theorem wit_AcquireTakesAFreeCell : LockFree State.reset (3 : Byte).toNat ∧ LockFree (at_ .h5Call booted) (0 : Byte).toNat :=
  ⟨rfl, rfl⟩

/-- MAIN owns lock 3, that of FIFO 1, by a raw LOCK.ACQUIRE. -/
def holds3 : State := acquireLock 3 booted

theorem wit_OwnedCellMakesTheContextWait : (ownLock stuckMain (.shGet 0) = some 0 ∧ LockOwned stuckMain 0 ∧
    ownLock stuckMain (.lockAcquire 0) = some 0) ∧
    (holds3.fifos[(0 : Byte).toNat]? = some fifo0 ∧ holds3.fifos[(1 : Byte).toNat]? = some { fifo0 with lock := 3 } ∧
      holds3.waiting = none ∧ LockFree holds3 2 ∧ LockOwned holds3 3 ∧ fifo0.lock ≠ 3) :=
  ⟨⟨rfl, ⟨.main, rfl⟩, rfl⟩, ⟨rfl, rfl, rfl, rfl, ⟨.main, rfl⟩, by decide⟩⟩

/-- A pull into FIFO 0 that holds its lock and waits for that of FIFO 1. -/
def stuckInner : State :=
  { acquireLock 2 holds3 with waiting := some { instr := .fifoPull 0 1, lock := 3, inner := true }, sched := [.proc] }

theorem wit_WaitingContextHangs : (stuckAt stuckMain (.shGet 0) false = some 0 ∧ LockOwned stuckMain 0 ∧
      stuckMain.arming = none ∧ stuckMain.waiting = some { instr := .shGet 0, lock := 0, inner := false } ∧
      ∃ t, step stuckMain = .next t) ∧
    (stuckAt stuckInner (.fifoPull 0 1) true = some 3 ∧ LockOwned stuckInner 3 ∧ stuckInner.arming = none ∧
      stuckInner.waiting = some { instr := .fifoPull 0 1, lock := 3, inner := true } ∧ ∃ t, step stuckInner = .next t) ∧
    stuckAt booted (.fifoPull 1 0) false = some 3 :=
  ⟨⟨rfl, ⟨.main, rfl⟩, rfl, rfl, (next_of (p := fun _ => true) (by decide)).imp fun _ h => h.1⟩,
    ⟨rfl, ⟨.main, rfl⟩, rfl, rfl, (next_of (p := fun _ => true) (by decide)).imp fun _ h => h.1⟩, rfl⟩

theorem wit_ReleaseByTheOwnerOnly : stuckMain.locks[(0 : Byte).toNat]? = some (some stuckMain.ctx) ∧
    stuckMain.locks[(1 : Byte).toNat]? = some none ∧ none ≠ some stuckMain.ctx ∧ stuckMain.fault = none :=
  ⟨rfl, rfl, by decide, rfl⟩

theorem wit_BracketsGiveTheirLocksBack : bracketed (.shGet 0) = true ∧ State.reset.waiting = none ∧
    ∃ t, exec (.shGet 0) State.reset = .next t ∧ t.waiting = none :=
  ⟨rfl, rfl, (next_of (p := fun t => t.waiting == none) (by decide)).imp fun _ h => ⟨h.1, by simpa using h.2⟩⟩

theorem wit_HolderReadsAndForce : HolderReady State.reset 0 holder0 := holder_ready

theorem wit_HolderTransition : HolderReady State.reset 0 holder0 ∧ holder0.value = [0] ∧ holder0.value ≠ [0xFF] :=
  ⟨holder_ready, rfl, by decide⟩

theorem wit_OneOfTwoTransitionsWins : HolderReady State.reset 0 holder0 ∧ holder0.value = [0] ∧ ([1] : Elem) ≠ [0] :=
  ⟨holder_ready, rfl, by decide⟩

theorem wit_FifoEnqueue : FifoReady State.reset 0 fifo0 ∧
    7 = min (List.replicate 9 ([0] : Elem)).length (8 - 1 - (8 + 0 - 0) % 8) := ⟨fifo_ready, rfl⟩

theorem wit_FifoDequeueEraseClear : FifoReady State.reset 0 fifo0 ∧ 0 = (8 + 0 - 0) % 8 ∧
    0 = min (0xFFFF : Half).toNat 0 := ⟨fifo_ready, rfl, rfl⟩

theorem wit_FifoPull : FifoReady State.reset 0 fifo0 ∧
    FifoReady State.reset 1 { fifo0 with lock := 3 } ∧ (0 : Byte) ≠ 1 ∧ 2 ≠ 3 ∧
    0 = min (8 - 1 - (8 + 0 - 0) % 8) ((8 + 0 - 0) % 8) ∧ fifo0.size = { fifo0 with lock := 3 }.size ∧
    fifo0.size ≠ { fifo0 with size := 2 }.size :=
  ⟨fifo_ready, ⟨rfl, ⟨by decide, by decide⟩, rfl, rfl⟩, by decide, by decide, rfl, rfl, by decide⟩

/-- FIFO 0 holds its own lock and is pulled from itself. -/
def stuckPull : State :=
  { acquireLock 2 booted with waiting := some { instr := .fifoPull 0 0, lock := 2, inner := true }, sched := [.proc] }

theorem wit_PullFromItselfHangs : FifoReady State.reset 0 fifo0 ∧
    stuckPull.fifos[(0 : Byte).toNat]? = some fifo0 ∧ LockOwned stuckPull 2 ∧ stuckPull.arming = none ∧
    stuckPull.waiting = some { instr := .fifoPull 0 0, lock := 2, inner := true } ∧ ∃ t, step stuckPull = .next t :=
  ⟨fifo_ready, rfl, ⟨.main, rfl⟩, rfl, rfl, (next_of (p := fun _ => true) (by decide)).imp fun _ h => h.1⟩

theorem wit_FifoReadersChangeNothing : FifoReady State.reset 0 fifo0 ∧ 8 = fifo0.slots.length ∧
    0 = (8 + 0 - 0) % 8 := ⟨fifo_ready, rfl, rfl⟩

theorem wit_FifoIsAQueue : FifoReady State.reset 0 fifo0 := fifo_ready

theorem wit_InitAndSetResolver : State.reset.initialized = false ∧ booted.initialized = true ∧
    procNamed State.reset none = true ∧ procNamed (withProcs booted) (some 0xFE) = true := ⟨rfl, rfl, rfl, rfl⟩

theorem wit_DevConfigureEp : (withProcs booted).initialized = true ∧ procNamed (withProcs booted) (some 2) = true ∧
    epReserved 0x8F = 0#3 ∧ epNum 0x8F ≠ 0#4 ∧
    (attrType 0xFE = 2#2 ∨ attrType 0xFE = 3#2) ∧ (64 : Half).toNat ≤ 64 := by decide

theorem wit_DevConfigureEpChecks : procNamed State.reset none = true ∧ procNamed booted none = true ∧ State.reset.fault = none ∧ State.reset.initialized = false ∧ booted.fault = none ∧
    booted.initialized = true ∧ epReserved 0x91 ≠ 0#3 ∧ epNum 0x80 = 0#4 ∧ epReserved 0x81 = 0#3 ∧ epNum 0x81 ≠ 0#4 ∧
    attrType 0x00 = 0#2 ∧ attrType 0x01 = 1#2 ∧ attrType 0x02 = 2#2 ∧ 64 < (65 : Half).toNat := by decide

theorem wit_TransferChecks : State.reset.fault = none ∧ State.reset.initialized = false ∧ booted.fault = none ∧
    booted.initialized = true ∧ epReserved 0xC1 ≠ 0#3 ∧ epReserved 0x01 = 0#3 ∧ epIsIn 0x01 = false ∧ epReserved 0x80 = 0#3 ∧
    epIsIn 0x80 = true ∧ 64 < (List.replicate 65 (0 : Byte)).length ∧ 64 < (65 : Half).toNat := by decide

theorem wit_SendArmsTheBuffer : booted.initialized = true ∧ booted.arming = none ∧ (List.replicate 64 (0 : Byte)).length ≤ 64 ∧
    epReserved 0x8F = 0#3 ∧ epIsIn 0x8F = true ∧ (at_ .h5Call booted).ctx = .irq ∧ (at_ .h5Call booted).arming = none ∧
    (at_ .h5Call booted).initialized = true := by decide

theorem wit_ArmingGoesOnBytesFirst : (armingBy [1] false).fault = none ∧ (armingBy [1] false).sched = [.proc] ∧
    { armingBy [1] false with sched := [] }.sched = [] ∧
    (armingBy [1] false).arming = some { idx := 2, todo := [1], off := 0, len := 1, wordDone := false } ∧
    (armingBy [] false).arming = some { idx := 2, todo := [], off := 0, len := 1, wordDone := false } ∧
    (armingBy [] true).arming = some { idx := 2, todo := [], off := 0, len := 1, wordDone := true } :=
  ⟨rfl, rfl, rfl, rfl, rfl, rfl⟩

theorem wit_SecondSendHasTheOtherPid : booted.initialized = true ∧ booted.arming = none ∧ booted.ctx = .main ∧
    epReserved 0x81 = 0#3 ∧ epIsIn 0x81 = true ∧ ([] : List Byte).length ≤ 64 ∧ (List.replicate 64 (0 : Byte)).length ≤ 64 := by
  decide

theorem wit_DevReceive : booted.initialized = true ∧ epReserved 0x0F = 0#3 ∧ epIsIn 0x0F = false ∧ (64 : Half).toNat ≤ 64 := by decide

theorem wit_DevIsSendPending : booted.initialized = true ∧ epReserved 0x8F = 0#3 ∧ epIsIn 0x8F = true := by decide

theorem wit_DevStallControl : (withSetup getDescriptor booted).initialized = true ∧ (withSetup getDescriptor booted).setupValid = true ∧
    (0 : EpIdx) = (if (withSetup getDescriptor booted).lastSetup.bmRequestType.getLsbD 7 = true then 0 else 1) ∧
    (1 : EpIdx) = (if (withSetup setConfig1 booted).lastSetup.bmRequestType.getLsbD 7 = true then 0 else 1) ∧
    State.reset.fault = none ∧ State.reset.initialized = false ∧ booted.fault = none ∧ booted.setupValid = false := by decide

theorem wit_FaultsWriteNothingElse : (∃ t, exec .devStallControl booted = .next t ∧ t.fault ≠ booted.fault) ∧
    { booted with fault := some FaultKind.noSetup }.fault = some .noSetup ∧
    ∃ t, exec .devStallControl { booted with fault := some .badType } = .next t :=
  ⟨(next_of (p := fun t => t.fault != booted.fault) (by decide)).imp fun _ h => ⟨h.1, by simpa using h.2⟩, rfl,
    (next_of (p := fun _ => true) (by decide)).imp fun _ h => h.1⟩

theorem wit_BusResetAndSetup : booted.initialized = true ∧ booted.pullup = true ∧ (0 : BitVec 7) = booted.devAddr ∧
    (127 : BitVec 7) ≠ booted.devAddr := by decide

/-- Both kinds of index: the control endpoint, and the last IN index, at the longest `LEN`. -/
theorem wit_BusInCompletes : (armedAt 30 0x00008440).initialized = true ∧ (armedAt 30 0x00008440).pullup = true ∧
    (30 : EpIdx).val = 2 * (15 : BitVec 4).toNat ∧ (0 : BitVec 7) = (armedAt 30 0x00008440).devAddr ∧
    (epCtrl (armedAt 30 0x00008440) 30).getLsbD 31 = true ∧ (bufCtrl (armedAt 30 0x00008440) 30).getLsbD 11 = false ∧
    (bufCtrl (armedAt 30 0x00008440) 30).getLsbD 10 = true ∧ (bufCtrl (armedAt 30 0x00008440) 30).getLsbD 15 = true ∧
    (bcLen (bufCtrl (armedAt 30 0x00008440) 30)).toNat = 64 ∧ (0 : EpIdx).val = 2 * (0 : BitVec 4).toNat ∧ (0 : EpIdx).val < 2 := by
  decide

theorem wit_BusInOtherCases : booted.initialized = true ∧ booted.pullup = true ∧ (2 : EpIdx).val = 2 * (1 : BitVec 4).toNat ∧
    ¬(0 = booted.devAddr ∧ ((2 : EpIdx).val < 2 ∨ (epCtrl booted 2).getLsbD 31 = true)) ∧
    (epCtrl (armedAt 2 0x0000AC00) 2).getLsbD 31 = true ∧ (bufCtrl (armedAt 2 0x0000AC00) 2).getLsbD 11 = true ∧
    (bufCtrl (armedAt 2 0x00000400) 2).getLsbD 11 = false ∧ (bufCtrl (armedAt 2 0x00000400) 2).getLsbD 15 = false := by decide

theorem wit_BusOutCompletes : (armedAt 31 0x00000440).initialized = true ∧ (armedAt 31 0x00000440).pullup = true ∧
    (31 : EpIdx).val = 2 * (15 : BitVec 4).toNat + 1 ∧ (0 : BitVec 7) = (armedAt 31 0x00000440).devAddr ∧
    (epCtrl (armedAt 31 0x00000440) 31).getLsbD 31 = true ∧ (bufCtrl (armedAt 31 0x00000440) 31).getLsbD 11 = false ∧
    (bufCtrl (armedAt 31 0x00000440) 31).getLsbD 10 = true ∧ (bufCtrl (armedAt 31 0x00000440) 31).getLsbD 15 = false ∧
    (List.replicate 64 (0 : Byte)).length ≤ (bcLen (bufCtrl (armedAt 31 0x00000440) 31)).toNat ∧ (1 : EpIdx).val < 2 := by decide

theorem wit_BusOutOtherCases : booted.initialized = true ∧ booted.pullup = true ∧ (3 : EpIdx).val = 2 * (1 : BitVec 4).toNat + 1 ∧
    ¬(0 = booted.devAddr ∧ ((3 : EpIdx).val < 2 ∨ (epCtrl booted 3).getLsbD 31 = true)) ∧
    (epCtrl (armedAt 3 0x00000C00) 3).getLsbD 31 = true ∧ (bufCtrl (armedAt 3 0x00000C00) 3).getLsbD 11 = true ∧
    (bufCtrl (armedAt 3 0x00008400) 3).getLsbD 11 = false ∧ (bufCtrl (armedAt 3 0x00008400) 3).getLsbD 15 = true := by decide

theorem wit_BusEventsStopOutsideTheirRules : Instr.busReset.format = .bus ∧ State.reset.initialized = false ∧
    State.reset.pullup = false ∧ (1 : EpIdx).val = 2 * (0 : BitVec 4).toNat + 1 ∧
    completes (armedAt 1 0x00000441) 1 (.busOut 0 0 false []) = true ∧
    (bcLen (bufCtrl (armedAt 1 0x00000441) 1)).toNat < (List.replicate 66 (0 : Byte)).length ∧
    (List.replicate 65 (0 : Byte)).length ≤ (bcLen (bufCtrl (armedAt 1 0x00000441) 1)).toNat ∧ bufEnd 1 < bufAddr 1 + 65 ∧
    (0 : EpIdx).val = 2 * (0 : BitVec 4).toNat ∧ completes (armedAt 0 0x00008441) 0 (.busIn 0 0) = true ∧
    bufEnd 0 < bufAddr 0 + (bcLen (bufCtrl (armedAt 0 0x00008441) 0)).toNat := by decide

theorem wit_BusSideNever : Instr.format (.busOut 0 1 false [7]) = .bus ∧
    (∃ t, exec (.busOut 0 1 false [7]) (armedAt 3 0x00000440) = .next t ∧
      memRead t.mem (bufAddr 3) ≠ memRead (armedAt 3 0x00000440).mem (bufAddr 3)) ∧
    (∃ t, exec (.busSetup 0 getDescriptor) booted = .next t ∧ t.setupReqLatch ≠ booted.setupReqLatch ∧
      memRead t.mem 0 ≠ memRead booted.mem 0) :=
  ⟨rfl,
    (next_of (p := fun t => memRead t.mem (bufAddr 3) != memRead (armedAt 3 0x00000440).mem (bufAddr 3)) (by decide)).imp
      fun _ h => ⟨h.1, by simpa using h.2⟩,
    (next_of (p := fun t => t.setupReqLatch != booted.setupReqLatch && memRead t.mem 0 != memRead booted.mem 0) (by decide)).imp
      fun _ h => ⟨h.1, by simpa using h.2⟩⟩

/-- MAIN between two commands, a bus reset pending. -/
def pending : State := { booted with busResetLatch := true }

theorem wit_HandlerEntry : pending.fault = none ∧ Quiet pending ∧ pending.ctx = .main ∧ irqLine pending = true ∧
    pending.irqMask = 0 ∧ pending.sched = [] ∧ { pending with sched := [.proc] }.sched = [.proc] :=
  ⟨rfl, ⟨rfl, rfl, rfl⟩, rfl, by decide, rfl, rfl, rfl⟩

theorem wit_NoOtherHandlerEntry : pending.ctx = .main ∧ ∃ t, step pending = .next t ∧ t.ctx = .irq :=
  ⟨rfl, (next_of (p := fun t => t.ctx == .irq) (by decide)).imp fun _ h => ⟨h.1, by simpa using h.2⟩⟩

theorem wit_IrqEntryAndExitLines : (at_ .h1Read booted).hpc = .h1Read := rfl

theorem wit_IrqBusResetLines : (at_ .h2Clear booted).hpc = .h2Clear ∧ (at_ .h2Clear booted).locals.s.getLsbD 12 = false ∧
    { at_ .h2Clear booted with locals := { Locals.none with s := 0x1000 } }.locals.s.getLsbD 12 = true := by decide

theorem wit_IrqSetupLines : (at_ .h3Clear booted).hpc = .h3Clear ∧ (at_ .h3Clear booted).locals.s.getLsbD 16 = false ∧
    { at_ .h3Clear booted with locals := { Locals.none with s := 0x10000 } }.locals.s.getLsbD 16 = true ∧
    (at_ .h3Go booted).hpc = .h3Go := by decide

theorem wit_SetAddressArmsAndDefers : { booted with toggle := booted.toggle.set 0 true }.toggle[0] = true := by decide

theorem wit_ResolverDispatchLines : ¬(setConfig1.bmRequestType = 0x00#8 ∧ setConfig1.bRequest = 0x05#8) ∧
    ¬(getDescriptor.bmRequestType = 0x00#8 ∧ getDescriptor.bRequest = 0x05#8) ∧
    (at_ .h3Dispatch booted).hpc = .h3Dispatch ∧ (at_ .h3Dispatch booted).fault = none ∧ (at_ .h3Dispatch booted).resolver = none ∧
    (at_ .h3Call { booted with resolver := some 0xFE }).hpc = .h3Call ∧
    (at_ .h3Call { booted with resolver := some 0xFE }).resolver = some 0xFE ∧
    procBody (withProcs booted).procs 0xFE = some (.ret false) ∧
    (at_ .h3Emit booted).hpc = .h3Emit ∧ (at_ .h3Resolved booted).hpc = .h3Resolved ∧
    (at_ .h3Configure booted).hpc = .h3Configure ∧
    (at_ .h3Reject { booted with locals := { Locals.none with ok := true } }).hpc = .h3Reject ∧
    (at_ .h3Reject { booted with locals := { Locals.none with ok := true } }).locals.ok = true := by decide

theorem wit_RejectionStalls : (at_ .h3Reject (withSetup getDescriptor booted)).hpc = .h3Reject ∧
    (at_ .h3Reject (withSetup getDescriptor booted)).locals.ok = false ∧
    (at_ .h3Reject (withSetup getDescriptor booted)).initialized = true ∧
    (at_ .h3Reject (withSetup getDescriptor booted)).setupValid = true ∧
    (at_ .h3Reject (withSetup getDescriptor booted)).lastSetup = getDescriptor ∧
    (0 : EpIdx) = (if getDescriptor.bmRequestType.getLsbD 7 = true then 0 else 1) ∧
    (1 : EpIdx) = (if setConfig1.bmRequestType.getLsbD 7 = true then 0 else 1) := by decide

/-- The loop of IRQ.BUFF at an index, with one bit of the copy set. -/
def looping (p : HandlerPos) (b : Word) (i : Nat) : State := at_ p { booted with locals := { Locals.none with s := 0x10, b := b, i := i } }

theorem wit_IrqBuffLines : (at_ .h4 booted).hpc = .h4 ∧ (at_ .h4 booted).locals.s.getLsbD 4 = false ∧
    (looping .h4 0 0).hpc = .h4 ∧ (looping .h4 0 0).locals.s.getLsbD 4 = true ∧
    (looping .h5Loop 0x80000000 31).hpc = .h5Loop ∧ (looping .h5Loop 0x80000000 31).locals.i < 32 ∧
    (looping .h5Loop 0x80000000 31).locals.b.getLsbD 31 = true ∧ (looping .h5Len 0 31).hpc = .h5Len ∧
    (looping .h5Len 0 31).locals.i = (31 : EpIdx).val ∧ (looping .h5Len 0 0).locals.i = (0 : EpIdx).val ∧
    (looping .h5Loop 0 0).locals.b.getLsbD 0 = false ∧ (looping .h5Next 0 31).hpc = .h5Next ∧
    (looping .h5Loop 0 32).hpc = .h5Loop ∧ 32 ≤ (looping .h5Loop 0 32).locals.i := by decide

theorem wit_DeferredAddress : (at_ .h5Ep0 (withSetup setAddress5 booted)).hpc = .h5Ep0 ∧
    ((at_ .h5Ep0 (withSetup setAddress5 booted)).setupValid = true ∧
      (at_ .h5Ep0 (withSetup setAddress5 booted)).lastSetup.bmRequestType = 0x00#8 ∧
      (at_ .h5Ep0 (withSetup setAddress5 booted)).lastSetup.bRequest = 0x05#8) ∧
    (at_ .h5Ep0 booted).hpc = .h5Ep0 ∧ (at_ .h5Ep0 booted).setupValid = false := by decide

/-- Index 2 has callback 2, and a full buffer was transferred. -/
def serving (p : HandlerPos) : State :=
  at_ p { withProcs booted with callback := booted.callback.set 2 (some 2), locals := { Locals.none with i := 2, len := 64 } }

theorem wit_CallbackServiceLines : (serving .h5Serve).hpc = .h5Serve ∧ (serving .h5Serve).callback[(1 : EpIdx)] = none ∧
    (serving .h5Serve).callback[(2 : EpIdx)] = some 2 ∧ (serving .h5Serve).locals.len.toNat ≤ 64 ∧
    (serving .h5Emit).hpc = .h5Emit ∧ (serving .h5Call).hpc = .h5Call ∧ (serving .h5Call).callback[(2 : EpIdx)] = some 2 ∧ procBody (serving .h5Call).procs 2 = some (.ret false) ∧
    (serving .h5Returned).hpc = .h5Returned := by decide

/-- Each clause of the step statement, in its order. -/
theorem wit_StepRunsTheDecodedOperation :
    ({ booted with sched := [.host], busPort := [0x40] }.fault = none ∧
      { booted with sched := [.host], busPort := [0x40] }.initialized = true ∧
      { booted with sched := [.host], busPort := [0x40] }.pullup = true ∧ decodeBus [0x40] = .ok (.busReset, [])) ∧
    (Quiet { booted with sched := [.proc], mainPort := [0x27] } ∧
      entryEnabled { booted with sched := [.proc], mainPort := [0x27] } = false ∧ decodeCmd (sizesOf booted) [0x27] = .ok (.devStallControl, [])) ∧
    (Quiet (at_ .h6 booted) ∧ (at_ .h6 booted).ctx = .irq) ∧
    ((calling (.issue [0x26] .nothing (.ret true))).arming = none ∧ (calling (.issue [0x27] .nothing (.ret true))).waiting = none ∧
      decodeCmd (sizesOf booted) ([0x27] ++ tailBytes [] [] .nothing) = .ok (.devStallControl, [])) ∧
    ((calling (.ret true)).sched = [.proc] ∧ (calling (.ret true)).hpc = .h3Call) ∧
    ({ calling (.ret true) with hpc := .h5Call }.ext = some { args := [], result := [], rest := .ret true } ∧
      { calling (.ret true) with hpc := .h5Call }.hpc = .h5Call) ∧
    (stuckMain.sched = [.proc] ∧ stuckMain.arming = none ∧
      stuckMain.waiting = some { instr := .shGet 0, lock := 0, inner := false }) :=
  ⟨⟨rfl, rfl, rfl, by decide⟩, ⟨⟨rfl, rfl, rfl⟩, by decide, by decide⟩, ⟨⟨rfl, rfl, rfl⟩, rfl⟩, ⟨rfl, rfl, by decide⟩,
    ⟨rfl, rfl⟩, ⟨rfl, rfl⟩, ⟨rfl, rfl, rfl⟩⟩

theorem wit_OnlyItsWritersWriteARegister : (∃ t, exec .busReset booted = .next t) ∧ Reg.devAddr ∉ mayWrite .busReset :=
  ⟨(next_of (p := fun _ => true) (by decide)).imp fun _ h => h.1, by decide⟩

/-- A step of a state in which all the invariants hold: MAIN's arming writes a byte. -/
theorem wit_StepKeepsMemory : MemOk (armingBy [1] false) ∧ ∃ t, step (armingBy [1] false) = .next t :=
  ⟨⟨by decide, fun _ h => by cases h; decide⟩, (next_of (p := fun _ => true) (by decide)).imp fun _ h => h.1⟩

theorem zero_bufCtrl (i : EpIdx) : bufCtrl booted i = 0 := by revert i; decide

theorem zero_epCtrl (i : EpIdx) : epCtrl booted i = 0 := by revert i; decide

theorem wit_StepKeepsRegisterWords : (∃ t, step pending = .next t) ∧ StallOk booted ∧ BufCtrlOk booted ∧ EpCtrlOk booted ∧
    CallbackOk booted ∧ ProceduresOk booted :=
  ⟨(next_of (p := fun _ => true) (by decide)).imp fun _ h => h.1, fun i _ => by rw [zero_bufCtrl]; decide,
    fun i k _ => by rw [zero_bufCtrl]; simp, fun i _ h => absurd (zero_epCtrl i ▸ h) (by decide), ⟨by decide, by decide⟩, ⟨by decide, by decide⟩⟩

theorem wit_LengthsStayWithinAPacket : LenOk booted ∧ ∃ t, step booted = .next t :=
  ⟨⟨fun i => by rw [zero_bufCtrl]; decide, by decide, fun _ h => by cases h⟩,
    (next_of (p := fun _ => true) (by decide)).imp fun _ h => h.1⟩

theorem wit_PositionFollowsContext : PositionOk pending ∧ UninitOk pending ∧ ∃ t, step pending = .next t ∧ t.ctx = .irq :=
  ⟨⟨by decide, fun h => absurd h (by decide), fun h => absurd h (by decide), fun _ h => by cases h⟩, ⟨fun h => absurd h (by decide), fun _ h => by cases h⟩,
    (next_of (p := fun t => t.ctx == .irq) (by decide)).imp fun _ h => ⟨h.1, by simpa using h.2⟩⟩

theorem wit_MaskCountsItsReasons : MaskOk (armingBy [1] false) ∧ ∃ t, step (armingBy [1] false) = .next t :=
  ⟨⟨by decide, fun _ h => by cases h⟩, (next_of (p := fun _ => true) (by decide)).imp fun _ h => h.1⟩

theorem wit_FifoCursorsStayInRange : FifosOk { booted with mainPort := [0x14, 0x00] } ∧
    TypesOk { booted with mainPort := [0x14, 0x00] } ∧
    ∃ t, step { booted with mainPort := [0x14, 0x00] } = .next t ∧ t.mainPort = [] :=
  ⟨fun f h => by revert f h; unfold FifoOk; decide, ⟨by decide, by decide, fun _ h => by cases h⟩,
    (next_of (p := fun t => t.mainPort == []) (by decide)).imp fun _ h => ⟨h.1, by simpa using h.2⟩⟩

/-- R279, D33: a send that a callback issues is one step, word and toggle and result. -/
theorem test_nested_send : nextIs (step { calling (.issue [0x24, 0x81, 0x02, 0x00, 0x41, 0x42] .nothing (.ret true)) with hpc := .h5Call })
    (fun t => bufCtrl t 2 == 0x00008402 && t.toggle[2] && t.arming.isNone && t.irqMask == 0) = true := by decide

/-- U7: an identity that names no procedure. -/
theorem test_unknown_procedure : exec (.devSetResolver (some 1)) (withProcs booted) = .refused .noSuchIdentity := rfl

/-- The command of a procedure that the machine does not have yet: `withFetchWord` supplies it. -/
theorem test_fetch_set_resolver : nextIs (step (State.reset.withFetchWord 8 0x21)) (fun t => t.resolver == some 0) = true := by
  decide

/-- The host's question, for the first command of the table: the step runs it right after power-on. -/
theorem test_fetch_word : nextIs (step (State.reset.withFetchWord 8 0x01)) (fun t => t.locks[0]? == some (some .main)) = true := by
  decide

end Sys2Proof.Tests
end

section
/-! Which operation a step runs: one equation per agent and per thing the processor can be at (R5, R88, R230, R279). -/

namespace Sys2Proof.Machine

/-! The agent that the schedule names. -/

theorem step_of_host {s : State} {rest : List Agent} (hf : s.fault = none) (hs : s.sched = .host :: rest) :
    step s = hostTurn { s with sched := rest } := by
  simp only [step, stepOnce, hf, hs]

theorem step_of_proc {s : State} {rest : List Agent} (hf : s.fault = none) (hs : s.sched = .proc :: rest) :
    step s = procTurn { s with sched := rest } := by
  simp only [step, stepOnce, hf, hs]

/-! The bytes of a port. A port whose bytes spell an operation is not empty. -/

theorem decodeBus_ne_nil {bs : List Byte} {x : Instr × List Byte} (h : decodeBus bs = .ok x) : bs ≠ [] := by
  obtain ⟨b, r, rfl, -⟩ := takeByte_ok h
  exact List.cons_ne_nil b r

theorem decodeCmd_ne_nil {z : Sizes} {bs : List Byte} {x : Instr × List Byte} (h : decodeCmd z bs = .ok x) : bs ≠ [] := by
  obtain ⟨b, r, rfl, -⟩ := takeByte_ok h
  exact List.cons_ne_nil b r

/-- HOST runs the event that its port spells (R118). -/
theorem hostTurn_of_decodeBus {u : State} {i : Instr} {r : List Byte} (hb : busEnabled u = true)
    (hd : decodeBus u.busPort = .ok (i, r)) : hostTurn u = exec i { u with busPort := r } := by
  unfold hostTurn
  rw [hb]
  split
  · contradiction
  · split
    · next hp => exact absurd hp (decodeBus_ne_nil hd)
    · simp only [hd]

/-- MAIN runs the command that its port spells (R116). -/
theorem mainTurn_of_decodeCmd {u : State} {i : Instr} {r : List Byte}
    (hd : decodeCmd (sizesOf u) u.mainPort = .ok (i, r)) : mainTurn u = exec i { u with mainPort := r } := by
  unfold mainTurn
  split
  · next hp => exact absurd hp (decodeCmd_ne_nil hd)
  · simp only [hd]

/-! External code. -/

/-- External code runs the command that its next bytes spell, as the command port does (R279). -/
theorem extTurn_of_issue {u : State} {e : ExtCall} {bytes : List Byte} {tail : Tail} {k : Proc} {i : Instr}
    (he : e.rest = .issue bytes tail k)
    (hd : decodeCmd (sizesOf u) (bytes ++ tailBytes e.args e.result tail) = .ok (i, [])) :
    extTurn e u = exec i { u with ext := some { e with rest := k } } := by
  simp only [extTurn, he, extMove, hd]

theorem extTurn_of_ret {u : State} {e : ExtCall} {ok : Bool} (he : e.rest = .ret ok) :
    extTurn e u = .next (endCall ok u) := by
  simp only [extTurn, he, extMove]

/-- The resolver returns to R236 line 4, with its answer. -/
theorem endCall_at_h3Call {u : State} (ok : Bool) (hp : u.hpc = .h3Call) :
    endCall ok u = { u with ext := none, hpc := .h3Resolved, locals := { u.locals with ok := ok } } := by
  simp only [endCall, hp]

/-- A callback returns to R241 line 4. -/
theorem endCall_at_h5Call {u : State} (ok : Bool) (hp : u.hpc = .h5Call) :
    endCall ok u = { u with ext := none, hpc := .h5Returned } := by
  simp only [endCall, hp]

/-! The processor, by what is under way. -/

/-- A command that waits at a lock is run again (R140). -/
theorem procTurn_of_waiting {u : State} {w : Waiting} (ha : u.arming = none) (hw : u.waiting = some w) :
    procTurn u = exec w.instr u := by
  simp [procTurn, ha, hw]

/-- External code takes the step of the context it runs in (R11). -/
theorem procTurn_of_ext {u : State} {e : ExtCall} (ha : u.arming = none) (hw : u.waiting = none) (he : u.ext = some e) :
    procTurn u = extTurn e u := by
  simp [procTurn, ha, hw, he]

/-- The handler runs the operation at its position (R230). -/
theorem procTurn_of_irq {u : State} (hq : Quiet u) (hc : u.ctx = .irq) : procTurn u = exec (handlerInstr u) u := by
  obtain ⟨ha, hw, he⟩ := hq
  simp [procTurn, ha, hw, he, hc]

/-- MAIN goes on where the handler is not to be entered (R275). -/
theorem procTurn_of_main {u : State} (hq : Quiet u) (hc : u.ctx = .main) (hn : entryEnabled u = false) :
    procTurn u = mainTurn u := by
  obtain ⟨ha, hw, he⟩ := hq
  simp [procTurn, ha, hw, he, hc, hn]

/-- Settles O51, by the agent on the schedule and then by what the processor is at. -/
theorem stepRunsTheDecodedOperation : Obligations.StepRunsTheDecodedOperation := by
  intro s hf
  refine ⟨?host, ?main, ?handler, ?issue, ?resolved, ?returned, ?retry⟩
  case host =>
    intro rest i r hs hi hp hd
    have hb : busEnabled { s with sched := rest } = true := by simp [busEnabled, hi, hp]
    calc step s = hostTurn { s with sched := rest } := step_of_host hf hs
      _ = exec i { s with sched := rest, busPort := r } := hostTurn_of_decodeBus hb hd
  case main =>
    intro rest i r hs hq hc hn hd
    calc step s = procTurn { s with sched := rest } := step_of_proc hf hs
      _ = mainTurn { s with sched := rest } := procTurn_of_main hq hc hn
      _ = exec i { s with sched := rest, mainPort := r } := mainTurn_of_decodeCmd hd
  case handler =>
    intro rest hs hq hc
    calc step s = procTurn { s with sched := rest } := step_of_proc hf hs
      _ = exec (handlerInstr s) { s with sched := rest } := procTurn_of_irq hq hc
  case issue =>
    intro rest e bytes tail k i hs ha hw he hk hd
    calc step s = procTurn { s with sched := rest } := step_of_proc hf hs
      _ = extTurn e { s with sched := rest } := procTurn_of_ext ha hw he
      _ = exec i { s with sched := rest, ext := some { e with rest := k } } := extTurn_of_issue hk hd
  case resolved =>
    intro rest e ok hs ha hw he hk hp
    calc step s = procTurn { s with sched := rest } := step_of_proc hf hs
      _ = extTurn e { s with sched := rest } := procTurn_of_ext ha hw he
      _ = .next (endCall ok { s with sched := rest }) := extTurn_of_ret hk
      _ = .next { s with sched := rest, ext := none, hpc := .h3Resolved, locals := { s.locals with ok := ok } } :=
        congrArg _ (endCall_at_h3Call ok hp)
  case returned =>
    intro rest e ok hs ha hw he hk hp
    calc step s = procTurn { s with sched := rest } := step_of_proc hf hs
      _ = extTurn e { s with sched := rest } := procTurn_of_ext ha hw he
      _ = .next (endCall ok { s with sched := rest }) := extTurn_of_ret hk
      _ = .next { s with sched := rest, ext := none, hpc := .h5Returned } := congrArg _ (endCall_at_h5Call ok hp)
  case retry =>
    intro rest w hs ha hw
    calc step s = procTurn { s with sched := rest } := step_of_proc hf hs
      _ = exec w.instr { s with sched := rest } := procTurn_of_waiting ha hw

end Sys2Proof.Machine
end

section
/-! What one operation can do, once for each class of operations: every later proof takes an operation apart here and
unfolds no meaning again. A command is in `CommandOf`, a bus event in `EventOf`, a line of the handler in `LineOf`. -/

namespace Sys2Proof.Machine

/-- The four commands that write one FIFO, by what they make of it (R161, R162, R163, R165). -/
inductive FifoWrite (q : Fifo) (id : Byte) : Instr → Fifo → Prop where
  | enqueued (items : List Elem) (k : Nat) : FifoWrite q id (.fifoEnqueue id items) (fifoPush q (items.take k))
  | dequeued (max : Half) (k : Nat) : FifoWrite q id (.fifoDequeue id max) (fifoDrop q k)
  | erased (n : Half) (k : Nat) : FifoWrite q id (.fifoErase id n) (fifoDrop q k)
  | cleared : FifoWrite q id (.fifoClear id) { q with r := q.w }

/-- Everything a command does to the state `s` it runs in (R140 to R192). -/
inductive CommandOf (s : State) : Instr → State → Prop where
  /-- a check fails (R267) -/
  | raised (i : Instr) (k : FaultKind) : CommandOf s i { s with fault := some (s.fault.getD k) }
  /-- a result and nothing written -/
  | answered (i : Instr) (r : Result) : CommandOf s i (reply r s)
  /-- stuck at the lock of its own bracket (R140, R143) -/
  | waits (i : Instr) (l : Nat) (hl : LockOwned s l) :
      CommandOf s i { s with waiting := some { instr := i, lock := l, inner := false } }
  | acquired (id : Byte) (hl : LockFree s id.toNat) :
      CommandOf s (.lockAcquire id) (reply .done (acquireLock id.toNat s))
  | released (id : Byte) (hl : s.locks[id.toNat]? = some (some s.ctx)) :
      CommandOf s (.lockRelease id) (reply .done (releaseLock id.toNat s))
  /-- a bracket around a read (R144, R145, R146, R166 to R169) -/
  | bracketRead (i : Instr) (r : Result) : CommandOf s i (reply r { s with waiting := none })
  | transitioned (id : Byte) (e v : Elem) (q : Holder) (r : Result) (hq : s.holders[id.toNat]? = some q) :
      CommandOf s (.shTransition id e v)
        (reply r { s with holders := s.holders.set id.toNat { q with value := v }, waiting := none })
  | forced (id : Byte) (v : Elem) (q : Holder) (r : Result) (hq : s.holders[id.toNat]? = some q) :
      CommandOf s (.shForce id v)
        (reply r { s with holders := s.holders.set id.toNat { q with value := v }, waiting := none })
  | fifoWritten (i : Instr) (id : Byte) (q q' : Fifo) (r : Result) (hq : s.fifos[id.toNat]? = some q)
      (hw : FifoWrite q id i q') :
      CommandOf s i (reply r { s with fifos := s.fifos.set id.toNat q', waiting := none })
  /-- the destination's lock is taken, the source's is owned (R164) -/
  | pullWaits (id other : Byte) (a b : Fifo) (ha : s.fifos[id.toNat]? = some a) (hl : LockFree s a.lock) :
      CommandOf s (.fifoPull id other)
        { acquireLock a.lock s with waiting := some { instr := .fifoPull id other, lock := b.lock, inner := true } }
  /-- the source's lock is owned still -/
  | pullWaitsOn (id other : Byte) (b : Fifo) (hh : pullHoldsOuter id other s = true) :
      CommandOf s (.fifoPull id other)
        { s with waiting := some { instr := .fifoPull id other, lock := b.lock, inner := true } }
  /-- both locks were free -/
  | pulled (id other : Byte) (a b : Fifo) (ha : s.fifos[id.toNat]? = some a) (hb : s.fifos[other.toNat]? = some b)
      (hsz : a.size = b.size) :
      CommandOf s (.fifoPull id other) (reply (.count (pullCount a b)) (pullBody id other a b { s with waiting := none }))
  /-- the source's lock is free at last; the destination's, held since, is given back -/
  | pulledHolding (id other : Byte) (a b : Fifo) (ha : s.fifos[id.toNat]? = some a) (hb : s.fifos[other.toNat]? = some b)
      (hsz : a.size = b.size) (hh : pullHoldsOuter id other s = true) :
      CommandOf s (.fifoPull id other)
        (reply (.count (pullCount a b)) (releaseLock a.lock (pullBody id other a b { s with waiting := none })))
  | initialized (h : s.initialized = false) : CommandOf s .devInit (reply .ok (initBlock s))
  | resolverSet (fn : Option Byte) (hn : procNamed s fn = true) :
      CommandOf s (.devSetResolver fn) (reply .done { s with resolver := fn })
  | configured (ep at_ : Byte) (mp : Half) (cb : Option Byte) (hn : procNamed s cb = true)
      (hi : 2 ≤ (idx ep).val) (ht : attrType at_ = 2#2 ∨ attrType at_ = 3#2) :
      CommandOf s (.devConfigureEp ep at_ mp cb) (reply .done (configureEp (idx ep) (attrType at_) cb s))
  /-- MAIN's send has taken the first micro-step of its arming (R186) -/
  | armingBegun (i : Instr) (k : EpIdx) (data : List Byte) (hi : i = .devControlSend data ∨ ∃ ep, i = .devSend ep data)
      (hd : data.length ≤ Config.maxPkt) (hc : s.ctx = .main) : CommandOf s i (startArm k data s)
  /-- external code's send is one step (R279) -/
  | sent (i : Instr) (k : EpIdx) (data : List Byte) (hi : i = .devControlSend data ∨ ∃ ep, i = .devSend ep data)
      (hd : data.length ≤ Config.maxPkt) (hc : s.ctx = .irq) : CommandOf s i (reply .done (armIn k data s))
  | received (ep : Byte) (m : Half) (hm : m.toNat ≤ Config.maxPkt) :
      CommandOf s (.devReceive ep m) (reply .done (armOut (idx ep) m.toNat s))
  | stalled : CommandOf s .devStallControl (reply .done (stallControl s))

/-- Everything a bus event does (R212 to R217). -/
inductive EventOf (s : State) : Instr → State → Prop where
  | reset : EventOf s .busReset { s with busResetLatch := true }
  | setupAccepted (a : BitVec 7) (p : SetupPacket) : EventOf s (.busSetup a p) (acceptSetup p s)
  /-- nothing but an event: ignored, a stall or a NAK -/
  | noticed (i : Instr) (e : Event) : EventOf s i (emit e s)
  | inCompleted (a : BitVec 7) (n : BitVec 4) : EventOf s (.busIn a n) (completeIn n s)
  | outCompleted (a : BitVec 7) (n : BitVec 4) (pid : Bool) (data : List Byte)
      (hl : data.length ≤ (bcLen (bufCtrl s (idxOf n false))).toNat) :
      EventOf s (.busOut a n pid data) (completeOut n pid data s)

/-- Everything a line of the handler does (R230 to R242). -/
inductive LineOf (s : State) : Instr → State → Prop where
  /-- the position moves; beside it only the handler's locals and the event history are written -/
  | moved (i : Instr) (p : HandlerPos) (l : Locals) (ev : List Event) (hp : p ≠ .idle) :
      LineOf s i { s with hpc := p, locals := l, events := ev }
  | raised (i : Instr) (k : FaultKind) : LineOf s i { s with fault := some (s.fault.getD k) }
  /-- external code is called (R236 line 3, R241 line 3) -/
  | called (i : Instr) (p : Proc) (args : List Byte) (hp : s.hpc = .h3Call ∨ s.hpc = .h5Call) :
      LineOf s i (beginCall p args s)
  | resetCleared : LineOf s .irqBusReset (goto .h2Addr (writeIntClr intClrBusReset s))
  | addressZeroed : LineOf s .irqBusReset (goto .h2Conf { s with devAddr := 0 })
  | unconfigured : LineOf s .irqBusReset (goto .h2Go { s with configured := false })
  | setupCleared : LineOf s .irqSetup (goto .h3Copy (writeIntClr intClrSetupReq s))
  | setupCopied : LineOf s .irqSetup (goto .h3Toggle { s with lastSetup := setupHw s, setupValid := true })
  | toggleSet : LineOf s .irqSetup (goto .h3Dispatch (setToggle 0 true s))
  | bitCleared (k : Nat) : LineOf s .irqBuff (goto .h5Len (writeBufStatusClr (indexMask k) s))
  | exited : LineOf s .irqExit (leaveInterrupt s)
  | addressApplied : LineOf s .completeEp0In (goto .h5Serve (applyAddress s))
  | acknowledged (v i l : Half) : LineOf s (.setupSetAddress v i l) (goto .h3Go (armIn 0 [] s))
  | configuredSet (v i l : Half) : LineOf s (.setupSetConfiguration v i l)
      (goto .h3Reject { s with configured := s.configured || s.locals.ok })
  | rejected (i : Instr) (hi : (∃ p, i = .setupOther p) ∨ ∃ v x l, i = .setupSetConfiguration v x l) :
      LineOf s i (goto .h3Go (stallControl s))

/-! The checks, by what an operation that passes them knows. -/

theorem checkTransfer_none {s : State} {d : Bool} {ep : Byte} {n : Nat} (h : checkTransfer s d ep n = none) :
    n ≤ Config.maxPkt := by
  unfold checkTransfer at h
  split at h
  · cases h
  split at h
  · cases h
  split at h
  · cases h
  split at h
  · cases h
  next hn => exact Nat.le_of_not_gt hn

theorem idx_ge_two {ep : Byte} (h : epNum ep ≠ 0#4) : 2 ≤ (idx ep).val := by
  have hn : (epNum ep).toNat ≠ 0 := fun e => h (BitVec.eq_of_toNat_eq e)
  rw [idx, idxOf_val]; omega

theorem checkConfigure_none {s : State} {ep at_ : Byte} {mp : Half}
    (h : checkConfigure s ep at_ mp = none) :
    2 ≤ (idx ep).val ∧ (attrType at_ = 2#2 ∨ attrType at_ = 3#2) := by
  unfold checkConfigure at h
  split at h
  · cases h
  split at h
  · cases h
  next hep =>
  split at h
  · cases h
  next hty =>
  simp only [Bool.or_eq_true, beq_iff_eq, not_or] at hep hty
  refine ⟨idx_ge_two hep.2, ?_⟩
  generalize attrType at_ = ty at hty ⊢
  revert ty; decide

/-! Commands. -/

theorem raise_next {k : FaultKind} {s t : State} (h : raise k s = .next t) :
    t = { s with fault := some (s.fault.getD k) } := by cases h; rfl

/-- A bracket whose function leaves the holder as it is. -/
theorem holderOp_same {s : State} {id : Byte} {q : Holder} (hq : s.holders[id.toNat]? = some q) (r : Result) :
    reply r { s with holders := s.holders.set id.toNat { q with value := q.value }, waiting := none } =
      reply r { s with waiting := none } := by rw [set_self hq]

theorem fifoOp_same {s : State} {id : Byte} {q : Fifo} (hq : s.fifos[id.toNat]? = some q) (r : Result) :
    reply r { s with fifos := s.fifos.set id.toNat q, waiting := none } = reply r { s with waiting := none } := by
  rw [set_self hq]

/-- A holder operation that only reads. -/
theorem holderOp_read {i : Instr} {id : Byte} {s t : State} {f : Elem → Elem × Result} (hf : ∀ x, (f x).1 = x)
    (h : holderOp i id s f = .next t) : CommandOf s i t := by
  obtain ⟨q, hq, ⟨-, rfl⟩ | ⟨hl, rfl⟩⟩ := holderOp_cases h
  · rw [hf, holderOp_same hq]; exact .bracketRead i _
  · exact .waits i _ hl

/-- A FIFO operation that only reads. -/
theorem fifoOp_read {i : Instr} {id : Byte} {s t : State} {f : Fifo → Fifo × Result} (hf : ∀ q, (f q).1 = q)
    (h : fifoOp i id s f = .next t) : CommandOf s i t := by
  obtain ⟨q, hq, ⟨-, rfl⟩ | ⟨hl, rfl⟩⟩ := fifoOp_cases h
  · rw [hf, fifoOp_same hq]; exact .bracketRead i _
  · exact .waits i _ hl

/-- A FIFO operation that writes its FIFO. -/
theorem fifoOp_write {i : Instr} {id : Byte} {s t : State} {f : Fifo → Fifo × Result} (hf : ∀ q, FifoWrite q id i (f q).1)
    (h : fifoOp i id s f = .next t) : CommandOf s i t := by
  obtain ⟨q, hq, ⟨-, rfl⟩ | ⟨hl, rfl⟩⟩ := fifoOp_cases h
  · exact .fifoWritten i id q _ _ hq (hf q)
  · exact .waits i _ hl

theorem shTransition_of {s t : State} {id : Byte} {e v : Elem} (h : execShTransition id e v s = .next t) :
    CommandOf s (.shTransition id e v) t := by
  obtain ⟨q, hq, ⟨-, rfl⟩ | ⟨hl, rfl⟩⟩ := holderOp_cases h
  · by_cases he : q.value = e
    · rw [if_pos he]; exact .transitioned id e v q _ hq
    · rw [if_neg he, holderOp_same hq]; exact .bracketRead _ _
  · exact .waits _ _ hl

theorem shForce_of {s t : State} {id : Byte} {v : Elem} (h : execShForce id v s = .next t) :
    CommandOf s (.shForce id v) t := by
  obtain ⟨q, hq, ⟨-, rfl⟩ | ⟨hl, rfl⟩⟩ := holderOp_cases h
  · exact .forced id v q _ hq
  · exact .waits _ _ hl

theorem lockRelease_of {s t : State} {id : Byte} (h : execLockRelease id s = .next t) : CommandOf s (.lockRelease id) t := by
  unfold execLockRelease at h
  split at h
  · cases h
  next hl =>
  split at h
  · next ho => cases h; exact .released id (ho ▸ hl)
  · rw [raise_next h]; exact .raised _ _

/-- Taking a free lock and giving it back around the body of a pull leaves the locks and the mask as they were (R143). -/
theorem release_pullBody {s : State} {l : Nat} (h : LockFree s l) (id other : Byte) (a b : Fifo) :
    releaseLock l (pullBody id other a b (acquireLock l s)) = pullBody id other a b { s with waiting := none } := by
  obtain ⟨hlk, hm⟩ := release_acquire s (pullBody id other a b (acquireLock l s)) l h rfl rfl rfl
  simp only [releaseLock, pullBody, acquireLock] at hlk hm ⊢
  rw [State.mk.injEq]
  simp only [hlk, hm, and_self]

/-- The inner bracket of a pull: it waits at the source's lock, or runs the body and gives the destination's lock back. -/
theorem pullInner_cases {id other : Byte} {a b : Fifo} {s t : State} (h : pullInner id other a b s = .next t) :
    t = { s with waiting := some { instr := .fifoPull id other, lock := b.lock, inner := true } } ∨
    t = reply (.count (pullCount a b)) (releaseLock a.lock (pullBody id other a b { s with waiting := none })) := by
  obtain ⟨hl, h⟩ | ⟨-, h⟩ := acquireOrWait_cases h
  · right; cases h; rw [release_pullBody hl]
  · exact .inl h

theorem fifoPull_of {s t : State} {id other : Byte} (h : execFifoPull id other s = .next t) :
    CommandOf s (.fifoPull id other) t := by
  unfold execFifoPull at h
  split at h
  case h_2 => cases h
  case h_1 a b ha hb =>
  split at h
  · cases h
  next hsz =>
  have hsz : a.size = b.size := not_not.1 hsz
  split at h
  · next hh =>
    obtain rfl | rfl := pullInner_cases h
    · exact .pullWaitsOn id other b hh
    · exact .pulledHolding id other a b ha hb hsz hh
  · obtain ⟨hl, h⟩ | ⟨hl, rfl⟩ := acquireOrWait_cases h
    · obtain rfl | rfl := pullInner_cases h
      · exact .pullWaits id other a b ha hl
      · rw [show ({ acquireLock a.lock s with waiting := none } : State) = acquireLock a.lock s from rfl,
          release_pullBody hl]
        exact .pulled id other a b ha hb hsz
    · exact .waits _ _ hl

/-- DEV.INIT by the device state (R180, R181). -/
theorem devInit_cases {s t : State} (h : execDevInit s = .next t) :
    (s.initialized = true ∧ t = reply .errAlreadyInitialized s) ∨
    (s.initialized = false ∧ t = reply .ok (initBlock s)) := by
  unfold execDevInit at h
  split at h
  · next hi => cases h; exact .inl ⟨hi, rfl⟩
  · next hi => cases h; exact .inr ⟨by simpa using hi, rfl⟩

/-- DEV.CONFIGURE_EP by its checks (R183, R184). -/
theorem devConfigureEp_cases {s t : State} {ep at_ : Byte} {mp : Half} {cb : Option Byte}
    (h : execDevConfigureEp ep at_ mp cb s = .next t) :
    (∃ k : FaultKind, t = { s with fault := some (s.fault.getD k) }) ∨
    (procNamed s cb = true ∧ 2 ≤ (idx ep).val ∧ (attrType at_ = 2#2 ∨ attrType at_ = 3#2) ∧
      t = reply .done (configureEp (idx ep) (attrType at_) cb s)) := by
  obtain ⟨hn, h⟩ := withProc_next h
  split at h
  · exact .inl ⟨_, raise_next h⟩
  · next hk =>
    obtain ⟨hi, ht⟩ := checkConfigure_none hk
    cases h; exact .inr ⟨hn, hi, ht, rfl⟩

theorem devInit_of {s t : State} (h : execDevInit s = .next t) : CommandOf s .devInit t := by
  obtain ⟨-, rfl⟩ | ⟨hi, rfl⟩ := devInit_cases h
  · exact .answered _ _
  · exact .initialized hi

theorem devConfigureEp_of {s t : State} {ep at_ : Byte} {mp : Half} {cb : Option Byte}
    (h : execDevConfigureEp ep at_ mp cb s = .next t) : CommandOf s (.devConfigureEp ep at_ mp cb) t := by
  obtain ⟨k, rfl⟩ | ⟨hn, hi, ht, rfl⟩ := devConfigureEp_cases h
  · exact .raised _ _
  · exact .configured ep at_ mp cb hn hi ht

theorem sendOn_of {s t : State} {ep : Byte} {data : List Byte} {i : Instr}
    (hi : i = .devControlSend data ∨ ∃ ep, i = .devSend ep data) (h : sendOn ep data s = .next t) : CommandOf s i t := by
  unfold sendOn at h
  split at h
  · rw [raise_next h]; exact .raised _ _
  next hk =>
  cases h
  rcases hc : s.ctx with _ | _
  · rw [runArmIn_main _ _ hc]; exact .armingBegun i _ data hi (checkTransfer_none hk) hc
  · rw [runArmIn_irq _ _ hc]; exact .sent i _ data hi (checkTransfer_none hk) hc

theorem devReceive_of {s t : State} {ep : Byte} {m : Half} (h : execDevReceive ep m s = .next t) :
    CommandOf s (.devReceive ep m) t := by
  unfold execDevReceive at h
  split at h
  · rw [raise_next h]; exact .raised _ _
  · next hk => cases h; exact .received ep m (checkTransfer_none hk)

theorem devIsSendPending_of {s t : State} {ep : Byte} (h : execDevIsSendPending ep s = .next t) :
    CommandOf s (.devIsSendPending ep) t := by
  unfold execDevIsSendPending at h
  split at h
  · rw [raise_next h]; exact .raised _ _
  · cases h; exact .answered _ _

theorem devStallControl_of {s t : State} (h : execDevStallControl s = .next t) : CommandOf s .devStallControl t := by
  unfold execDevStallControl at h
  split at h
  · rw [raise_next h]; exact .raised _ _
  · cases h; exact .stalled

/-- A command that goes on does one of these. -/
theorem exec_command {i : Instr} {s t : State} (hf : i.format = .cmd) (h : exec i s = .next t) : CommandOf s i t := by
  cases i with
  | lockAcquire id =>
    rw [exec_lockAcquire] at h
    obtain ⟨hl, h⟩ | ⟨hl, rfl⟩ := acquireOrWait_cases h
    · cases h; exact .acquired id hl
    · exact .waits _ _ hl
  | lockRelease id => exact lockRelease_of h
  | shGet id => rw [exec_shGet] at h; exact holderOp_read (fun _ => rfl) h
  | shIs id v => rw [exec_shIs] at h; exact holderOp_read (fun _ => rfl) h
  | shTransition id e v => exact shTransition_of h
  | shForce id v => exact shForce_of h
  | fifoEnqueue id items => rw [exec_fifoEnqueue] at h; exact fifoOp_write (fun q => .enqueued items _) h
  | fifoDequeue id max => rw [exec_fifoDequeue] at h; exact fifoOp_write (fun q => .dequeued max _) h
  | fifoErase id n => rw [exec_fifoErase] at h; exact fifoOp_write (fun q => .erased n _) h
  | fifoPull id other => exact fifoPull_of h
  | fifoClear id => rw [exec_fifoClear] at h; exact fifoOp_write (fun q => .cleared) h
  | fifoFind id m => rw [exec_fifoFind] at h; exact fifoOp_read (fun _ => rfl) h
  | fifoOccupied id => rw [exec_fifoOccupied] at h; exact fifoOp_read (fun _ => rfl) h
  | fifoFree id => rw [exec_fifoFree] at h; exact fifoOp_read (fun _ => rfl) h
  | fifoCapacity id => rw [exec_fifoCapacity] at h; exact fifoOp_read (fun _ => rfl) h
  | devInit => exact devInit_of h
  | devSetResolver fn => rw [exec_devSetResolver] at h; obtain ⟨hn, h⟩ := withProc_next h; cases h; exact .resolverSet fn hn
  | devConfigureEp ep at_ mp cb => exact devConfigureEp_of h
  | devControlSend data => rw [exec_devControlSend] at h; exact sendOn_of (.inl rfl) h
  | devSend ep data => rw [exec_devSend] at h; exact sendOn_of (.inr ⟨ep, rfl⟩) h
  | devReceive ep m => exact devReceive_of h
  | devIsSendPending ep => exact devIsSendPending_of h
  | devStallControl => exact devStallControl_of h
  | _ => cases hf

/-! Bus events. -/

/-- A bus event that goes on does one of these. -/
theorem exec_event {i : Instr} {s t : State} (hf : i.format = .bus) (h : exec i s = .next t) : EventOf s i t := by
  cases i with
  | busReset => obtain ⟨-, h⟩ := whenEnabled_next h; cases h; exact .reset
  | busSetup a p =>
    obtain ⟨-, h⟩ := whenEnabled_next h
    split at h
    · cases h; exact .setupAccepted a p
    · cases h; exact .noticed _ _
  | busIn a n =>
    obtain ⟨-, h⟩ := whenEnabled_next h
    split at h
    · cases h; exact .noticed _ _
    split at h
    · cases h; exact .noticed _ _
    split at h
    · cases h; exact .noticed _ _
    split at h
    · cases h; exact .inCompleted a n
    · cases h
  | busOut a n pid data =>
    obtain ⟨-, h⟩ := whenEnabled_next h
    split at h
    · cases h; exact .noticed _ _
    split at h
    · cases h; exact .noticed _ _
    split at h
    · cases h; exact .noticed _ _
    split at h
    · cases h
    next hl =>
    split at h
    · cases h; exact .outCompleted a n pid data (Nat.le_of_not_gt hl)
    · cases h
  | _ => cases hf

/-! Lines of the handler. -/

theorem irqEntry_of {s t : State} (h : execIrqEntry s = .next t) : LineOf s .irqEntry t := by
  unfold execIrqEntry at h
  split at h
  · cases h; exact .moved _ .h2Clear _ _ (by decide)
  · cases h; exact .moved _ .h1Go _ _ (by decide)

theorem irqBusReset_of {s t : State} (h : execIrqBusReset s = .next t) : LineOf s .irqBusReset t := by
  unfold execIrqBusReset at h
  split at h
  · cases h; exact .addressZeroed
  · cases h; exact .unconfigured
  · cases h; exact .moved _ .h3Clear _ _ (by decide)
  · split at h
    · cases h; exact .resetCleared
    · cases h; exact .moved _ .h3Clear _ _ (by decide)

theorem irqSetup_of {s t : State} (h : execIrqSetup s = .next t) : LineOf s .irqSetup t := by
  unfold execIrqSetup at h
  split at h
  · cases h; exact .setupCopied
  · cases h; exact .toggleSet
  · cases h; exact .moved _ .h4 _ _ (by decide)
  · split at h
    · cases h; exact .setupCleared
    · cases h; exact .moved _ .h4 _ _ (by decide)

theorem irqBuff_of {s t : State} (h : execIrqBuff s = .next t) : LineOf s .irqBuff t := by
  unfold execIrqBuff at h
  split at h
  · next hp =>
    split at h
    · split at h
      · cases h; exact .bitCleared _
      · cases h; exact .moved _ s.hpc _ _ (hp ▸ by decide)
    · cases h; exact .moved _ .h6 _ _ (by decide)
  · split at h
    · cases h; exact .moved _ _ _ _ (by split <;> decide)
    · cases h; exact .moved _ .h6 _ _ (by decide)
  · cases h; exact .moved _ .h5Loop _ _ (by decide)
  · split at h
    · cases h; exact .moved _ .h5Loop _ _ (by decide)
    · cases h; exact .moved _ .h6 _ _ (by decide)

/-- A line that serves a callback, of any completion service. -/
theorem serveCallback_of {s t : State} {k : EpIdx} (i : Instr) (h : serveCallback k s = .next t) : LineOf s i t := by
  unfold serveCallback at h
  split at h
  · cases h; exact .moved _ .h5Call _ _ (by decide)
  · next hp =>
    split at h
    · cases h; exact .moved _ .h5Returned _ _ (by decide)
    · obtain ⟨p, -, rfl⟩ := callProc_next h; exact .called _ p _ (.inr hp)
  · cases h; exact .moved _ .h5Next _ _ (by decide)
  · split at h
    · cases h; exact .moved _ .h5Next _ _ (by decide)
    · split at h
      · cases h; exact .moved _ .h5Emit _ _ (by decide)
      · cases h

theorem completeEp0In_of {s t : State} (h : execCompleteEp0In s = .next t) : LineOf s .completeEp0In t := by
  unfold execCompleteEp0In at h
  split at h
  case h_5 => cases h; exact .addressApplied
  all_goals exact serveCallback_of _ h

/-- A line of the dispatch to the resolver, of either class of packet; only line 5 tells the classes apart. -/
theorem dispatchResolver_of {s t : State} {p : SetupPacket} {sets : Bool} {i : Instr}
    (hi : (∃ p, i = .setupOther p) ∨ ∃ v x l, i = .setupSetConfiguration v x l)
    (hc : LineOf s i (goto .h3Reject { s with configured := s.configured || (s.locals.ok && sets) }))
    (h : dispatchResolver p sets s = .next t) : LineOf s i t := by
  unfold dispatchResolver at h
  split at h
  · cases h; exact .moved _ .h3Call _ _ (by decide)
  · next hp =>
    split at h
    · rw [raise_next h]; exact .raised _ _
    · obtain ⟨q, -, rfl⟩ := callProc_next h; exact .called _ q _ (.inl hp)
  · cases h; exact .moved _ .h3Configure _ _ (by decide)
  · cases h; exact hc
  · split at h
    · cases h; exact .moved _ .h3Go _ _ (by decide)
    · split at h
      · rw [raise_next h]; exact .raised _ _
      · cases h; exact .rejected i hi
  · split at h
    · rw [raise_next h]; exact .raised _ _
    · cases h; exact .moved _ .h3Emit _ _ (by decide)

theorem setupSetConfiguration_of {s t : State} {v x l : Half} (h : execSetupSetConfiguration v x l s = .next t) :
    LineOf s (.setupSetConfiguration v x l) t := by
  refine dispatchResolver_of (.inr ⟨v, x, l, rfl⟩) ?_ h
  rw [Bool.and_true]; exact .configuredSet v x l

theorem setupOther_of {s t : State} {p : SetupPacket} (h : execSetupOther p s = .next t) : LineOf s (.setupOther p) t := by
  refine dispatchResolver_of (.inl ⟨p, rfl⟩) ?_ h
  rw [Bool.and_false, Bool.or_false]; exact .moved _ .h3Reject _ _ (by decide)

/-- An operation of the handler that goes on does one of these. -/
theorem exec_line {i : Instr} {s t : State} (hc : i.format ≠ .cmd) (hb : i.format ≠ .bus) (h : exec i s = .next t) :
    LineOf s i t := by
  cases i with
  | irqEntry => exact irqEntry_of h
  | irqBusReset => exact irqBusReset_of h
  | irqSetup => exact irqSetup_of h
  | irqBuff => exact irqBuff_of h
  | irqExit => cases h; exact .exited
  | completeEp0In => exact completeEp0In_of h
  | completeOut k => exact serveCallback_of _ h
  | completeIn k => exact serveCallback_of _ h
  | setupSetAddress v x l => cases h; exact .acknowledged v x l
  | setupSetConfiguration v x l => exact setupSetConfiguration_of h
  | setupOther p => exact setupOther_of h
  | busReset => exact absurd rfl hb
  | busSetup a p => exact absurd rfl hb
  | busIn a n => exact absurd rfl hb
  | busOut a n pid data => exact absurd rfl hb
  | _ => exact absurd rfl hc

/-- The operation of a packet is a setup class's. -/
theorem decodeSetup_format (p : SetupPacket) : (decodeSetup p).format = .setup8 := by
  unfold decodeSetup
  split
  · rfl
  split
  · rfl
  · rfl

/-- The operation of an index is a completion service's. -/
theorem decodeIndex_format (i : EpIdx) : (decodeIndex i).format = .epidx := by
  unfold decodeIndex
  split
  · rfl
  split
  · rfl
  · rfl

/-- At no position does the handler stand at a command or at a bus event. -/
theorem handlerInstr_format (s : State) : (handlerInstr s).format ≠ .cmd ∧ (handlerInstr s).format ≠ .bus := by
  have hsetup : (decodeSetup s.lastSetup).format ≠ .cmd ∧ (decodeSetup s.lastSetup).format ≠ .bus := by
    rw [decodeSetup_format]; decide
  have hindex : (if h : s.locals.i < 32 then decodeIndex ⟨s.locals.i, h⟩ else .irqBuff).format ≠ .cmd ∧
      (if h : s.locals.i < 32 then decodeIndex ⟨s.locals.i, h⟩ else .irqBuff).format ≠ .bus := by
    split
    · rw [decodeIndex_format]; decide
    · decide
  unfold handlerInstr
  cases s.hpc with
  | h3Dispatch | h3Emit | h3Call | h3Resolved | h3Configure | h3Reject => exact hsetup
  | h5Ep0 | h5Serve | h5Emit | h5Call | h5Returned => exact hindex
  | _ => exact ⟨nofun, nofun⟩

/-- The handler runs a line. -/
theorem exec_handlerInstr {s u t : State} (h : exec (handlerInstr s) u = .next t) : LineOf u (handlerInstr s) t :=
  exec_line (handlerInstr_format s).1 (handlerInstr_format s).2 h

/-- An operation that goes on is of one of the three classes. -/
theorem exec_cases {i : Instr} {s t : State} (h : exec i s = .next t) :
    (i.format = .cmd ∧ CommandOf s i t) ∨ (i.format = .bus ∧ EventOf s i t) ∨ LineOf s i t := by
  by_cases hc : i.format = .cmd
  · exact .inl ⟨hc, exec_command hc h⟩
  · by_cases hb : i.format = .bus
    · exact .inr (.inl ⟨hb, exec_event hb h⟩)
    · exact .inr (.inr (exec_line hc hb h))

end Sys2Proof.Machine
end

section
/-! Who writes which register (R56). -/

namespace Sys2Proof.Machine

/-! The updates of a set of registers. -/

/-- `s` with these registers as they are in `t`, and so with all that is no register of R56's table: the sequencing state,
what is under way, the event history. -/
def copyRegs (ws : List Reg) (s t : State) : State :=
  { s with
    initialized := if ws.contains .initialized then t.initialized else s.initialized
    configured := if ws.contains .configured then t.configured else s.configured
    lastSetup := if ws.contains .lastSetup then t.lastSetup else s.lastSetup
    setupValid := if ws.contains .setupValid then t.setupValid else s.setupValid
    toggle := if ws.contains .toggle then t.toggle else s.toggle
    callback := if ws.contains .callback then t.callback else s.callback
    resolver := if ws.contains .resolver then t.resolver else s.resolver
    devAddr := if ws.contains .devAddr then t.devAddr else s.devAddr
    pullup := if ws.contains .pullup then t.pullup else s.pullup
    intEn := if ws.contains .intEn then t.intEn else s.intEn
    irqInstalled := if ws.contains .irqInstalled then t.irqInstalled else s.irqInstalled
    busResetLatch := if ws.contains .busResetLatch then t.busResetLatch else s.busResetLatch
    setupReqLatch := if ws.contains .setupReqLatch then t.setupReqLatch else s.setupReqLatch
    bufStatus := if ws.contains .bufStatus then t.bufStatus else s.bufStatus
    mem := if ws.contains .mem then t.mem else s.mem
    locks := if ws.contains .locks then t.locks else s.locks
    holders := if ws.contains .holders then t.holders else s.holders
    fifos := if ws.contains .fifos then t.fifos else s.fifos
    ctx := t.ctx, hpc := t.hpc, locals := t.locals, fault := t.fault, irqMask := t.irqMask, arming := t.arming
    waiting := t.waiting, ext := t.ext, events := t.events }

theorem same_copyRegs {r : Reg} {ws : List Reg} (h : r ∉ ws) (s t : State) : r.same s (copyRegs ws s t) := by
  cases r <;> exact if_neg (by simpa using h)

/-- From `s` to `t` no register is written but these. -/
structure Writes (ws : List Reg) (s t : State) : Prop where
  same : ∀ r, r ∉ ws → r.same s t

/-- A state that is `s` but for these registers. -/
theorem Writes.of_copy {ws : List Reg} {s t : State} (h : t = copyRegs ws s t) : Writes ws s t :=
  ⟨fun _ hr => h ▸ same_copyRegs hr s t⟩

theorem Writes.mono {ws ws' : List Reg} {s t : State} (h : Writes ws s t) (hw : ws ⊆ ws') : Writes ws' s t :=
  ⟨fun r hr => h.same r fun hm => hr (hw hm)⟩

/-- A state that is `s` in every register. -/
theorem Writes.of_none {ws : List Reg} {s t : State} (h : t = copyRegs [] s t) : Writes ws s t :=
  (Writes.of_copy h).mono (List.nil_subset ws)

theorem same_reply (r : Reg) (x : Result) (t : State) : r.same t (reply x t) := by
  cases r <;> simp only [Reg.same] <;> simp

/-- A result is written to no register. -/
theorem Writes.reply {ws : List Reg} {s t : State} (h : Writes ws s t) (x : Result) : Writes ws s (reply x t) :=
  ⟨fun r hr => by
    have h := h.same r hr
    have k := same_reply r x t
    cases r <;> exact Eq.trans k h⟩

/-! What the updates with a case of their own write. -/

/-- The first micro-step writes a byte or the word; the arming is on record, and is one reason in `irq_mask` (R85, R186). -/
theorem startArm_frame (k : EpIdx) (data : List Byte) (s : State) : startArm k data s =
    { s with
      mem := (startArm k data s).mem, arming := (startArm k data s).arming, irqMask := s.irqMask + 1 } := by
  cases data <;> rfl

theorem applyAddress_frame (s : State) : applyAddress s =
    { s with devAddr := (applyAddress s).devAddr, events := (applyAddress s).events } := by
  unfold applyAddress; split <;> rfl

theorem writeIntClr_busReset (s : State) : writeIntClr intClrBusReset s = { s with busResetLatch := false } := by
  rw [writeIntClr, show intClrBusReset.getLsbD intsBusReset = true by decide,
    show intClrBusReset.getLsbD intsSetupReq = false by decide]
  simp

theorem writeIntClr_setupReq (s : State) : writeIntClr intClrSetupReq s = { s with setupReqLatch := false } := by
  rw [writeIntClr, show intClrSetupReq.getLsbD intsBusReset = false by decide,
    show intClrSetupReq.getLsbD intsSetupReq = true by decide]
  simp

/-! Each class of operations. -/

theorem FifoWrite.mayWrite {q q' : Fifo} {id : Byte} {i : Instr} (h : FifoWrite q id i q') : mayWrite i = [.locks, .fifos] := by
  cases h <;> rfl

theorem CommandOf.writes {s t : State} {i : Instr} (h : CommandOf s i t) : Writes (mayWrite i) s t := by
  cases h with
  | raised => exact .of_none rfl
  | answered i r => exact .reply (.of_none rfl) r
  | waits => exact .of_none rfl
  | acquired => exact .reply (.of_copy rfl) _
  | released => exact .reply (.of_copy rfl) _
  | bracketRead i r => exact .reply (.of_none rfl) r
  | transitioned => exact .reply (.of_copy rfl) _
  | forced => exact .reply (.of_copy rfl) _
  | fifoWritten i id q q' r _ hw => rw [hw.mayWrite]; exact .reply (.of_copy rfl) r
  | pullWaits => exact .of_copy rfl
  | pullWaitsOn => exact .of_none rfl
  | pulled => exact .reply (.of_copy rfl) _
  | pulledHolding => exact .reply (.of_copy rfl) _
  | initialized => exact .reply (.of_copy rfl) _
  | resolverSet => exact .reply (.of_copy rfl) _
  | configured => exact .reply (.of_copy rfl) _
  | armingBegun i k data hi =>
    rw [startArm_frame]
    obtain rfl | ⟨ep, rfl⟩ := hi <;> exact .of_copy rfl
  | sent i k data hi =>
    refine Writes.reply ?_ _
    obtain rfl | ⟨ep, rfl⟩ := hi <;> exact .of_copy rfl
  | received => exact .reply (.of_copy rfl) _
  | stalled => exact .reply (.of_copy rfl) _

theorem EventOf.writes {s t : State} {i : Instr} (h : EventOf s i t) : Writes (mayWrite i) s t := by
  cases h with
  | reset => exact .of_copy rfl
  | setupAccepted => rw [acceptSetup_frame]; exact .of_copy rfl
  | noticed => exact .of_none rfl
  | inCompleted => rw [completeIn_frame]; exact .of_copy rfl
  | outCompleted => rw [completeOut_frame]; exact .of_copy rfl

theorem LineOf.writes {s t : State} {i : Instr} (h : LineOf s i t) : Writes (mayWrite i) s t := by
  cases h with
  | moved => exact .of_none rfl
  | raised => exact .of_none rfl
  | called => exact .of_none rfl
  | resetCleared => rw [writeIntClr_busReset]; exact .of_copy rfl
  | setupCleared => rw [writeIntClr_setupReq]; exact .of_copy rfl
  | addressApplied => rw [applyAddress_frame]; exact .of_copy rfl
  | rejected i hi => obtain ⟨p, rfl⟩ | ⟨v, x, l, rfl⟩ := hi <;> exact .of_copy rfl
  | _ => exact .of_copy rfl

/-- An operation writes the registers of its row and no other. -/
theorem exec_writes {i : Instr} {s t : State} (h : exec i s = .next t) : Writes (mayWrite i) s t := by
  obtain ⟨-, h⟩ | ⟨-, h⟩ | h := exec_cases h
  · exact h.writes
  · exact h.writes
  · exact h.writes

/-- Settles O52, by the class of the operation and what an operation of the class does. -/
theorem onlyItsWritersWriteARegister : Obligations.OnlyItsWritersWriteARegister :=
  fun r _ _ _ h hr => (exec_writes h).same r hr

end Sys2Proof.Machine
end

section
/-! The values after power-on, the status word, and the FIFO as a queue. -/

namespace Sys2Proof.Machine

/-! Power-on (R58, R291). -/

/-- Settles O53, by evaluating the state after power-on. -/
theorem resetValues : Obligations.ResetValues := by
  refine ⟨rfl, rfl, rfl, ?tables, rfl, rfl, ?locks, ?cursors, rfl, rfl, rfl, rfl, rfl, rfl⟩
  case tables => decide
  case locks => decide
  case cursors => decide

/-- DPRAM lists no byte after power-on, so every register word is 0. -/
theorem bufCtrl_reset (i : EpIdx) : bufCtrl State.reset i = 0 := memReadWord_nil _

theorem epCtrl_reset (i : EpIdx) : epCtrl State.reset i = 0 := memReadWord_nil _

theorem lenOk_reset : LenOk State.reset := by
  refine ⟨fun i => ?_, by decide, fun a h => by cases h⟩
  rw [bufCtrl_reset]; decide

theorem fifosOk_reset : FifosOk State.reset := by
  unfold FifosOk FifoOk; decide

/-- No command waits after power-on. -/
theorem waitsForCommand_reset : WaitsForCommand State.reset := fun w h => by cases h

/-- Settles O54: nothing is under way, DPRAM is empty, no procedure is named, and the cursors are 0. -/
theorem invariantsHoldAtReset : Obligations.InvariantsHoldAtReset := by
  refine ⟨?mem, ?stall, ?reserved, ?ep, lenOk_reset, ?callback, ?position, ?uninit, ?mask, fifosOk_reset, ?procs, ?types⟩
  case mem => exact ⟨memWf_reset, fun a h => by cases h⟩
  case stall => intro i _; rw [bufCtrl_reset]; decide
  case reserved => intro i k _; rw [bufCtrl_reset]; exact BitVec.getLsbD_zero
  case ep => intro i _ h; rw [epCtrl_reset] at h; exact absurd h (by decide)
  case callback => exact ⟨by decide, by decide⟩
  case position => exact ⟨by decide, by decide, by decide, waitsForCommand_reset⟩
  case uninit => exact ⟨fun _ => ⟨rfl, rfl, rfl, rfl⟩, waitsForCommand_reset⟩
  case mask => exact ⟨by decide, fun w h => by cases h⟩
  case procs => exact ⟨rfl, by decide⟩
  case types => exact ⟨by decide, by decide, fun w h => by cases h⟩

/-! INT_STATUS and the clear channels (R32, R33, R35, R40). -/

/-- Every bit of `INT_STATUS` by position (R32, R110). -/
theorem getLsbD_intStatus (s : State) (k : Nat) : (intStatus s).getLsbD k =
    if k = 12 then s.busResetLatch && s.intEn.getLsbD 12
    else if k = 16 then s.setupReqLatch && s.intEn.getLsbD 16
    else if k = 4 then decide (s.bufStatus ≠ 0) && s.intEn.getLsbD 4
    else false := by
  by_cases h12 : k = 12
  · subst h12; exact intStatus_busReset s
  by_cases h16 : k = 16
  · subst h16; exact intStatus_setupReq s
  by_cases h4 : k = 4
  · subst h4
    have hb : (s.bufStatus != 0) = decide (s.bufStatus ≠ 0) := by simp only [bne, ne_eq, decide_not, beq_eq_decide]
    exact hb ▸ intStatus_buffStatus s
  · rw [if_neg h12, if_neg h16, if_neg h4, intStatus, getLsbD_setBit_ne _ intsBuffStatus k _ h4,
      getLsbD_setBit_ne _ intsSetupReq k _ h16, getLsbD_setBit_ne _ intsBusReset k _ h12]
    exact BitVec.getLsbD_zero

/-- A word with no bit but these three is 0 exactly when they are 0. -/
theorem intStatus_ne_zero (s : State) : intStatus s ≠ 0 ↔ (intStatus s).getLsbD intsBusReset = true ∨
    (intStatus s).getLsbD intsSetupReq = true ∨ (intStatus s).getLsbD intsBuffStatus = true := by
  constructor
  · intro h
    by_contra hn
    simp only [not_or, Bool.not_eq_true] at hn
    obtain ⟨h12, h16, h4⟩ := hn
    refine h (BitVec.eq_of_getLsbD_eq fun k _ => Eq.trans ?_ BitVec.getLsbD_zero.symm)
    by_cases k12 : k = 12
    · subst k12; exact h12
    by_cases k16 : k = 16
    · subst k16; exact h16
    by_cases k4 : k = 4
    · subst k4; exact h4
    · rw [getLsbD_intStatus, if_neg k12, if_neg k16, if_neg k4]
  · rintro h h0
    rw [h0] at h
    simp at h

/-- Settles O39, bit by bit. -/
theorem statusWordAndClearChannels : Obligations.StatusWordAndClearChannels := by
  intro s
  refine ⟨fun k _ => getLsbD_intStatus s k, ?line, ?intClr, fun m => ⟨rfl, fun k hk => ?bufClr⟩⟩
  case line =>
    rw [irqLine_eq, Bool.eq_iff_iff]
    simp only [Bool.and_eq_true, Bool.or_eq_true, decide_eq_true_eq, intStatus_ne_zero, or_assoc]
  case intClr =>
    intro m
    unfold writeIntClr intsBusReset intsSetupReq
    cases m.getLsbD 12 <;> cases m.getLsbD 16 <;> simp
  case bufClr =>
    unfold writeBufStatusClr
    rw [BitVec.getLsbD_and, BitVec.getLsbD_not, decide_eq_true hk, Bool.true_and]

/-! The FIFO as a queue (R45, R170). -/

/-- ENQUEUE on the contents (R161): of the items, as many as fit. -/
theorem fifoContents_enqueue (f : Fifo) (h : FifoOk f) (items : List Elem) :
    fifoContents (fifoPush f (items.take (min items.length (fifoFree f)))) = fifoContents f ++ items.take (fifoFree f) := by
  have hfit : items.take (min items.length (fifoFree f)) = items.take (fifoFree f) :=
    List.take_eq_take_iff.2 (by omega)
  rw [hfit, fifoContents_push _ f h (List.length_take_le _ _)]

/-- DEQUEUE and ERASE on the contents (R162, R163): the oldest go. -/
theorem fifoContents_dequeue (f : Fifo) (h : FifoOk f) (n : Nat) :
    fifoContents (fifoDrop f (min n (fifoCount f))) = (fifoContents f).drop n := by
  rw [fifoContents_drop f h (Nat.min_le_right _ _)]
  exact List.drop_eq_drop_iff.2 (by rw [fifoContents_length]; omega)

/-- The elements DEQUEUE returns are the first of the contents (R162). -/
theorem fifoOldest_min (f : Fifo) (n : Nat) : fifoOldest f (min n (fifoCount f)) = (fifoContents f).take n := by
  rw [fifoOldest_eq_take f (Nat.min_le_right _ _)]
  exact List.take_eq_take_iff.2 (by rw [fifoContents_length]; omega)

/-- Settles O20: each operation on the contents, through the bracket of a free lock. -/
theorem fifoIsAQueue : Obligations.FifoIsAQueue := by
  intro id s f hr
  have hok : FifoOk f := hr.2.1
  rw [fifoContents_length]
  refine ⟨Nat.le_sub_one_of_lt (fifoCount_lt f hok), ?enqueue, ?dequeue, ?erase, ?clear⟩
  case enqueue =>
    intro items
    refine ⟨fifoPush f (items.take (min items.length (fifoFree f))), ?_, fifoPush_ok _ f hok, fifoContents_enqueue f hok items⟩
    rw [exec_fifoEnqueue, fifoOp_ready hr]; rfl
  case dequeue =>
    intro max
    refine ⟨fifoDrop f (min max.toNat (fifoCount f)), ?_, fifoDrop_ok f _ hok, fifoContents_dequeue f hok _⟩
    rw [exec_fifoDequeue, fifoOp_ready hr, fifoOldest_min]
  case erase =>
    intro n
    refine ⟨fifoDrop f (min n.toNat (fifoCount f)), ?_, fifoDrop_ok f _ hok, fifoContents_dequeue f hok _⟩
    rw [exec_fifoErase, fifoOp_ready hr]
  case clear =>
    refine ⟨{ f with r := f.w }, ?_, ⟨hok.1, hok.1⟩, fifoContents_clear f hok⟩
    rw [exec_fifoClear, fifoOp_ready hr]

end Sys2Proof.Machine
end

section
/-! What each class of operations leaves alone beside R56's registers, and one step as a relation of its two states. -/

namespace Sys2Proof.Machine

/-! What an operation leaves of the sequencing state. -/

theorem reply_ext_isSome (r : Result) (s : State) : (reply r s).ext.isSome = s.ext.isSome := by
  unfold reply; split
  · rfl
  · exact Option.isSome_map

/-- What no command touches: the context, the position, the list of procedures; a call under way stays under way. -/
theorem CommandOf.sequencing {s t : State} {i : Instr} (h : CommandOf s i t) :
    t.ctx = s.ctx ∧ t.hpc = s.hpc ∧ t.procs = s.procs ∧ t.ext.isSome = s.ext.isSome := by
  cases h with
  | raised | waits | pullWaits | pullWaitsOn => exact ⟨rfl, rfl, rfl, rfl⟩
  | armingBegun => rw [startArm_frame]; exact ⟨rfl, rfl, rfl, rfl⟩
  | _ => exact ⟨reply_ctx _ _, reply_hpc _ _, reply_procs _ _, reply_ext_isSome _ _⟩

/-- What no line of the handler touches: everything of the command side. -/
theorem LineOf.frame {s t : State} {i : Instr} (h : LineOf s i t) : t = { s with
    configured := t.configured, lastSetup := t.lastSetup, setupValid := t.setupValid, toggle := t.toggle
    devAddr := t.devAddr, busResetLatch := t.busResetLatch, setupReqLatch := t.setupReqLatch, bufStatus := t.bufStatus
    mem := t.mem, ctx := t.ctx, hpc := t.hpc, locals := t.locals, fault := t.fault, ext := t.ext, events := t.events } := by
  cases h with
  | addressApplied => rw [applyAddress_frame]; rfl
  | _ => rfl

/-- What no micro-step of `arm_in` touches. -/
theorem armStep_frame (s : State) : armStep s = { s with
    mem := (armStep s).mem, toggle := (armStep s).toggle, irqMask := (armStep s).irqMask, arming := (armStep s).arming
    ext := (armStep s).ext, mainOut := (armStep s).mainOut } := by
  rcases ha : s.arming with _ | a
  · rw [armStep_none ha]
  · obtain ⟨b, bs, -, h⟩ | ⟨-, -, h⟩ | ⟨-, -, h⟩ := armStep_cases ha
    · rw [h]; rfl
    · rw [h]; rfl
    · rw [h]; unfold reply; split <;> rfl

/-- What the return of external code touches. -/
theorem endCall_frame (ok : Bool) (s : State) : endCall ok s =
    { s with ext := none, hpc := (endCall ok s).hpc, locals := (endCall ok s).locals } := by
  unfold endCall; split <;> rfl

theorem exec_procs {i : Instr} {s t : State} (h : exec i s = .next t) : t.procs = s.procs := by
  obtain ⟨-, h⟩ | ⟨hf, -⟩ | h' := exec_cases h
  · exact h.sequencing.2.2.1
  · rw [bus_frame hf h]
  · rw [h'.frame]

/-! One step. -/

/-- A relation that holds from every state to what one operation, one micro-step of `arm_in`, the return of external code
or the entry of the handler makes of it, and does not see the ports, the schedule or the record of a call, holds from every
state to its next state. -/
theorem step_related {R : State → State → Prop} {s t : State}
    (hports : ∀ u v sched mp bp e, R { u with sched := sched, mainPort := mp, busPort := bp, ext := e } v → R u v)
    (hidle : ∀ u, R u u) (harm : ∀ u, R u (armStep u)) (hend : ∀ u ok, R u (endCall ok u))
    (hentry : ∀ u, R u (takeInterrupt u)) (hexec : ∀ i u v, exec i u = .next v → R u v)
    (h : step s = .next t) : R s t := by
  obtain ⟨-, sched, h⟩ := step_cases h
  refine hports s t sched s.mainPort s.busPort s.ext ?_
  cases h with
  | idle h => exact h ▸ hidle _
  | arm a _ h => exact h ▸ harm _
  | retry w _ _ h => exact hexec _ _ _ h
  | extReturn e ok _ _ _ h => exact h ▸ hend _ ok
  | extIssue e k i _ _ _ _ _ h => exact hports _ t sched s.mainPort s.busPort _ (hexec _ _ _ h)
  | handler _ _ _ _ h => exact hexec _ _ _ h
  | entry _ _ _ _ _ h => exact h ▸ hentry _
  | main i rest _ _ _ _ _ _ _ h => exact hports _ t sched rest s.busPort s.ext (hexec _ _ _ h)
  | host i rest _ _ h => exact hports _ t sched s.mainPort rest s.ext (hexec _ _ _ h)

end Sys2Proof.Machine
end

section
/-! The register words in DPRAM and the tables of procedures, over every step (R26, R36, R41, R108, R113, R115, R126 g). -/

namespace Sys2Proof.Machine

/-! DPRAM after each operation that writes it. -/

/-- The two words of the control endpoint lose their stall (R213). -/
theorem acceptSetup_mem (p : SetupPacket) (s : State) : (acceptSetup p s).mem =
    (setBufCtrl 1 (setBit (bufCtrl s 1) bcStall false)
      (setBufCtrl 0 (setBit (bufCtrl s 0) bcStall false) (setSetupHw p s))).mem := by
  have h0 : bufCtrl (setSetupHw p s) 0 = bufCtrl s 0 := bufCtrl_setSetupHw p 0 s
  have h1 (w : Word) : bufCtrl (setBufCtrl 0 w (setSetupHw p s)) 1 = bufCtrl s 1 := by
    rw [bufCtrl_set_ne (by decide), bufCtrl_setSetupHw]
  unfold acceptSetup
  simp only [emit_mem, h0, h1]

/-- A micro-step of `arm_in` writes one byte of the buffer, or the word, or nothing of DPRAM. -/
theorem armStep_mem (s : State) : (armStep s).mem = s.mem ∨
    (∃ i off bs, (armStep s).mem = (writeBuf i off bs s).mem) ∨
    ∃ i pid n, (armStep s).mem = (setBufCtrl i (armInWord pid n) s).mem := by
  rcases ha : s.arming with _ | a
  · exact .inl (by rw [armStep_none ha])
  · obtain ⟨b, bs, -, h⟩ | ⟨-, -, h⟩ | ⟨-, -, h⟩ := armStep_cases ha
    · exact .inr (.inl ⟨a.idx, a.off, [b], by rw [h]⟩)
    · exact .inr (.inr ⟨a.idx, s.toggle[a.idx.val], a.len, by rw [h]⟩)
    · exact .inl ((congrArg State.mem h).trans (reply_mem _ _))

/-- The first micro-step is one of the two that write. -/
theorem startArm_mem (k : EpIdx) (data : List Byte) (s : State) :
    (∃ b, (startArm k data s).mem = (writeBuf k 0 [b] s).mem) ∨
    (startArm k data s).mem = (setBufCtrl k (armInWord s.toggle[k.val] 0) s).mem := by
  cases data with
  | nil => exact .inr rfl
  | cons b bs => exact .inl ⟨b, rfl⟩

theorem bufCtrl_initBlock (s : State) (j : EpIdx) : bufCtrl (initBlock s) j = 0 := memReadWord_nil _

theorem epCtrl_initBlock (s : State) (j : EpIdx) : epCtrl (initBlock s) j = 0 := memReadWord_nil _

theorem configureEp_mem (i : EpIdx) (ty : BitVec 2) (cb : Option Byte) (s : State) : (configureEp i ty cb s).mem =
    (setEpCtrl i (mkEpCtrl true ty (BitVec.ofNat 16 (bufAddr i))) s).mem := by rw [configureEp_frame]

theorem pullBody_mem (id other : Byte) (a b : Fifo) (s : State) : (pullBody id other a b s).mem = s.mem := rfl

theorem endCall_mem (ok : Bool) (s : State) : (endCall ok s).mem = s.mem := by rw [endCall_frame]

/-! What becomes of one buffer-control word. -/

/-- Every value one step can give the word `w` of index `j` (R186, R187, R191, R213, R214, R216). -/
inductive BufWordStep (j : EpIdx) (w : Word) : Word → Prop where
  | same : BufWordStep j w w
  /-- DEV.INIT -/
  | zero : BufWordStep j w 0
  /-- an arming: no stall -/
  | armed (full pid : Bool) (n : Nat) : BufWordStep j w (mkBufCtrl full pid false true (BitVec.ofNat 10 n))
  | stalled (hj : j.val < 2) : BufWordStep j w (setBit w bcStall true)
  | unstalled : BufWordStep j w (setBit w bcStall false)
  | sent : BufWordStep j w (inDoneWord w)
  | received (n : Nat) : BufWordStep j w (outDoneWord w n)

/-- Where DPRAM is as before. -/
theorem BufWordStep.of_mem {s t : State} (h : t.mem = s.mem) (j : EpIdx) : BufWordStep j (bufCtrl s j) (bufCtrl t j) :=
  bufCtrl_congr h j ▸ .same

/-- Where of the words only that of index `k` is written. -/
theorem BufWordStep.of_set {s u t : State} {k : EpIdx} {w : Word} (h : t.mem = (setBufCtrl k w u).mem)
    (hu : ∀ j, bufCtrl u j = bufCtrl s j) (hw : BufWordStep k (bufCtrl s k) w) (j : EpIdx) :
    BufWordStep j (bufCtrl s j) (bufCtrl t j) := by
  rw [bufCtrl_congr h, bufCtrl_set_eq]
  split
  · next e => exact e ▸ hw
  · rw [hu]; exact .same

theorem acceptSetup_bufWord (p : SetupPacket) (s : State) (j : EpIdx) :
    BufWordStep j (bufCtrl s j) (bufCtrl (acceptSetup p s) j) := by
  rw [bufCtrl_congr (acceptSetup_mem p s), bufCtrl_set_eq, bufCtrl_set_eq, bufCtrl_setSetupHw]
  split
  · next e => exact e ▸ .unstalled
  split
  · next e => exact e ▸ .unstalled
  · exact .same

theorem armIn_bufWord (i : EpIdx) (data : List Byte) (s : State) (j : EpIdx) :
    BufWordStep j (bufCtrl s j) (bufCtrl (armIn i data s) j) :=
  .of_set (armIn_mem i data s) (fun k => bufCtrl_writeBuf i k 0 data s) (.armed _ _ _) j

theorem stallIndex_lt (s : State) : (stallIndex s).val < 2 := by unfold stallIndex; split <;> decide

theorem stallControl_bufWord (s : State) (j : EpIdx) : BufWordStep j (bufCtrl s j) (bufCtrl (stallControl s) j) :=
  .of_set (u := s) rfl (fun _ => rfl) (.stalled (stallIndex_lt s)) j

theorem armStep_bufWord (s : State) (j : EpIdx) : BufWordStep j (bufCtrl s j) (bufCtrl (armStep s) j) := by
  obtain h | ⟨i, off, bs, h⟩ | ⟨i, pid, n, h⟩ := armStep_mem s
  · exact .of_mem h j
  · rw [bufCtrl_congr h, bufCtrl_writeBuf]; exact .same
  · exact .of_set h (fun _ => rfl) (.armed _ _ _) j

theorem CommandOf.bufWord {s t : State} {i : Instr} (h : CommandOf s i t) (j : EpIdx) :
    BufWordStep j (bufCtrl s j) (bufCtrl t j) := by
  cases h with
  | raised | waits | pullWaits | pullWaitsOn => exact .of_mem rfl j
  | initialized =>
    rw [bufCtrl_congr (reply_mem _ _), bufCtrl_initBlock]
    exact .zero
  | configured =>
    rw [bufCtrl_congr (reply_mem _ _), bufCtrl_congr (configureEp_mem _ _ _ s), bufCtrl_setEpCtrl]
    exact .same
  | armingBegun i k data =>
    obtain ⟨b, h⟩ | h := startArm_mem k data s
    · rw [bufCtrl_congr h, bufCtrl_writeBuf]; exact .same
    · exact .of_set h (fun _ => rfl) (.armed _ _ _) j
  | sent i k data => rw [bufCtrl_congr (reply_mem _ _)]; exact armIn_bufWord k data s j
  | received => exact .of_set (u := s) ((reply_mem _ _).trans (armOut_mem _ _ s)) (fun _ => rfl) (.armed _ _ _) j
  | stalled => rw [bufCtrl_congr (reply_mem _ _)]; exact stallControl_bufWord s j
  | _ => exact .of_mem (by simp [pullBody_mem]) j

theorem EventOf.bufWord {s t : State} {i : Instr} (h : EventOf s i t) (j : EpIdx) :
    BufWordStep j (bufCtrl s j) (bufCtrl t j) := by
  cases h with
  | reset | noticed => exact .of_mem rfl j
  | setupAccepted a p => exact acceptSetup_bufWord p s j
  | inCompleted a n => exact .of_set (completeIn_mem n s) (fun _ => rfl) .sent j
  | outCompleted a n pid data =>
    exact .of_set (completeOut_mem n pid data s) (fun k => bufCtrl_writeBuf _ k 0 data s) (.received _) j

theorem LineOf.bufWord {s t : State} {i : Instr} (h : LineOf s i t) (j : EpIdx) :
    BufWordStep j (bufCtrl s j) (bufCtrl t j) := by
  cases h with
  | acknowledged => exact armIn_bufWord 0 [] s j
  | rejected => exact stallControl_bufWord s j
  | addressApplied => exact .of_mem (by rw [applyAddress_frame]; rfl) j
  | _ => exact .of_mem rfl j

theorem exec_bufWord {i : Instr} {s t : State} (h : exec i s = .next t) (j : EpIdx) :
    BufWordStep j (bufCtrl s j) (bufCtrl t j) := by
  obtain ⟨-, h⟩ | ⟨-, h⟩ | h := exec_cases h
  · exact h.bufWord j
  · exact h.bufWord j
  · exact h.bufWord j

/-- What one step makes of a buffer-control word. -/
theorem step_bufWord {s t : State} (h : step s = .next t) (j : EpIdx) : BufWordStep j (bufCtrl s j) (bufCtrl t j) :=
  step_related (R := fun s t => BufWordStep j (bufCtrl s j) (bufCtrl t j)) (fun _ _ _ _ _ _ h => h) (fun _ => .same)
    (fun s => armStep_bufWord s j) (fun s ok => .of_mem (endCall_mem ok s) j) (fun _ => .same)
    (fun _ _ _ h => exec_bufWord h j) h

/-- A stall off the control endpoint would be a new one (R41, R262). -/
theorem BufWordStep.stall {j : EpIdx} {w v : Word} (h : BufWordStep j w v) (hj : 2 ≤ j.val)
    (hw : w.getLsbD bcStall = false) : v.getLsbD bcStall = false := by
  cases h with
  | same => exact hw
  | zero => exact BitVec.getLsbD_zero
  | armed => exact bcStall_mk _ _ _ _ _
  | stalled h => omega
  | unstalled => exact getLsbD_setBit_self _ _ _ (by decide)
  | sent => rw [inDoneWord, getLsbD_setBit_ne _ _ _ _ (by decide), getLsbD_setBit_ne _ _ _ _ (by decide)]; exact hw
  | received n =>
    rw [outDoneWord, getLsbD_setBit_ne _ _ _ _ (by decide), getLsbD_setBit_ne _ _ _ _ (by decide), getLsbD_setLen,
      if_neg (by decide)]
    exact hw

/-- No step sets a bit that R108 reserves. -/
theorem BufWordStep.reserved {j : EpIdx} {w v : Word} (h : BufWordStep j w v) {k : Nat} (hk : 16 ≤ k ∨ k = 14 ∨ k = 12)
    (hw : w.getLsbD k = false) : v.getLsbD k = false := by
  have hstall : k ≠ bcStall := by unfold bcStall; omega
  have hfull : k ≠ bcFull := by unfold bcFull; omega
  have havail : k ≠ bcAvail := by unfold bcAvail; omega
  cases h with
  | same => exact hw
  | zero => exact BitVec.getLsbD_zero
  | armed full pid n =>
    rw [getLsbD_mkBufCtrl]
    obtain hk | rfl | rfl := hk
    · simp only [show ¬ k < 10 by omega, show k ≠ 10 by omega, show k ≠ 11 by omega, show k ≠ 12 by omega,
        show k ≠ 13 by omega, show k ≠ 14 by omega, show k ≠ 15 by omega, if_false]
    · rfl
    · rfl
  | stalled => rw [getLsbD_setBit_ne _ _ _ _ hstall]; exact hw
  | unstalled => rw [getLsbD_setBit_ne _ _ _ _ hstall]; exact hw
  | sent => rw [inDoneWord, getLsbD_setBit_ne _ _ _ _ hfull, getLsbD_setBit_ne _ _ _ _ havail]; exact hw
  | received n =>
    rw [outDoneWord, getLsbD_setBit_ne _ _ _ _ havail, getLsbD_setBit_ne _ _ _ _ hfull, getLsbD_setLen,
      if_neg (by omega)]
    exact hw

/-! What becomes of one endpoint-control word. -/

/-- Every value one step can give the endpoint-control word `w` of index `j` (R180, R183). -/
inductive EpWordStep (j : EpIdx) (w : Word) : Word → Prop where
  | same : EpWordStep j w w
  | zero : EpWordStep j w 0
  | configured (ty : BitVec 2) (ht : ty = 2#2 ∨ ty = 3#2) :
      EpWordStep j w (mkEpCtrl true ty (BitVec.ofNat 16 (bufAddr j)))

theorem EpWordStep.of_mem {s t : State} (h : t.mem = s.mem) (j : EpIdx) : EpWordStep j (epCtrl s j) (epCtrl t j) :=
  epCtrl_congr h j ▸ .same

theorem acceptSetup_epCtrl (p : SetupPacket) (s : State) (j : EpIdx) : epCtrl (acceptSetup p s) j = epCtrl s j := by
  rw [epCtrl_congr (acceptSetup_mem p s), epCtrl_setBufCtrl, epCtrl_setBufCtrl, epCtrl_setSetupHw]

theorem armIn_epCtrl (i : EpIdx) (data : List Byte) (s : State) (j : EpIdx) : epCtrl (armIn i data s) j = epCtrl s j := by
  rw [epCtrl_congr (armIn_mem i data s), epCtrl_setBufCtrl, epCtrl_writeBuf]

theorem armStep_epCtrl (s : State) (j : EpIdx) : epCtrl (armStep s) j = epCtrl s j := by
  obtain h | ⟨i, off, bs, h⟩ | ⟨i, pid, n, h⟩ := armStep_mem s
  · exact epCtrl_congr h j
  · rw [epCtrl_congr h, epCtrl_writeBuf]
  · rw [epCtrl_congr h, epCtrl_setBufCtrl]

theorem CommandOf.epWord {s t : State} {i : Instr} (h : CommandOf s i t) {j : EpIdx} (hj : 2 ≤ j.val) :
    EpWordStep j (epCtrl s j) (epCtrl t j) := by
  cases h with
  | raised | waits | pullWaits | pullWaitsOn => exact .of_mem rfl j
  | initialized =>
    rw [epCtrl_congr (reply_mem _ _), epCtrl_initBlock]
    exact .zero
  | configured ep at_ mp cb _ hi ht =>
    rw [epCtrl_congr (reply_mem _ _), epCtrl_congr (configureEp_mem _ _ _ s)]
    by_cases e : j = idx ep
    · subst e; rw [epCtrl_set]; exact .configured _ ht
    · rw [epCtrl_set_ne e hi hj]; exact .same
  | armingBegun i k data =>
    obtain ⟨b, h⟩ | h := startArm_mem k data s
    · rw [epCtrl_congr h, epCtrl_writeBuf]; exact .same
    · rw [epCtrl_congr h, epCtrl_setBufCtrl]; exact .same
  | sent i k data => rw [epCtrl_congr (reply_mem _ _), armIn_epCtrl]; exact .same
  | received => rw [epCtrl_congr ((reply_mem _ _).trans (armOut_mem _ _ s)), epCtrl_setBufCtrl]; exact .same
  | stalled => rw [epCtrl_congr (reply_mem _ _), stallControl, epCtrl_setBufCtrl]; exact .same
  | _ => exact .of_mem (by simp [pullBody_mem]) j

theorem EventOf.epCtrl {s t : State} {i : Instr} (h : EventOf s i t) (j : EpIdx) : epCtrl t j = epCtrl s j := by
  cases h with
  | reset | noticed => rfl
  | setupAccepted a p => exact acceptSetup_epCtrl p s j
  | inCompleted a n => rw [epCtrl_congr (completeIn_mem n s), epCtrl_setBufCtrl]
  | outCompleted a n pid data => rw [epCtrl_congr (completeOut_mem n pid data s), epCtrl_setBufCtrl, epCtrl_writeBuf]

theorem LineOf.epCtrl {s t : State} {i : Instr} (h : LineOf s i t) (j : EpIdx) : epCtrl t j = epCtrl s j := by
  cases h with
  | acknowledged => exact armIn_epCtrl 0 [] s j
  | rejected => exact epCtrl_setBufCtrl _ j _ s
  | addressApplied => exact epCtrl_congr (by rw [applyAddress_frame]; rfl) j
  | _ => rfl

theorem exec_epWord {i : Instr} {s t : State} (h : exec i s = .next t) {j : EpIdx} (hj : 2 ≤ j.val) :
    EpWordStep j (epCtrl s j) (epCtrl t j) := by
  obtain ⟨-, h⟩ | ⟨-, h⟩ | h := exec_cases h
  · exact h.epWord hj
  · exact h.epCtrl j ▸ .same
  · exact h.epCtrl j ▸ .same

/-- What one step makes of an endpoint-control word. -/
theorem step_epWord {s t : State} (h : step s = .next t) {j : EpIdx} (hj : 2 ≤ j.val) :
    EpWordStep j (epCtrl s j) (epCtrl t j) :=
  step_related (R := fun s t => EpWordStep j (epCtrl s j) (epCtrl t j)) (fun _ _ _ _ _ _ h => h) (fun _ => .same)
    (fun s => armStep_epCtrl s j ▸ .same) (fun s ok => .of_mem (endCall_mem ok s) j) (fun _ => .same)
    (fun _ _ _ h => exec_epWord h hj) h

/-- A buffer address fits the field of 16 bits (R70, R109). -/
theorem bufAddr_toNat (i : EpIdx) : (BitVec.ofNat 16 (bufAddr i)).toNat = bufAddr i := by revert i; decide

theorem EpWordStep.enabled {j : EpIdx} {w v : Word} (h : EpWordStep j w v) (hv : ecEn v = true)
    (hw : ecEn w = true → (ecAddr w).toNat = bufAddr j ∧ (ecType w = 2#2 ∨ ecType w = 3#2)) :
    (ecAddr v).toNat = bufAddr j ∧ (ecType v = 2#2 ∨ ecType v = 3#2) := by
  cases h with
  | same => exact hw hv
  | zero => exact absurd hv (by decide)
  | configured ty ht => rw [ecAddr_mk, ecType_mk]; exact ⟨bufAddr_toNat j, ht⟩

/-! The callbacks and the resolver. -/

theorem callback_writers {i : Instr} (h : Reg.callback ∈ mayWrite i) :
    i = .devInit ∨ ∃ ep a m cb, i = .devConfigureEp ep a m cb := by
  cases i <;> simp [mayWrite] at h ⊢

theorem resolver_writers {i : Instr} (h : Reg.resolver ∈ mayWrite i) : ∃ fn, i = .devSetResolver fn := by
  cases i <;> simp [mayWrite] at h ⊢

/-- What one operation makes of the table of callbacks: as it was, empty, or one entry from index 2 on that names a
procedure (R26, R183). -/
theorem exec_callback {i : Instr} {s t : State} (h : exec i s = .next t) :
    t.callback = s.callback ∨ t.callback = Vector.replicate 32 none ∨
    ∃ (k : EpIdx) (cb : Option Byte), 2 ≤ k.val ∧ procNamed s cb = true ∧ t.callback = s.callback.set k.val cb := by
  by_cases hw : Reg.callback ∈ mayWrite i
  · obtain rfl | ⟨ep, a, m, cb, rfl⟩ := callback_writers hw
    · rw [exec_devInit] at h
      obtain ⟨-, rfl⟩ | ⟨-, rfl⟩ := devInit_cases h
      · exact .inl (reply_callback _ _)
      · exact .inr (.inl (reply_callback _ _))
    · rw [exec_devConfigureEp] at h
      obtain ⟨k, rfl⟩ | ⟨hn, hi, -, rfl⟩ := devConfigureEp_cases h
      · exact .inl rfl
      · exact .inr (.inr ⟨_, cb, hi, hn, reply_callback _ _⟩)
  · exact .inl ((exec_writes h).same _ hw)

/-- What one operation makes of the resolver: as it was, or `None` or a procedure (R27, R182). -/
theorem exec_resolver {i : Instr} {s t : State} (h : exec i s = .next t) :
    t.resolver = s.resolver ∨ procNamed s t.resolver = true := by
  by_cases hw : Reg.resolver ∈ mayWrite i
  · obtain ⟨fn, rfl⟩ := resolver_writers hw
    rw [exec_devSetResolver] at h
    obtain ⟨hn, h⟩ := withProc_next h
    cases h
    exact .inr (by rw [reply_resolver]; exact hn)
  · exact .inl ((exec_writes h).same _ hw)

theorem exec_keeps_callbackOk {i : Instr} {s t : State} (hs : CallbackOk s) (h : exec i s = .next t) : CallbackOk t := by
  obtain ⟨h0, h1⟩ := hs
  unfold CallbackOk
  obtain h | h | ⟨k, cb, hk, -, h⟩ := exec_callback h
  · rw [h]; exact ⟨h0, h1⟩
  · rw [h]; exact ⟨Vector.getElem_replicate _, Vector.getElem_replicate _⟩
  · rw [h, Vector.getElem_set_ne _ _ (by omega), Vector.getElem_set_ne _ _ (by omega)]; exact ⟨h0, h1⟩

/-- A name is good in every state with the same procedures. -/
theorem procNamed_congr {s t : State} (h : t.procs = s.procs) (f : Option Byte) : procNamed t f = procNamed s f := by
  cases f with
  | none => rfl
  | some f => simp only [procNamed, h]

theorem exec_keeps_proceduresOk {i : Instr} {s t : State} (hs : ProceduresOk s) (h : exec i s = .next t) :
    ProceduresOk t := by
  obtain ⟨hr, hc⟩ := hs
  have hp := procNamed_congr (exec_procs h)
  refine ⟨?_, fun j => ?_⟩
  · rw [hp]
    obtain h | h := exec_resolver h
    · rw [h]; exact hr
    · exact h
  · rw [hp]
    obtain h | h | ⟨k, cb, -, hn, h⟩ := exec_callback h
    · rw [h]; exact hc j
    · rw [h]; exact congrArg (procNamed s) (Vector.getElem_replicate _)
    · rw [h]
      by_cases e : k.val = j.val
      · rw [show (s.callback.set k.val cb)[j] = cb by simp [e]]; exact hn
      · rw [show (s.callback.set k.val cb)[j] = s.callback[j] from Vector.getElem_set_ne _ _ e]; exact hc j

theorem ProceduresOk.congr {s t : State} (hr : t.resolver = s.resolver) (hc : t.callback = s.callback)
    (hp : t.procs = s.procs) (h : ProceduresOk s) : ProceduresOk t := by
  unfold ProceduresOk
  rw [hr, hc, procNamed_congr hp]
  exact ⟨h.1, fun i => (procNamed_congr hp _).trans (h.2 i)⟩

theorem CallbackOk.congr {s t : State} (hc : t.callback = s.callback) (h : CallbackOk s) : CallbackOk t := by
  unfold CallbackOk; rw [hc]; exact h

theorem step_keeps_callbackOk {s t : State} (hs : CallbackOk s) (h : step s = .next t) : CallbackOk t :=
  step_keeps (fun _ _ _ _ h => h) (fun _ _ _ _ h => h) (fun u h => h.congr (by rw [armStep_frame]))
    (fun u ok h => h.congr (by rw [endCall_frame])) (fun _ h => h) (fun _ _ _ h => exec_keeps_callbackOk h) hs h

theorem step_keeps_proceduresOk {s t : State} (hs : ProceduresOk s) (h : step s = .next t) : ProceduresOk t :=
  step_keeps (fun _ _ _ _ h => h.congr rfl rfl rfl) (fun _ _ _ _ h => h.congr rfl rfl rfl)
    (fun u h => h.congr (by rw [armStep_frame]) (by rw [armStep_frame]) (by rw [armStep_frame]))
    (fun u ok h => h.congr (by rw [endCall_frame]) (by rw [endCall_frame]) (by rw [endCall_frame]))
    (fun _ h => h.congr rfl rfl rfl) (fun _ _ _ h => exec_keeps_proceduresOk h) hs h

/-- Settles O56: the words by what one step makes of a word, the tables by what one operation makes of a table. -/
theorem stepKeepsRegisterWords : Obligations.StepKeepsRegisterWords := by
  intro s t h
  refine ⟨?stall, ?reserved, ?ep, fun hs => step_keeps_callbackOk hs h, fun hs => step_keeps_proceduresOk hs h⟩
  case stall => exact fun hs j hj => (step_bufWord h j).stall hj (hs j hj)
  case reserved => exact fun hs j k hk => (step_bufWord h j).reserved hk (hs j k hk)
  case ep => exact fun hs j hj hv => (step_epWord h hj).enabled hv (hs j hj)

end Sys2Proof.Machine
end

section
/-! The position and the context, and a block that is not initialised (R11, R23, R50, R51, R266). -/

namespace Sys2Proof.Machine

/-! What an operation makes of the records of what is under way. -/

/-- A command begins an arming for MAIN only (R186, R279). -/
theorem CommandOf.arming {s t : State} {i : Instr} (h : CommandOf s i t) : t.arming = s.arming ∨ s.ctx = .main := by
  cases h with
  | raised | waits | pullWaits | pullWaitsOn => exact .inl rfl
  | armingBegun _ _ _ _ _ hc => exact .inr hc
  | _ => exact .inl (reply_arming _ _)

/-- After a command the one that waited waits still, or none does, or the command itself (R140). -/
theorem CommandOf.waiting {s t : State} {i : Instr} (h : CommandOf s i t) :
    t.waiting = s.waiting ∨ t.waiting = none ∨ ∃ w, t.waiting = some w ∧ w.instr = i := by
  cases h with
  | raised => exact .inl rfl
  | waits | pullWaits | pullWaitsOn => exact .inr (.inr ⟨_, rfl, rfl⟩)
  | armingBegun => rw [startArm_frame]; exact .inl rfl
  | acquired | bracketRead | transitioned | forced | fifoWritten | pulled | pulledHolding =>
    exact .inr (.inl (reply_waiting _ _))
  | _ => exact .inl (reply_waiting _ _)

/-- A line of the handler moves the position off `Idle` or leaves it, or calls at a position of a call, or leaves the
handler. -/
theorem LineOf.position {s t : State} {i : Instr} (h : LineOf s i t) :
    (t.ctx = s.ctx ∧ t.ext = s.ext ∧ (t.hpc ≠ .idle ∨ t.hpc = s.hpc)) ∨
    (t.ctx = s.ctx ∧ t.hpc = s.hpc ∧ (s.hpc = .h3Call ∨ s.hpc = .h5Call)) ∨
    (t.ctx = .main ∧ t.ext = s.ext ∧ t.hpc = .idle) := by
  cases h with
  | moved i p l ev hp => exact .inl ⟨rfl, rfl, .inl hp⟩
  | raised => exact .inl ⟨rfl, rfl, .inr rfl⟩
  | called i p args hp => exact .inr (.inl ⟨rfl, rfl, hp⟩)
  | exited => exact .inr (.inr ⟨rfl, rfl, rfl⟩)
  | addressApplied => rw [applyAddress_frame]; exact .inl ⟨rfl, rfl, .inl (fun h => by cases h)⟩
  | _ => exact .inl ⟨rfl, rfl, .inl (fun h => by cases h)⟩

/-- A micro-step ends no call under way. -/
theorem armStep_ext_isSome (s : State) : (armStep s).ext.isSome = s.ext.isSome := by
  rcases ha : s.arming with _ | a
  · rw [armStep_none ha]
  · obtain ⟨b, bs, -, h⟩ | ⟨-, -, h⟩ | ⟨-, -, h⟩ := armStep_cases ha
    · rw [h]; rfl
    · rw [h]; rfl
    · rw [h, reply_ext_isSome]; rfl

/-- The handler does not leave at the return of a call. -/
theorem endCall_idle (ok : Bool) (s : State) : (endCall ok s).hpc = .idle ↔ s.hpc = .idle := by
  unfold endCall
  split
  · next h => simp [h]
  · next h => simp [h]
  · exact Iff.rfl

/-! Only a command waits. -/

theorem CommandOf.keeps_waitsForCommand {s t : State} {i : Instr} (h : CommandOf s i t) (hf : i.format = .cmd)
    (hs : WaitsForCommand s) : WaitsForCommand t := by
  intro w hw
  obtain h | h | ⟨v, h, hi⟩ := h.waiting
  · exact hs w (h ▸ hw)
  · rw [h] at hw; cases hw
  · rw [h] at hw; cases hw; rw [hi]; exact hf

theorem step_keeps_waitsForCommand {s t : State} (hs : WaitsForCommand s) (h : step s = .next t) : WaitsForCommand t := by
  refine step_keeps (fun _ _ _ _ h => h) (fun _ _ _ _ h => h) ?arm ?ret (fun _ h => h) ?exec hs h
  case arm => intro u hu; rw [armStep_frame]; exact hu
  case ret => intro u ok hu; rw [endCall_frame]; exact hu
  case exec =>
    intro i u v hu h
    obtain ⟨hf, h⟩ | ⟨hf, -⟩ | h' := exec_cases h
    · exact h.keeps_waitsForCommand hf hu
    · rw [bus_frame hf h]; exact hu
    · rw [h'.frame]; exact hu

/-! The position follows the context (R51). -/

theorem CommandOf.keeps_positionOk {s t : State} {i : Instr} (h : CommandOf s i t) (hf : i.format = .cmd)
    (hs : PositionOk s) : PositionOk t := by
  obtain ⟨hpos, hext, harm, hw⟩ := hs
  obtain ⟨hc, hp, -, he⟩ := h.sequencing
  refine ⟨by rw [hp, hc]; exact hpos, by rw [he, hp]; exact hext, ?_, h.keeps_waitsForCommand hf hw⟩
  rw [hc]
  obtain ha | hm := h.arming
  · rw [ha]; exact harm
  · exact fun _ => hm

theorem LineOf.keeps_positionOk {s t : State} {i : Instr} (h : LineOf s i t) (hc : s.ctx = .irq) (he : s.ext = none)
    (hs : PositionOk s) : PositionOk t := by
  obtain ⟨hpos, -, harm, hw⟩ := hs
  have hne : s.hpc ≠ .idle := fun e => by rw [hpos.1 e] at hc; cases hc
  have ha : t.arming = s.arming := by rw [h.frame]
  have hnone : s.arming.isSome = true → t.ctx = .main := fun e => by rw [harm e] at hc; cases hc
  have hwt : WaitsForCommand t := by rw [h.frame]; exact hw
  have hirq : t.ctx = s.ctx → t.hpc ≠ .idle → (t.hpc = .idle ↔ t.ctx = .main) := fun e n =>
    iff_of_false n fun m => by rw [e, hc] at m; cases m
  obtain ⟨hct, het, hpt⟩ | ⟨hct, hpt, hcall⟩ | ⟨hct, het, hpt⟩ := h.position
  · refine ⟨hirq hct ?_, fun e => ?_, ha ▸ hnone, hwt⟩
    · obtain hpt | hpt := hpt
      · exact hpt
      · rw [hpt]; exact hne
    · rw [het, he] at e; cases e
  · exact ⟨hirq hct (hpt ▸ hne), fun _ => hpt ▸ hcall, ha ▸ hnone, hwt⟩
  · refine ⟨iff_of_true hpt hct, fun e => ?_, ha ▸ hnone, hwt⟩
    rw [het, he] at e; cases e

theorem armStep_keeps_positionOk {s : State} {a : Arming} (ha : s.arming = some a) (hs : PositionOk s) :
    PositionOk (armStep s) := by
  obtain ⟨hpos, hext, harm, hw⟩ := hs
  have hm : s.ctx = .main := harm (by rw [ha]; rfl)
  have hc : (armStep s).ctx = s.ctx := by rw [armStep_frame]
  have hp : (armStep s).hpc = s.hpc := by rw [armStep_frame]
  refine ⟨by rw [hp, hc]; exact hpos, ?_, fun _ => hc.trans hm, ?_⟩
  · rw [armStep_ext_isSome, hp]; exact hext
  · rw [armStep_frame]; exact hw

theorem endCall_keeps_positionOk {s : State} (ok : Bool) (hs : PositionOk s) : PositionOk (endCall ok s) := by
  obtain ⟨hpos, -, harm, hw⟩ := hs
  have hidle := endCall_idle ok s
  rw [endCall_frame] at hidle ⊢
  exact ⟨hidle.trans hpos, (fun e => by cases e), harm, hw⟩

/-- By what the step is. Where a command waits, the invariant itself says that it is one. -/
theorem step_keeps_positionOk {s t : State} (hs : PositionOk s) (h : step s = .next t) : PositionOk t := by
  obtain ⟨-, sched, h⟩ := step_cases h
  cases h with
  | idle h => exact h ▸ hs
  | arm a ha h => exact h ▸ armStep_keeps_positionOk ha hs
  | retry w _ hw h =>
    have hf : w.instr.format = .cmd := hs.2.2.2 w hw
    exact (exec_command hf h).keeps_positionOk hf hs
  | extReturn e ok _ _ _ h => exact h ▸ endCall_keeps_positionOk ok hs
  | extIssue e k i _ _ he hf _ h =>
    obtain ⟨hpos, hext, harm, hw⟩ := hs
    exact (exec_command hf h).keeps_positionOk hf ⟨hpos, fun _ => hext (by rw [he]; rfl), harm, hw⟩
  | handler _ _ he hc h => exact (exec_handlerInstr h).keeps_positionOk hc he hs
  | entry ha _ he _ _ h =>
    subst h
    refine ⟨iff_of_false (fun e => by cases e) (fun e => by cases e), fun e => ?_, fun e => ?_, hs.2.2.2⟩
    · rw [takeInterrupt_ext, he] at e; cases e
    · rw [takeInterrupt_arming, ha] at e; cases e
  | main i rest _ _ _ _ _ hf _ h => exact (exec_command hf h).keeps_positionOk hf hs
  | host i rest _ hf h => rw [bus_frame hf h]; exact hs

/-! A block that is not initialised. -/

/-- What an uninitialised block is like (R23, R29, R39, R266). -/
def Uninitialised (s : State) : Prop :=
  s.initialized = false → s.configured = false ∧ s.irqInstalled = false ∧ s.ctx = .main ∧ s.setupValid = false

theorem initialized_writers {i : Instr} (h : Reg.initialized ∈ mayWrite i) : i = .devInit := by
  cases i <;> simp [mayWrite] at h ⊢

/-- Outside the handler DEV.INIT alone writes these registers. -/
theorem outside_handler_writes {i : Instr} (hf : i.format = .cmd ∨ i.format = .bus) (hi : i ≠ .devInit) :
    Reg.configured ∉ mayWrite i ∧ Reg.irqInstalled ∉ mayWrite i ∧ Reg.setupValid ∉ mayWrite i := by
  cases i <;> simp [mayWrite, Instr.format] at hf hi ⊢

/-- After DEV.INIT the block is initialised, and no operation undoes that. -/
theorem exec_uninitialised {i : Instr} {s t : State} (h : exec i s = .next t) (ht : t.initialized = false) :
    i ≠ .devInit ∧ s.initialized = false := by
  have hi : i ≠ .devInit := by
    rintro rfl
    rw [exec_devInit] at h
    obtain ⟨hs, rfl⟩ | ⟨-, rfl⟩ := devInit_cases h
    · rw [reply_initialized, hs] at ht; cases ht
    · rw [reply_initialized] at ht; cases ht
  exact ⟨hi, ((exec_writes h).same .initialized fun hw => hi (initialized_writers hw)).symm.trans ht⟩

theorem exec_keeps_uninitialised {i : Instr} {s t : State} (hf : i.format = .cmd ∨ i.format = .bus)
    (h : exec i s = .next t) (hs : Uninitialised s) : Uninitialised t := by
  intro ht
  obtain ⟨hi, hs0⟩ := exec_uninitialised h ht
  obtain ⟨hconf, hinst, hctx, hval⟩ := hs hs0
  obtain ⟨wconf, winst, wval⟩ := outside_handler_writes hf hi
  have hc : t.ctx = s.ctx := by
    obtain hf | hf := hf
    · exact (exec_command hf h).sequencing.1
    · rw [bus_frame hf h]
  exact ⟨((exec_writes h).same _ wconf).trans hconf, ((exec_writes h).same _ winst).trans hinst, hc.trans hctx,
    ((exec_writes h).same _ wval).trans hval⟩

/-- The handler does not run in an uninitialised block, and no line of it makes the block one. -/
theorem step_keeps_uninitialised {s t : State} (hw : WaitsForCommand s) (hs : Uninitialised s) (h : step s = .next t) :
    Uninitialised t := by
  obtain ⟨-, sched, h⟩ := step_cases h
  cases h with
  | idle h => exact h ▸ hs
  | arm a _ h => subst h; rw [armStep_frame]; exact hs
  | retry w _ hwt h => exact exec_keeps_uninitialised (.inl (hw w hwt)) h hs
  | extReturn e ok _ _ _ h => subst h; rw [endCall_frame]; exact hs
  | extIssue e k i _ _ _ hf _ h => exact exec_keeps_uninitialised (.inl hf) h hs
  | handler _ _ _ hc h =>
    intro ht
    have hm := (hs (exec_uninitialised h ht).2).2.2.1
    rw [hc] at hm; cases hm
  | entry _ _ _ _ hn h =>
    subst h
    intro ht
    have hinst : s.irqInstalled = false := (hs ht).2.1
    simp [entryEnabled, irqLine, hinst] at hn
  | main i rest _ _ _ _ _ hf _ h => exact exec_keeps_uninitialised (.inl hf) h hs
  | host i rest _ hf h => exact exec_keeps_uninitialised (.inr hf) h hs

/-- Settles O58, by what the step is: a micro-step, a command, a line of the handler, its entry, a return, a bus event. -/
theorem positionFollowsContext : Obligations.PositionFollowsContext :=
  fun _ _ h => ⟨fun hs => step_keeps_positionOk hs h,
    fun hs => ⟨step_keeps_uninitialised hs.2 hs.1 h, step_keeps_waitsForCommand hs.2 h⟩⟩

end Sys2Proof.Machine
end

section
/-! `irq_mask` and its reasons (R53, R85, R141, R143). -/

namespace Sys2Proof.Machine

/-! The reasons, under each operation that adds or takes one. -/

/-- `irq_mask` is the number of its reasons. -/
def MaskCounts (s : State) : Prop := s.irqMask = maskReasons s

theorem MaskCounts.congr {s t : State} (hm : t.irqMask = s.irqMask) (hl : t.locks = s.locks) (ha : t.arming = s.arming)
    (h : MaskCounts s) : MaskCounts t := by
  unfold MaskCounts maskReasons
  rw [hm, hl, ha]; exact h

theorem MaskCounts.reply {s : State} (h : MaskCounts s) (r : Result) : MaskCounts (reply r s) :=
  h.congr (reply_irqMask _ _) (reply_locks _ _) (reply_arming _ _)

/-- A cell's new owner counts where the old one did. -/
theorem count_owner_set {ls : List (Option Ctx)} {l : Nat} {o : Option Ctx} (h : ls[l]? = some o) (o' : Option Ctx) :
    (ls.set l o').count (some .main) + (if o = some .main then 1 else 0) =
      ls.count (some .main) + (if o' = some .main then 1 else 0) := by
  obtain ⟨hl, rfl⟩ := List.getElem?_eq_some_iff.1 h
  rw [List.count_set hl]
  simp only [beq_iff_eq]
  split
  · next hm =>
    have : 0 < ls.count (some .main) := List.count_pos_iff.2 (hm ▸ List.getElem_mem hl)
    omega
  · rfl

/-- A lock that MAIN takes is one reason more (R141). -/
theorem acquireLock_maskCounts {s : State} {l : Nat} (hl : LockFree s l) (h : MaskCounts s) :
    MaskCounts (acquireLock l s) := by
  have hc := count_owner_set hl (some s.ctx)
  unfold MaskCounts maskReasons at h ⊢
  rw [acquireLock_irqMask, acquireLock_locks, acquireLock_arming]
  rcases hctx : s.ctx with _ | _ <;> simp [hctx, Config.lockMasksIrq] at hc ⊢ <;> omega

/-- A lock that MAIN gives back is one reason less (R142). -/
theorem releaseLock_maskCounts {s : State} {l : Nat} (hl : s.locks[l]? = some (some s.ctx)) (h : MaskCounts s) :
    MaskCounts (releaseLock l s) := by
  have hc := count_owner_set hl none
  unfold MaskCounts maskReasons at h ⊢
  rw [releaseLock_irqMask, releaseLock_locks, releaseLock_arming]
  rcases hctx : s.ctx with _ | _ <;> simp [hctx, Config.lockMasksIrq] at hc ⊢ <;> omega

/-- An `arm_in` of MAIN that begins is one reason more (R85). -/
theorem startArm_maskCounts {s : State} (ha : s.arming = none) (k : EpIdx) (data : List Byte) (h : MaskCounts s) :
    MaskCounts (startArm k data s) := by
  have harm : (startArm k data s).arming.isSome = true := by cases data <;> rfl
  unfold MaskCounts maskReasons at h ⊢
  rw [harm, startArm_frame]
  simpa [ha] using h

/-- The last micro-step takes that reason away. -/
theorem armStep_maskCounts {s : State} {a : Arming} (ha : s.arming = some a) (h : MaskCounts s) :
    MaskCounts (armStep s) := by
  unfold MaskCounts maskReasons at h
  rw [ha] at h
  obtain ⟨b, bs, -, e⟩ | ⟨-, -, e⟩ | ⟨-, -, e⟩ := armStep_cases ha
  · rw [e]; exact h
  · rw [e]; exact h
  · rw [e]
    refine MaskCounts.reply ?_ _
    unfold MaskCounts maskReasons
    simp only [Config.cmdAtomic, if_true, Option.isSome_some, Option.isSome_none, flipToggle_locks] at h ⊢
    simp only [h]; rfl

/-! A FIFO.PULL that waits for its source's lock. -/

theorem pullHoldsOuter_eq_true {id other : Byte} {s : State} (h : pullHoldsOuter id other s = true) :
    ∃ w, s.waiting = some w ∧ w.inner = true ∧ w.instr = .fifoPull id other := by
  unfold pullHoldsOuter at h
  split at h
  · next w hw =>
    simp only [Bool.and_eq_true, decide_eq_true_eq] at h
    exact ⟨w, hw, h⟩
  · cases h

/-- It holds its destination's (R164). -/
theorem WaitingOk.outer {id other : Byte} {s : State} (hs : WaitingOk s) (h : pullHoldsOuter id other s = true) :
    ∃ f, s.fifos[id.toNat]? = some f ∧ s.locks[f.lock]? = some (some s.ctx) := by
  obtain ⟨w, hw, hin, hi⟩ := pullHoldsOuter_eq_true h
  obtain ⟨id', other', f, hi', hf, hl⟩ := (hs w hw).2 hin
  rw [hi] at hi'
  cases hi'
  exact ⟨f, hf, hl⟩

theorem WaitingOk.of_none {s : State} (h : s.waiting = none) : WaitingOk s := fun w hw => by rw [h] at hw; cases hw

theorem WaitingOk.congr {s t : State} (hw : t.waiting = s.waiting) (hf : t.fifos = s.fifos) (hl : t.locks = s.locks)
    (hc : t.ctx = s.ctx) (h : WaitingOk s) : WaitingOk t := by
  unfold WaitingOk
  rw [hw, hf, hl, hc]; exact h

theorem WaitingOk.reply {s : State} (h : WaitingOk s) (r : Result) : WaitingOk (reply r s) :=
  h.congr (reply_waiting _ _) (reply_fifos _ _) (reply_locks _ _) (reply_ctx _ _)

/-- Whatever else it writes, a command that is no FIFO.PULL holds no outer lock for the wait on record, its own. -/
theorem WaitingOk.of_not_pull {s t : State} {i : Instr} (hs : WaitingOk s) (hi : ∀ id other, i ≠ .fifoPull id other)
    (hw : ∀ w, s.waiting = some w → w.instr = i) (ht : t.waiting = s.waiting) : WaitingOk t := by
  intro w h
  rw [ht] at h
  obtain ⟨hf, hin⟩ := hs w h
  refine ⟨hf, fun e => ?_⟩
  obtain ⟨id, other, f, hp, -⟩ := hin e
  exact absurd ((hw w h).symm.trans hp) (hi id other)

/-! Commands. -/

theorem CommandOf.keeps_maskCounts {s t : State} {i : Instr} (h : CommandOf s i t) (ha : s.arming = none)
    (hw : WaitingOk s) (hs : MaskCounts s) : MaskCounts t := by
  cases h with
  | raised | waits | pullWaitsOn => exact hs
  | acquired id hl => exact (acquireLock_maskCounts hl hs).reply _
  | released id hl => exact (releaseLock_maskCounts hl hs).reply _
  | pullWaits id other a b _ hl => exact acquireLock_maskCounts hl hs
  | pulledHolding id other a b hf _ _ hh =>
    obtain ⟨f, hf', hl⟩ := hw.outer hh
    cases hf.symm.trans hf'
    exact (releaseLock_maskCounts (s := pullBody id other a b { s with waiting := none }) hl hs).reply _
  | armingBegun i k data => exact startArm_maskCounts ha k data hs
  | _ => exact hs.congr (reply_irqMask _ _) (reply_locks _ _) (reply_arming _ _)

theorem CommandOf.keeps_waitingOk {s t : State} {i : Instr} (h : CommandOf s i t) (hf : i.format = .cmd)
    (hw : ∀ w, s.waiting = some w → w.instr = i) (hs : WaitingOk s) : WaitingOk t := by
  cases h with
  | raised => exact hs
  | answered => exact hs.reply _
  | waits i l => intro w h; cases h; exact ⟨hf, fun e => by cases e⟩
  | acquired | bracketRead | transitioned | forced | fifoWritten | pulled | pulledHolding =>
    exact .of_none (reply_waiting _ _)
  | pullWaits id other a b ha hl =>
    intro w h
    cases h
    refine ⟨rfl, fun _ => ⟨id, other, a, rfl, ha, ?_⟩⟩
    exact List.getElem?_set_self (List.getElem?_eq_some_iff.1 hl).1
  | pullWaitsOn id other b hh =>
    intro w h
    cases h
    obtain ⟨f, hf, hl⟩ := hs.outer hh
    exact ⟨rfl, fun _ => ⟨id, other, f, rfl, hf, hl⟩⟩
  | armingBegun i k data => rw [startArm_frame]; exact hs
  | sent i k data => exact hs.congr (reply_waiting _ _) (reply_fifos _ _) (reply_locks _ _) (reply_ctx _ _)
  | _ => exact hs.of_not_pull (fun _ _ e => by cases e) hw (reply_waiting _ _)

/-- A command that runs with no arming under way, and with no wait on record but its own. -/
theorem CommandOf.keeps_maskOk {s t : State} {i : Instr} (h : CommandOf s i t) (hf : i.format = .cmd)
    (ha : s.arming = none) (hw : ∀ w, s.waiting = some w → w.instr = i) (hs : MaskOk s) : MaskOk t :=
  ⟨h.keeps_maskCounts ha hs.2 hs.1, h.keeps_waitingOk hf hw hs.2⟩

/-! One step. -/

theorem armStep_keeps_maskOk {s : State} {a : Arming} (ha : s.arming = some a) (hs : MaskOk s) : MaskOk (armStep s) :=
  ⟨armStep_maskCounts ha hs.1, by rw [armStep_frame]; exact hs.2⟩

/-- Where nothing waits the context may change. -/
theorem MaskOk.of_none {s t : State} (hs : MaskOk s) (hw : t.waiting = none) (hm : t.irqMask = s.irqMask)
    (hl : t.locks = s.locks) (ha : t.arming = s.arming) : MaskOk t :=
  ⟨MaskCounts.congr hm hl ha hs.1, .of_none hw⟩

/-- Settles O59, by what the step is: only a command and a micro-step of `arm_in` add a reason or take one. -/
theorem maskCountsItsReasons : Obligations.MaskCountsItsReasons := by
  intro s t hs h
  obtain ⟨-, sched, h⟩ := step_cases h
  have nowait {u : State} {i : Instr} (hw : u.waiting = none) : ∀ w, u.waiting = some w → w.instr = i :=
    fun w h => by rw [hw] at h; cases h
  cases h with
  | idle h => exact h ▸ hs
  | arm a ha h => exact h ▸ armStep_keeps_maskOk ha hs
  | retry w ha hw h =>
    have hf : w.instr.format = .cmd := (hs.2 w hw).1
    refine (exec_command hf h).keeps_maskOk hf ha (fun v hv => ?_) hs
    cases hw.symm.trans hv; rfl
  | extReturn e ok _ _ _ h => subst h; rw [endCall_frame]; exact hs
  | extIssue e k i ha hw _ hf _ h => exact (exec_command hf h).keeps_maskOk hf ha (nowait hw) hs
  | handler _ hw _ _ h =>
    have e := (exec_handlerInstr h).frame
    exact hs.of_none (by rw [e]; exact hw) (by rw [e]) (by rw [e]) (by rw [e])
  | entry _ hw _ _ _ h => subst h; exact hs.of_none hw rfl rfl rfl
  | main i rest ha hw _ _ _ hf _ h => exact (exec_command hf h).keeps_maskOk hf ha (nowait hw) hs
  | host i rest _ hf h => rw [bus_frame hf h]; exact hs

end Sys2Proof.Machine
end

section
/-! The FIFOs and the values of a type, over every step (R43, R44, R45, R124, R170). -/

namespace Sys2Proof.Machine

/-! Lists with one entry replaced. -/

theorem forall_mem_set {α : Type} {P : α → Prop} {l : List α} (h : ∀ x ∈ l, P x) (k : Nat) {y : α} (hy : P y) :
    ∀ x ∈ l.set k y, P x := by
  intro x hx
  obtain hx | rfl := List.mem_or_eq_of_mem_set hx
  · exact h x hx
  · exact hy

theorem map_set_same {α β : Type} {f : α → β} {l : List α} {k : Nat} {x y : α} (h : l[k]? = some x) (e : f y = f x) :
    (l.set k y).map f = l.map f := by
  rw [List.map_set, e]
  exact set_self (by rw [List.getElem?_map, h]; rfl)

/-! The cursors and the slots of one FIFO. -/

/-- Every slot holds a value of the element type (R44, R124). -/
def FifoTyped (f : Fifo) : Prop := ∀ x ∈ f.slots, x.length = f.size

theorem fifoPush_typed (xs : List Elem) : ∀ f : Fifo, FifoTyped f → (∀ x ∈ xs, x.length = f.size) →
    FifoTyped (fifoPush f xs) := by
  induction xs with
  | nil => intro f h _; exact h
  | cons x xs ih =>
    intro f h hx
    rw [List.forall_mem_cons] at hx
    exact ih _ (forall_mem_set h f.w hx.1) hx.2

/-- An element read at the old end is one of the slots. -/
theorem fifoAt_mem {f : Fifo} (h : FifoOk f) (j : Nat) : fifoAt f j ∈ f.slots := by
  have hlt : (f.r + j) % f.slots.length < f.slots.length := Nat.mod_lt _ (Nat.zero_lt_of_lt h.2)
  unfold fifoAt fifoSize
  rw [List.getD_eq_getElem _ _ hlt]
  exact List.getElem_mem hlt

theorem fifoOldest_typed {f : Fifo} (h : FifoOk f) (ht : FifoTyped f) (k : Nat) : ∀ x ∈ fifoOldest f k, x.length = f.size := by
  intro x hx
  obtain ⟨j, -, rfl⟩ := List.mem_map.1 hx
  exact ht _ (fifoAt_mem h j)

theorem FifoWrite.ok {q q' : Fifo} {id : Byte} {i : Instr} (h : FifoWrite q id i q') (hq : FifoOk q) : FifoOk q' := by
  cases h with
  | enqueued => exact fifoPush_ok _ q hq
  | dequeued | erased => exact fifoDrop_ok q _ hq
  | cleared => exact ⟨hq.1, hq.1⟩

theorem FifoWrite.elemSize {q q' : Fifo} {id : Byte} {i : Instr} (h : FifoWrite q id i q') : q'.size = q.size := by
  cases h with
  | enqueued => exact fifoPush_elemSize _ q
  | dequeued | erased | cleared => rfl

/-- Only ENQUEUE writes slots; the items of a well-formed one have the size of the element type. -/
theorem FifoWrite.typed {q q' : Fifo} {id : Byte} {i : Instr} {z : Sizes} (h : FifoWrite q id i q')
    (hz : z.fifo id = q.size) (hwf : i.wf z = true) (hq : FifoTyped q) : FifoTyped q' := by
  cases h with
  | enqueued items k =>
    simp only [Instr.wf, Bool.and_eq_true, List.all_eq_true, elemOk, beq_iff_eq, hz] at hwf
    exact fifoPush_typed _ q hq fun x hx => hwf.2 x (List.mem_of_mem_take hx)
  | dequeued | erased | cleared => exact hq

/-- What holds of every FIFO, and of a pull's destination and source as the pull leaves them, holds of every FIFO after it. -/
theorem forall_mem_pullBody {P : Fifo → Prop} {s : State} (h : ∀ f ∈ s.fifos, P f) (id other : Byte) {a b : Fifo}
    (ha : P (fifoPush a (fifoOldest b (pullCount a b)))) (hb : P (fifoDrop b (pullCount a b))) :
    ∀ f ∈ (pullBody id other a b s).fifos, P f :=
  forall_mem_set (forall_mem_set h _ ha) _ hb

/-! The sizes of the types: parameters that nothing writes (log entry 6). -/

theorem sizesOf_fifo {s : State} {id : Byte} {q : Fifo} (h : s.fifos[id.toNat]? = some q) : (sizesOf s).fifo id = q.size := by
  simp [sizesOf, Sizes.fifo, h]

theorem sizesOf_holder {s : State} {id : Byte} {q : Holder} (h : s.holders[id.toNat]? = some q) :
    (sizesOf s).holder id = q.size := by
  simp [sizesOf, Sizes.holder, h]

theorem sizesOf_congr {s t : State} (hh : t.holders = s.holders) (hf : t.fifos = s.fifos) : sizesOf t = sizesOf s := by
  unfold sizesOf; rw [hh, hf]

theorem sizesOf_reply (r : Result) (s : State) : sizesOf (reply r s) = sizesOf s :=
  sizesOf_congr (reply_holders _ _) (reply_fifos _ _)

theorem sizesOf_setHolder {s : State} {id : Byte} {q : Holder} (h : s.holders[id.toNat]? = some q) (v : Elem) :
    sizesOf { s with holders := s.holders.set id.toNat { q with value := v }, waiting := none } = sizesOf s :=
  congrArg₂ Sizes.mk (map_set_same h rfl) rfl

theorem sizesOf_setFifo {s : State} {id : Byte} {q q' : Fifo} (h : s.fifos[id.toNat]? = some q) (e : q'.size = q.size) :
    sizesOf { s with fifos := s.fifos.set id.toNat q', waiting := none } = sizesOf s :=
  congrArg₂ Sizes.mk rfl (map_set_same h e)

theorem sizesOf_pullBody {s : State} {id other : Byte} {a b : Fifo} (ha : s.fifos[id.toNat]? = some a)
    (hb : s.fifos[other.toNat]? = some b) : sizesOf (pullBody id other a b { s with waiting := none }) = sizesOf s := by
  have h1 : (s.fifos.map Fifo.size)[id.toNat]? = some a.size := by rw [List.getElem?_map, ha]; rfl
  have h2 : (s.fifos.map Fifo.size)[other.toNat]? = some b.size := by rw [List.getElem?_map, hb]; rfl
  unfold sizesOf pullBody
  simp only [List.map_set, fifoPush_elemSize]
  rw [set_self h1, set_self (a := (fifoDrop b (pullCount a b)).size) h2]

theorem CommandOf.sizesOf_eq {s t : State} {i : Instr} (h : CommandOf s i t) : sizesOf t = sizesOf s := by
  cases h with
  | raised | waits | pullWaits | pullWaitsOn => rfl
  | transitioned id e v q r hq => rw [sizesOf_reply, sizesOf_setHolder hq]
  | forced id v q r hq => rw [sizesOf_reply, sizesOf_setHolder hq]
  | fifoWritten i id q q' r hq hw => rw [sizesOf_reply, sizesOf_setFifo hq hw.elemSize]
  | pulled id other a b ha hb => rw [sizesOf_reply, sizesOf_pullBody ha hb]
  | pulledHolding id other a b ha hb =>
    rw [sizesOf_reply, sizesOf_congr (releaseLock_holders _ _) (releaseLock_fifos _ _), sizesOf_pullBody ha hb]
  | armingBegun => rw [startArm_frame]; rfl
  | _ => exact sizesOf_reply _ _

theorem exec_sizesOf {i : Instr} {s t : State} (h : exec i s = .next t) : sizesOf t = sizesOf s := by
  obtain ⟨-, h⟩ | ⟨hf, -⟩ | h' := exec_cases h
  · exact h.sizesOf_eq
  · rw [bus_frame hf h]; rfl
  · rw [h'.frame]; rfl

theorem step_sizesOf {s t : State} (h : step s = .next t) : sizesOf t = sizesOf s :=
  step_related (R := fun s t => sizesOf t = sizesOf s) (fun _ _ _ _ _ _ h => h) (fun _ => rfl)
    (fun u => by rw [armStep_frame]; rfl) (fun u ok => by rw [endCall_frame]; rfl) (fun _ => rfl)
    (fun _ _ _ h => exec_sizesOf h) h

/-! The cursors. -/

theorem fifo_mem {s : State} {id : Byte} {q : Fifo} (h : s.fifos[id.toNat]? = some q) : q ∈ s.fifos :=
  List.mem_of_getElem? h

theorem FifosOk.congr {s t : State} (h : t.fifos = s.fifos) (hs : FifosOk s) : FifosOk t := by
  unfold FifosOk; rw [h]; exact hs

theorem pullBody_fifosOk {s : State} {id other : Byte} {a b : Fifo} (ha : s.fifos[id.toNat]? = some a)
    (hb : s.fifos[other.toNat]? = some b) (hs : FifosOk s) : FifosOk (pullBody id other a b { s with waiting := none }) :=
  forall_mem_pullBody hs id other (fifoPush_ok _ a (hs a (fifo_mem ha))) (fifoDrop_ok b _ (hs b (fifo_mem hb)))

theorem CommandOf.keeps_fifosOk {s t : State} {i : Instr} (h : CommandOf s i t) (hs : FifosOk s) : FifosOk t := by
  cases h with
  | raised | waits | pullWaits | pullWaitsOn => exact hs
  | fifoWritten i id q q' r hq hw =>
    exact FifosOk.congr (reply_fifos _ _) (forall_mem_set hs id.toNat (hw.ok (hs q (fifo_mem hq))))
  | pulled id other a b ha hb => exact (pullBody_fifosOk ha hb hs).congr (reply_fifos _ _)
  | pulledHolding id other a b ha hb => exact (pullBody_fifosOk ha hb hs).congr (reply_fifos _ _)
  | armingBegun => rw [startArm_frame]; exact hs
  | _ => exact hs.congr (reply_fifos _ _)

theorem exec_keeps_fifosOk {i : Instr} {s t : State} (hs : FifosOk s) (h : exec i s = .next t) : FifosOk t := by
  obtain ⟨-, h⟩ | ⟨hf, -⟩ | h' := exec_cases h
  · exact h.keeps_fifosOk hs
  · rw [bus_frame hf h]; exact hs
  · rw [h'.frame]; exact hs

theorem step_keeps_fifosOk {s t : State} (hs : FifosOk s) (h : step s = .next t) : FifosOk t :=
  step_keeps (fun _ _ _ _ h => h) (fun _ _ _ _ h => h) (fun u h => h.congr (by rw [armStep_frame]))
    (fun u ok h => h.congr (by rw [endCall_frame])) (fun _ h => h) (fun _ _ _ => exec_keeps_fifosOk) hs h

/-! The values. -/

/-- Every holder's value is one of its type (R43, R124). -/
def HoldersTyped (s : State) : Prop := ∀ h ∈ s.holders, h.value.length = h.size

/-- Every FIFO's slots hold values of its type. -/
def FifosTyped (s : State) : Prop := ∀ f ∈ s.fifos, FifoTyped f

/-- The operands of a command that waits are of their types. -/
def WaitsTyped (s : State) : Prop := ∀ w, s.waiting = some w → w.instr.wf (sizesOf s) = true

theorem HoldersTyped.congr {s t : State} (h : t.holders = s.holders) (hs : HoldersTyped s) : HoldersTyped t := by
  unfold HoldersTyped; rw [h]; exact hs

theorem FifosTyped.congr {s t : State} (h : t.fifos = s.fifos) (hs : FifosTyped s) : FifosTyped t := by
  unfold FifosTyped; rw [h]; exact hs

theorem CommandOf.keeps_holdersTyped {s t : State} {i : Instr} (h : CommandOf s i t) (hwf : i.wf (sizesOf s) = true)
    (hs : HoldersTyped s) : HoldersTyped t := by
  cases h with
  | raised | waits | pullWaits | pullWaitsOn => exact hs
  | transitioned id e v q r hq =>
    simp only [Instr.wf, Bool.and_eq_true, elemOk, beq_iff_eq, sizesOf_holder hq] at hwf
    exact HoldersTyped.congr (reply_holders _ _) (forall_mem_set hs id.toNat hwf.2)
  | forced id v q r hq =>
    simp only [Instr.wf, elemOk, beq_iff_eq, sizesOf_holder hq] at hwf
    exact HoldersTyped.congr (reply_holders _ _) (forall_mem_set hs id.toNat hwf)
  | armingBegun => rw [startArm_frame]; exact hs
  | _ => exact hs.congr (reply_holders _ _)

theorem pullBody_fifosTyped {s : State} {id other : Byte} {a b : Fifo} (ha : s.fifos[id.toNat]? = some a)
    (hb : s.fifos[other.toNat]? = some b) (hsz : a.size = b.size) (hok : FifosOk s) (hs : FifosTyped s) :
    FifosTyped (pullBody id other a b { s with waiting := none }) := by
  have htb : FifoTyped b := hs b (fifo_mem hb)
  refine forall_mem_pullBody hs id other (fifoPush_typed _ a (hs a (fifo_mem ha)) ?_) htb
  rw [hsz]
  exact fifoOldest_typed (hok b (fifo_mem hb)) htb _

theorem CommandOf.keeps_fifosTyped {s t : State} {i : Instr} (h : CommandOf s i t) (hwf : i.wf (sizesOf s) = true)
    (hok : FifosOk s) (hs : FifosTyped s) : FifosTyped t := by
  cases h with
  | raised | waits | pullWaits | pullWaitsOn => exact hs
  | fifoWritten i id q q' r hq hw =>
    exact FifosTyped.congr (reply_fifos _ _)
      (forall_mem_set hs id.toNat (hw.typed (sizesOf_fifo hq) hwf (hs q (fifo_mem hq))))
  | pulled id other a b ha hb hsz => exact (pullBody_fifosTyped ha hb hsz hok hs).congr (reply_fifos _ _)
  | pulledHolding id other a b ha hb hsz => exact (pullBody_fifosTyped ha hb hsz hok hs).congr (reply_fifos _ _)
  | armingBegun => rw [startArm_frame]; exact hs
  | _ => exact hs.congr (reply_fifos _ _)

theorem CommandOf.keeps_waitsTyped {s t : State} {i : Instr} (h : CommandOf s i t) (hwf : i.wf (sizesOf s) = true)
    (hs : WaitsTyped s) : WaitsTyped t := by
  intro w hw
  rw [h.sizesOf_eq]
  obtain h | h | ⟨v, h, hi⟩ := h.waiting
  · exact hs w (h ▸ hw)
  · rw [h] at hw; cases hw
  · rw [h] at hw; cases hw; rw [hi]; exact hwf

/-- A command whose operands are of their types keeps every value in its own. -/
theorem CommandOf.keeps_typesOk {s t : State} {i : Instr} (h : CommandOf s i t) (hwf : i.wf (sizesOf s) = true)
    (hok : FifosOk s) (hs : TypesOk s) : TypesOk t := by
  obtain ⟨hh, hf, hw⟩ := hs
  exact ⟨h.keeps_holdersTyped hwf hh, h.keeps_fifosTyped hwf hok hf, h.keeps_waitsTyped hwf hw⟩

/-- By what the step is: a command comes off a port with operands of their types, or waited with them. -/
theorem step_keeps_typesOk {s t : State} (hok : FifosOk s) (hs : TypesOk s) (h : step s = .next t) : TypesOk t := by
  obtain ⟨-, sched, h⟩ := step_cases h
  cases h with
  | idle h => exact h ▸ hs
  | arm a _ h => subst h; rw [armStep_frame]; exact hs
  | retry w _ hw h =>
    obtain ⟨-, h⟩ | ⟨hf, -⟩ | h' := exec_cases h
    · exact h.keeps_typesOk (hs.2.2 w hw) hok hs
    · rw [bus_frame hf h]; exact hs
    · rw [h'.frame]; exact hs
  | extReturn e ok _ _ _ h => subst h; rw [endCall_frame]; exact hs
  | extIssue e k i _ _ _ hf hwf h => exact (exec_command hf h).keeps_typesOk hwf hok hs
  | handler _ _ _ _ h => rw [(exec_handlerInstr h).frame]; exact hs
  | entry _ _ _ _ _ h => exact h ▸ hs
  | main i rest _ _ _ _ _ hf hwf h => exact (exec_command hf h).keeps_typesOk hwf hok hs
  | host i rest _ hf h => rw [bus_frame hf h]; exact hs

/-- Settles O60, by what each operation makes of the FIFOs and the holders. -/
theorem fifoCursorsStayInRange : Obligations.FifoCursorsStayInRange := by
  intro s t h
  refine ⟨fun hs => ⟨step_keeps_fifosOk hs h, fun f hf => ?_⟩, fun hok hs => step_keeps_typesOk hok hs h, step_sizesOf h⟩
  exact Nat.le_sub_one_of_lt (fifoCount_lt f (step_keeps_fifosOk hs h f hf))

end Sys2Proof.Machine
end

section
/-! DPRAM over every step: the canonical form, the reserved ranges, and how far an `arm_in` under way may write
(R70, R74, R185, R216). -/

namespace Sys2Proof.Machine

/-! What one update makes of DPRAM. -/

/-- From `m` to `m'` DPRAM stays canonical, and every reserved byte is kept or zeroed. -/
structure DpramStep (m m' : List Host.Cell) : Prop where
  wf : memWf m = true → memWf m' = true
  reserved : ∀ a, reservedAddr a = true → memRead m' a = memRead m a ∨ memRead m' a = 0

theorem DpramStep.refl (m : List Host.Cell) : DpramStep m m := ⟨id, fun _ _ => .inl rfl⟩

theorem DpramStep.of_eq {m m' : List Host.Cell} (h : m' = m) : DpramStep m m' := h ▸ .refl m

/-- Every byte zeroed (R180). -/
theorem DpramStep.zeroed (m : List Host.Cell) : DpramStep m [] := ⟨fun _ => rfl, fun a _ => .inr (memRead_nil a)⟩

theorem DpramStep.trans {m₁ m₂ m₃ : List Host.Cell} (h : DpramStep m₁ m₂) (h' : DpramStep m₂ m₃) : DpramStep m₁ m₃ := by
  refine ⟨h'.wf ∘ h.wf, fun a ha => ?_⟩
  obtain e | e := h'.reserved a ha
  · rw [e]; exact h.reserved a ha
  · exact .inr e

/-- `n` bytes from address `a` on lie in one of the two ranges of DPRAM that are not reserved (R70, R74). -/
def InUse (a n : Nat) : Prop := a + n ≤ Config.ep0End ∨ (Config.dataBase ≤ a ∧ a + n ≤ Config.dataEnd)

/-- A reserved byte lies before or after bytes in use. -/
theorem InUse.reserved_outside {a n b : Nat} (h : InUse a n) (hb : reservedAddr b = true) : b < a ∨ a + n ≤ b := by
  simp only [reservedAddr, Bool.or_eq_true, Bool.and_eq_true, decide_eq_true_eq] at hb
  simp only [InUse, Config.ep0End, Config.dataBase, Config.dataEnd] at h hb
  omega

theorem InUse.le_dpramSize {a n : Nat} (h : InUse a n) : a + n ≤ Config.dpramSize := by
  simp only [InUse, Config.ep0End, Config.dataBase, Config.dataEnd, Config.dpramSize] at h ⊢
  omega

theorem DpramStep.writeBytes {a : Nat} {bs : List Byte} (h : InUse a bs.length) (m : List Host.Cell) :
    DpramStep m (memWriteBytes m a bs) :=
  ⟨fun hm => memWf_writeBytes bs hm a h.le_dpramSize,
    fun _ hb => .inl (memRead_writeBytes_of_not_mem m _ _ bs (h.reserved_outside hb))⟩

/-! The registers and the buffers in DPRAM. -/

/-- Bytes that the memory map gives to a buffer's region are in use. -/
theorem inUse_of_bufMapped {i : EpIdx} {off n : Nat} (h : bufMapped i (off + n) = true) : InUse (bufAddr i + off) n := by
  simp only [bufMapped, decide_eq_true_eq] at h
  unfold bufAddr bufEnd at h
  unfold InUse bufAddr
  split at h
  · next hi => rw [if_pos hi]; exact .inl (by omega)
  · next hi => rw [if_neg hi]; exact .inr (by omega)

theorem setBufCtrl_dpram (i : EpIdx) (w : Word) (s : State) : DpramStep s.mem (setBufCtrl i w s).mem :=
  .writeBytes (.inl (by have := bufCtrlAddr_range i; rw [wordBytes_length, Config.ep0End]; omega)) _

theorem setEpCtrl_dpram (i : EpIdx) (w : Word) (s : State) : DpramStep s.mem (setEpCtrl i w s).mem :=
  .writeBytes (.inl (by have := epCtrlAddr_range i; rw [wordBytes_length, Config.ep0End]; omega)) _

theorem setSetupHw_dpram (p : SetupPacket) (s : State) : DpramStep s.mem (setSetupHw p s).mem :=
  .writeBytes (.inl (by rw [packetBytes_length]; decide)) _

theorem writeBuf_dpram {i : EpIdx} {off : Nat} {bs : List Byte} (h : bufMapped i (off + bs.length) = true) (s : State) :
    DpramStep s.mem (writeBuf i off bs s).mem :=
  .writeBytes (inUse_of_bufMapped h) _

theorem acceptSetup_dpram (p : SetupPacket) (s : State) : DpramStep s.mem (acceptSetup p s).mem := by
  rw [acceptSetup_mem]
  exact ((setSetupHw_dpram p s).trans (setBufCtrl_dpram 0 _ _)).trans (setBufCtrl_dpram 1 _ _)

theorem armIn_dpram (i : EpIdx) {data : List Byte} (h : data.length ≤ Config.maxPkt) (s : State) :
    DpramStep s.mem (armIn i data s).mem := by
  rw [armIn_mem]
  exact (writeBuf_dpram (bufMapped_of_le i _ (by rw [Nat.zero_add]; exact h)) s).trans (setBufCtrl_dpram i _ _)

theorem completeOut_dpram {n : BitVec 4} {data : List Byte} (h : bufMapped (idxOf n false) data.length = true) (pid : Bool)
    (s : State) : DpramStep s.mem (completeOut n pid data s).mem := by
  rw [completeOut_mem]
  exact (writeBuf_dpram (by rwa [Nat.zero_add]) s).trans (setBufCtrl_dpram _ _ _)

/-! An `arm_in` under way. -/

theorem ArmingOk.of_none {s : State} (h : s.arming = none) : ArmingOk s := fun a ha => by rw [h] at ha; cases ha

theorem ArmingOk.congr {s t : State} (h : t.arming = s.arming) (hs : ArmingOk s) : ArmingOk t := by
  unfold ArmingOk; rw [h]; exact hs

/-- From `s` to `t`, where what is under way in `s` keeps inside its buffer: what becomes of DPRAM, and what is under way
in `t` keeps inside its buffer too. -/
def KeepsMemory (s t : State) : Prop := ArmingOk s → DpramStep s.mem t.mem ∧ ArmingOk t

theorem KeepsMemory.of_arming {s t : State} (hm : DpramStep s.mem t.mem) (ha : t.arming = s.arming) : KeepsMemory s t :=
  fun hs => ⟨hm, hs.congr ha⟩

/-- A micro-step takes its byte from what is left to write. -/
theorem armStep_keepsMemory (s : State) : KeepsMemory s (armStep s) := by
  intro hs
  rcases ha : s.arming with _ | a
  · rw [armStep_none ha]; exact ⟨.refl _, hs⟩
  obtain ⟨hoff, hlen⟩ := hs a ha
  obtain ⟨b, bs, htodo, h⟩ | ⟨htodo, -, h⟩ | ⟨-, -, h⟩ := armStep_cases ha
  · rw [htodo, List.length_cons] at hoff
    have hnext : a.off + 1 + bs.length ≤ Config.maxPkt := by omega
    rw [h]
    refine ⟨writeBuf_dpram (bufMapped_of_le _ _ ((Nat.le_add_right _ _).trans hnext)) s, ?_⟩
    intro c hc; cases hc
    exact ⟨hnext, hlen⟩
  · rw [h]
    refine ⟨setBufCtrl_dpram _ _ s, ?_⟩
    intro c hc; cases hc
    exact ⟨hoff, hlen⟩
  · rw [h]
    exact ⟨.of_eq (reply_mem _ _), .of_none (reply_arming _ _)⟩

/-- An `arm_in` of one packet begins inside its buffer. -/
theorem startArm_keepsMemory (k : EpIdx) {data : List Byte} (h : data.length ≤ Config.maxPkt) (s : State) :
    KeepsMemory s (startArm k data s) := by
  have hbegun : ArmingOk { s with
      arming := some { idx := k, todo := data, off := 0, len := data.length, wordDone := false }
      irqMask := if Config.cmdAtomic then s.irqMask + 1 else s.irqMask } := by
    intro a ha; cases ha
    exact ⟨by rwa [Nat.zero_add], h⟩
  have hstep := armStep_keepsMemory _ hbegun
  exact fun _ => hstep

/-! One operation. -/

theorem CommandOf.keepsMemory {s t : State} {i : Instr} (h : CommandOf s i t) : KeepsMemory s t := by
  cases h with
  | raised | waits | pullWaits | pullWaitsOn => exact .of_arming (.refl _) rfl
  | initialized => exact .of_arming (by rw [reply_mem]; exact .zeroed _) (reply_arming _ _)
  | configured =>
    exact .of_arming (by rw [reply_mem, configureEp_mem]; exact setEpCtrl_dpram _ _ s) (reply_arming _ _)
  | armingBegun i k data _ hd => exact startArm_keepsMemory k hd s
  | sent i k data _ hd => exact .of_arming (by rw [reply_mem]; exact armIn_dpram k hd s) (reply_arming _ _)
  | received => exact .of_arming (by rw [reply_mem, armOut_mem]; exact setBufCtrl_dpram _ _ s) (reply_arming _ _)
  | stalled => exact .of_arming (by rw [reply_mem]; exact setBufCtrl_dpram _ _ s) (reply_arming _ _)
  | _ => exact .of_arming (.of_eq (reply_mem _ _)) (reply_arming _ _)

/-- BUS.OUT by what it does to DPRAM: nothing, or a completion inside its buffer's region (R216, log entry 14). -/
theorem busOut_cases {s t : State} {a : BitVec 7} {n : BitVec 4} {pid : Bool} {data : List Byte}
    (h : execBusOut a n pid data s = .next t) :
    t.mem = s.mem ∨ (bufMapped (idxOf n false) data.length = true ∧ t = completeOut n pid data s) := by
  obtain ⟨-, h⟩ := whenEnabled_next h
  split at h
  · cases h; exact .inl rfl
  split at h
  · cases h; exact .inl rfl
  split at h
  · cases h; exact .inl rfl
  split at h
  · cases h
  split at h
  · next hb => cases h; exact .inr ⟨hb, rfl⟩
  · cases h

theorem EventOf.dpram {s t : State} {i : Instr} (h : EventOf s i t) (hx : exec i s = .next t) : DpramStep s.mem t.mem := by
  cases h with
  | reset | noticed => exact .refl _
  | setupAccepted a p => exact acceptSetup_dpram p s
  | inCompleted a n => rw [completeIn_mem]; exact setBufCtrl_dpram _ _ s
  | outCompleted a n pid data =>
    obtain e | ⟨hb, -⟩ := busOut_cases hx
    · exact .of_eq e
    · exact completeOut_dpram hb pid s

theorem LineOf.dpram {s t : State} {i : Instr} (h : LineOf s i t) : DpramStep s.mem t.mem := by
  cases h with
  | acknowledged => exact armIn_dpram 0 (Nat.zero_le _) s
  | rejected => exact setBufCtrl_dpram _ _ s
  | addressApplied => exact .of_eq (by rw [applyAddress_frame]; rfl)
  | _ => exact .refl _

theorem exec_keepsMemory {i : Instr} {s t : State} (h : exec i s = .next t) : KeepsMemory s t := by
  obtain ⟨-, h⟩ | ⟨hf, h'⟩ | h := exec_cases h
  · exact h.keepsMemory
  · exact .of_arming (h'.dpram h) (by rw [bus_frame hf h])
  · exact .of_arming h.dpram (by rw [h.frame])

/-! One step. -/

theorem step_keepsMemory {s t : State} (h : step s = .next t) : KeepsMemory s t :=
  step_related (R := KeepsMemory) (fun _ _ _ _ _ _ h => h) (fun _ => .of_arming (.refl _) rfl) armStep_keepsMemory
    (fun u ok => by rw [endCall_frame]; exact .of_arming (.refl _) rfl) (fun _ => .of_arming (.refl _) rfl)
    (fun _ _ _ => exec_keepsMemory) h

/-- Settles O55, by the writes of each operation: all lie in ranges in use, but for the zeroing of DEV.INIT. -/
theorem stepKeepsMemory : Obligations.StepKeepsMemory := by
  intro s t ⟨hwf, harm⟩ h
  obtain ⟨hm, ht⟩ := step_keepsMemory h harm
  exact ⟨⟨hm.wf hwf, ht⟩, hm.reserved⟩

end Sys2Proof.Machine
end

section
/-! Decoding what the encoder writes (R116 to R120): each operand reader reads back what the encoder wrote of its operand,
and each opcode map is then one line per operation. -/

namespace Sys2Proof.Machine

/-! The operand readers. -/

@[simp] theorem takeByte_cons (b : Byte) (r : List Byte) (k : Byte → List Byte → Decoded) :
    takeByte (b :: r) k = k b r := rfl

theorem takeHalf_cons_cons (lo hi : Byte) (r : List Byte) (k : Half → List Byte → Decoded) :
    takeHalf (lo :: hi :: r) k = k (halfOfBytes lo hi) r := rfl

@[simp] theorem takeHalf_halfBytes (h : Half) (r : List Byte) (k : Half → List Byte → Decoded) :
    takeHalf (halfBytes h ++ r) k = k h r := by
  rw [halfBytes, List.cons_append, List.cons_append, List.nil_append, takeHalf_cons_cons, halfOfBytes_lo_hi]

theorem takeSeq_append {n : Nat} {xs : List Byte} (h : xs.length = n) (r : List Byte)
    (k : List Byte → List Byte → Decoded) : takeSeq n (xs ++ r) k = k xs r := by
  subst h
  simp [takeSeq]

theorem elemOk_iff {n : Nat} {v : Elem} : elemOk n v = true ↔ v.length = n := beq_iff_eq

/-- A length that fits its operand is read back as itself (R116). -/
theorem toNat_ofNat_length {α : Type} {xs : List α} (h : lengthOk xs = true) : (BitVec.ofNat 16 xs.length).toNat = xs.length := by
  rw [BitVec.toNat_ofNat]
  exact Nat.mod_eq_of_lt (of_decide_eq_true h)

theorem takeCounted_lengthBytes {xs : List Byte} (h : lengthOk xs = true) (r : List Byte)
    (k : List Byte → List Byte → Decoded) : takeCounted (lengthBytes xs.length ++ (xs ++ r)) k = k xs r := by
  rw [takeCounted, lengthBytes, takeHalf_halfBytes, toNat_ofNat_length h, takeSeq_append rfl]

theorem length_flatten_of_elemOk {size : Nat} {xs : List Elem} (h : xs.all (elemOk size) = true) :
    xs.flatten.length = xs.length * size := by
  induction xs with
  | nil => simp
  | cons x xs ih =>
    rw [List.all_cons, Bool.and_eq_true, elemOk_iff] at h
    obtain ⟨hx, hxs⟩ := h
    rw [List.flatten_cons, List.length_append, hx, ih hxs, List.length_cons, Nat.succ_mul, Nat.add_comm]

/-- Values of one size, strung together, are cut into themselves (R122). -/
theorem cutElems_flatten {size : Nat} {xs : List Elem} (h : xs.all (elemOk size) = true) :
    cutElems size xs.length xs.flatten = xs := by
  induction xs with
  | nil => rfl
  | cons x xs ih =>
    rw [List.all_cons, Bool.and_eq_true, elemOk_iff] at h
    obtain ⟨hx, hxs⟩ := h
    rw [List.flatten_cons, List.length_cons, cutElems, List.take_left' hx, List.drop_left' hx, ih hxs]

theorem takeElems_lengthBytes {size : Nat} {xs : List Elem} (hl : lengthOk xs = true) (h : xs.all (elemOk size) = true)
    (r : List Byte) (k : List Elem → List Byte → Decoded) :
    takeElems size (lengthBytes xs.length ++ (xs.flatten ++ r)) k = k xs r := by
  rw [takeElems, lengthBytes, takeHalf_halfBytes, toNat_ofNat_length hl, takeSeq_append (length_flatten_of_elemOk h),
    cutElems_flatten h]

@[simp] theorem takePacket_packetBytes (p : SetupPacket) (r : List Byte) (k : SetupPacket → List Byte → Decoded) :
    takePacket (packetBytes p ++ r) k = k p r := by
  conv_rhs => rw [← packetOfBytes_packetBytes p]
  rfl

theorem identityOfByte_identityByte {fn : Option Byte} (h : identityOk fn = true) :
    identityOfByte (identityByte fn) = fn := by
  cases fn with
  | none => rfl
  | some b => exact if_neg (bne_iff_ne.mp h)

theorem takeAddress_setWidth (a : BitVec 7) (r : List Byte) (k : BitVec 7 → List Byte → Decoded) :
    takeAddress (a.setWidth 8 :: r) k = k a r := by
  have ha := a.isLt
  rw [takeAddress, takeByte_cons, if_pos (by rw [BitVec.toNat_setWidth]; omega), BitVec.setWidth_setWidth_of_le _ (by decide),
    BitVec.setWidth_eq]

theorem takeNumber_setWidth (n : BitVec 4) (r : List Byte) (k : BitVec 4 → List Byte → Decoded) :
    takeNumber (n.setWidth 8 :: r) k = k n r := by
  have hn := n.isLt
  rw [takeNumber, takeByte_cons, if_pos (by rw [BitVec.toNat_setWidth]; omega), BitVec.setWidth_setWidth_of_le _ (by decide),
    BitVec.setWidth_eq]

/-! The formats. -/

/-- The command port reads each command off its own bytes (R117). -/
theorem decodeCmd_encode {z : Sizes} {i : Instr} (hf : i.format = .cmd) (hw : i.wf z = true) (rest : List Byte) :
    decodeCmd z (encode i ++ rest) = .ok (i, rest) := by
  cases i with
  | lockAcquire id => rfl
  | lockRelease id => rfl
  | shGet id => rfl
  | shIs id v => simp [encode, decodeCmd, takeSeq_append (elemOk_iff.mp hw)]
  | shTransition id e n =>
    obtain ⟨he, hn⟩ := Bool.and_eq_true_iff.mp hw
    simp [encode, decodeCmd, takeSeq_append (elemOk_iff.mp he), takeSeq_append (elemOk_iff.mp hn)]
  | shForce id n => simp [encode, decodeCmd, takeSeq_append (elemOk_iff.mp hw)]
  | fifoEnqueue id xs =>
    obtain ⟨hl, hx⟩ := Bool.and_eq_true_iff.mp hw
    simp [encode, decodeCmd, takeElems_lengthBytes hl hx]
  | fifoDequeue id m => simp [encode, decodeCmd]
  | fifoErase id n => simp [encode, decodeCmd]
  | fifoPull id o => rfl
  | fifoClear id => rfl
  | fifoFind id m => simp [encode, decodeCmd, takeSeq_append (elemOk_iff.mp hw)]
  | fifoOccupied id => rfl
  | fifoFree id => rfl
  | fifoCapacity id => rfl
  | devInit => rfl
  | devSetResolver fn => simp [encode, decodeCmd, identityOfByte_identityByte hw]
  | devConfigureEp ep at_ mp cb => simp [encode, decodeCmd, identityOfByte_identityByte hw]
  | devControlSend xs => simp [encode, decodeCmd, takeCounted_lengthBytes hw]
  | devSend ep xs => simp [encode, decodeCmd, takeCounted_lengthBytes hw]
  | devReceive ep m => simp [encode, decodeCmd]
  | devIsSendPending ep => rfl
  | devStallControl => rfl
  | _ => cases hf

/-- An OUT packet's PID and data are read back (R118). -/
theorem decodeBus_encode_busOut (a : BitVec 7) (n : BitVec 4) (pid : Bool) {xs : List Byte}
    (hl : xs.length ≤ Config.maxBusLen) (rest : List Byte) :
    decodeBus (encode (.busOut a n pid xs) ++ rest) = .ok (.busOut a n pid xs, rest) := by
  have hlen : (BitVec.ofNat 16 xs.length).toNat = xs.length :=
    toNat_ofNat_length (decide_eq_true (Nat.lt_of_le_of_lt hl (by decide)))
  cases pid <;>
    simp [encode, decodeBus, takeAddress_setWidth, takeNumber_setWidth, lengthBytes, hl, takeSeq_append,
      -BitVec.toNat_ofNat, hlen]

/-- The bus port reads each event off its own bytes (R118). -/
theorem decodeBus_encode {z : Sizes} {i : Instr} (hf : i.format = .bus) (hw : i.wf z = true) (rest : List Byte) :
    decodeBus (encode i ++ rest) = .ok (i, rest) := by
  cases i with
  | busReset => rfl
  | busSetup a p => simp [encode, decodeBus, takeAddress_setWidth]
  | busIn a n => simp [encode, decodeBus, takeAddress_setWidth, takeNumber_setWidth]
  | busOut a n pid xs => exact decodeBus_encode_busOut a n pid (of_decide_eq_true hw) rest
  | _ => cases hf

/-- A handler phase but IRQ.EXIT is the phase its own status word selects (R119). -/
theorem decodeAs_ints_encode {z : Sizes} {i : Instr} (hf : i.format = .ints) (hx : i ≠ .irqExit) (rest : List Byte) :
    decodeAs z .ints (encode i ++ rest) = .ok (i, rest) := by
  cases i with
  | irqEntry => rfl
  | irqBusReset => rfl
  | irqSetup => rfl
  | irqBuff => rfl
  | irqExit => exact absurd rfl hx
  | _ => cases hf

/-- The byte of an index is read back as the index (R120). -/
theorem decodeAs_epidx_cons (z : Sizes) (i : EpIdx) (rest : List Byte) :
    decodeAs z .epidx (BitVec.ofNat 8 i.val :: rest) = .ok (decodeIndex i, rest) := by
  have hi := i.isLt
  have hv : (BitVec.ofNat 8 i.val).toNat = i.val := by rw [BitVec.toNat_ofNat]; omega
  simp [decodeAs, -BitVec.toNat_ofNat, hv]

/-- A completion service is the one its index selects (R120). -/
theorem decodeAs_epidx_encode {z : Sizes} {i : Instr} (hf : i.format = .epidx) (hw : i.wf z = true) (rest : List Byte) :
    decodeAs z .epidx (encode i ++ rest) = .ok (i, rest) := by
  cases i with
  | completeEp0In => exact decodeAs_epidx_cons z 0 rest
  | completeOut k =>
    have hk : k.val % 2 = 1 := beq_iff_eq.mp hw
    have h : decodeIndex k = .completeOut k := by rw [decodeIndex, if_neg (by omega), if_pos hk]
    exact (decodeAs_epidx_cons z k rest).trans (by rw [h])
  | completeIn k =>
    have hk : k.val % 2 = 0 ∧ k.val ≠ 0 := by simpa [Instr.wf] using hw
    have h : decodeIndex k = .completeIn k := by rw [decodeIndex, if_neg hk.2, if_neg (by omega)]
    exact (decodeAs_epidx_cons z k rest).trans (by rw [h])
  | _ => cases hf

theorem decodeAs_setup8_packetBytes (z : Sizes) (p : SetupPacket) (rest : List Byte) :
    decodeAs z .setup8 (packetBytes p ++ rest) = .ok (decodeSetup p, rest) :=
  takePacket_packetBytes p rest fun p r => .ok (decodeSetup p, r)

/-- A setup class is the one its packet's first two bytes select (R106). -/
theorem decodeAs_setup8_encode {z : Sizes} {i : Instr} (hf : i.format = .setup8) (hw : i.wf z = true) (rest : List Byte) :
    decodeAs z .setup8 (encode i ++ rest) = .ok (i, rest) := by
  cases i with
  | setupSetAddress v k l => exact decodeAs_setup8_packetBytes z _ rest
  | setupSetConfiguration v k l => exact decodeAs_setup8_packetBytes z _ rest
  | setupOther p =>
    have hp : p.isSetAddress = false ∧ p.isSetConfiguration = false := by simpa [Instr.wf] using hw
    have h : decodeSetup p = .setupOther p := by simp [decodeSetup, hp]
    exact (decodeAs_setup8_packetBytes z p rest).trans (by rw [h])
  | _ => cases hf

/-- Settles O4, by the operation's format: each decoder reads the operands back in the order in which they were written. -/
theorem decodeInvertsEncode : Obligations.DecodeInvertsEncode := by
  intro z i rest hw hx
  cases hf : i.format with
  | cmd => exact decodeCmd_encode hf hw rest
  | bus => exact decodeBus_encode hf hw rest
  | ints => exact decodeAs_ints_encode hf hx rest
  | epidx => exact decodeAs_epidx_encode hf hw rest
  | setup8 => exact decodeAs_setup8_encode hf hw rest

end Sys2Proof.Machine
end

section
/-! What the decoders reject (R126 a, h), the bytes of a result (R121), endpoint addresses (R101 to R103), sample words. -/

namespace Sys2Proof.Machine

/-! Tokens with a bit set that must be 0. -/

theorem takeAddress_bad {a : Byte} (ha : 128 ≤ a.toNat) (r : List Byte) (k : BitVec 7 → List Byte → Decoded) :
    takeAddress (a :: r) k = .error .badToken := if_neg (Nat.not_lt.mpr ha)

theorem takeAddress_of_lt {a : Byte} (ha : a.toNat < 128) (r : List Byte) (k : BitVec 7 → List Byte → Decoded) :
    takeAddress (a :: r) k = k (a.setWidth 7) r := if_pos ha

theorem takeNumber_bad {n : Byte} (hn : 16 ≤ n.toNat) (r : List Byte) (k : BitVec 4 → List Byte → Decoded) :
    takeNumber (n :: r) k = .error .badToken := if_neg (Nat.not_lt.mpr hn)

theorem takeNumber_of_lt {n : Byte} (hn : n.toNat < 16) (r : List Byte) (k : BitVec 4 → List Byte → Decoded) :
    takeNumber (n :: r) k = k (n.setWidth 4) r := if_pos hn

/-- A 16-bit operand's value, low byte first (R122). -/
theorem toNat_halfOfBytes (lo hi : Byte) : (halfOfBytes lo hi).toNat = lo.toNat + 256 * hi.toNat := by
  have hlo := lo.isLt
  have h : (halfOfBytes lo hi).toNat = hi.toNat <<< 8 ||| lo.toNat := BitVec.toNat_append hi lo
  rw [h, ← Nat.shiftLeft_add_eq_or_of_lt hlo, Nat.shiftLeft_eq]
  omega

/-! Opcodes that are in neither map. -/

theorem decodeCmd_unlisted {z : Sizes} {op : Byte} (t : List Byte)
    (h : op.toNat ∉ [0x01, 0x02, 0x08, 0x09, 0x0A, 0x0B, 0x10, 0x11, 0x12, 0x13, 0x14, 0x15, 0x16, 0x17, 0x18,
      0x20, 0x21, 0x22, 0x23, 0x24, 0x25, 0x26, 0x27]) : decodeCmd z (op :: t) = .error .unknownOpcode := by
  rw [decodeCmd, takeByte_cons]
  split
  case h_24 => rfl -- no opcode of the map
  all_goals next e => exact absurd (by simp [e]) h

theorem decodeBus_unlisted {op : Byte} (t : List Byte) (h : op.toNat ∉ [0x40, 0x41, 0x42, 0x43]) :
    decodeBus (op :: t) = .error .unknownOpcode := by
  rw [decodeBus, takeByte_cons]
  split
  case h_5 => rfl -- no opcode of the map
  all_goals next e => exact absurd (by simp [e]) h

/-! The bus events of a token, by opcode. -/

theorem decodeBus_badAddress {op a : Byte} (t : List Byte) (ho : op.toNat ∈ [0x41, 0x42, 0x43]) (ha : 128 ≤ a.toNat) :
    decodeBus (op :: a :: t) = .error .badToken := by
  simp only [List.mem_cons, List.not_mem_nil, or_false] at ho
  rw [decodeBus, takeByte_cons]
  obtain h | h | h := ho <;> simp only [h] <;> exact takeAddress_bad ha _ _

theorem decodeBus_badNumber {op a n : Byte} (t : List Byte) (ho : op.toNat ∈ [0x42, 0x43]) (ha : a.toNat < 128)
    (hn : 16 ≤ n.toNat) : decodeBus (op :: a :: n :: t) = .error .badToken := by
  simp only [List.mem_cons, List.not_mem_nil, or_false] at ho
  rw [decodeBus, takeByte_cons]
  obtain h | h := ho <;> simp only [h, takeAddress_of_lt ha] <;> exact takeNumber_bad hn _ _

theorem decodeBus_badPid {a n pid : Byte} (t : List Byte) (ha : a.toNat < 128) (hn : n.toNat < 16) (hp : 2 ≤ pid.toNat) :
    decodeBus (0x43 :: a :: n :: pid :: t) = .error .badToken := by
  simp [decodeBus, takeAddress_of_lt ha, takeNumber_of_lt hn, Nat.not_le.mpr hp]

theorem decodeBus_badLength {a n pid lo hi : Byte} (t : List Byte) (ha : a.toNat < 128) (hn : n.toNat < 16)
    (hp : pid.toNat < 2) (hl : 1023 < lo.toNat + 256 * hi.toNat) :
    decodeBus (0x43 :: a :: n :: pid :: lo :: hi :: t) = .error .badToken := by
  have hl' : ¬ (halfOfBytes lo hi).toNat ≤ Config.maxBusLen := by rw [toNat_halfOfBytes]; exact Nat.not_le.mpr hl
  simp [decodeBus, takeAddress_of_lt ha, takeNumber_of_lt hn, takeHalf_cons_cons, Nat.le_of_lt_succ hp, hl']

/-- Settles O5, by the first part that is out of range: the opcode, the address, the number, the PID, the length. -/
theorem illegalEncodingsDecodeToNothing : Obligations.IllegalEncodingsDecodeToNothing :=
  ⟨fun _ _ t h => decodeCmd_unlisted t h, fun _ t h => decodeBus_unlisted t h,
    fun _ _ t ho ha => decodeBus_badAddress t ho ha, fun _ _ _ t ho ha hn => decodeBus_badNumber t ho ha hn,
    fun _ _ _ t ha hn hp => decodeBus_badPid t ha hn hp, fun _ _ _ _ _ t ha hn hp hl => decodeBus_badLength t ha hn hp hl⟩

/-! Results (R121). -/

/-- The two bytes of a length that fits 16 bits spell it, low byte first. -/
theorem lengthBytes_value {n : Nat} (h : n < 65536) :
    (Half.lo (BitVec.ofNat 16 n)).toNat + 256 * (Half.hi (BitVec.ofNat 16 n)).toNat = n := by
  rw [← toNat_halfOfBytes, halfOfBytes_lo_hi, BitVec.toNat_ofNat, Nat.mod_eq_of_lt h]

/-- Settles O1, by the executing context, and by the kind of result. -/
theorem resultGoesToTheCaller : Obligations.ResultGoesToTheCaller := by
  refine ⟨fun r s => ⟨reply_main s r, fun hc e he => ?_⟩, fun _ => rfl, fun n hn => ?_, rfl, fun _ => rfl, rfl, rfl, rfl⟩
  · rw [reply_irq s r hc, he]
    rfl
  · exact ⟨_, _, lengthBytes_value hn, rfl, rfl, fun xs hx => by rw [encodeResult, hx]; rfl⟩

/-! Endpoint addresses (R101 to R103). -/

theorem toNat_epNum (e : Byte) : (epNum e).toNat = e.toNat % 16 := by
  simp [epNum]

theorem epIsIn_eq_decide (e : Byte) : epIsIn e = decide (128 ≤ e.toNat) := by
  rw [epIsIn, ← BitVec.msb_eq_getLsbD_last, BitVec.msb_eq_decide]

/-- The index of an address, in the arithmetic form of R102. -/
theorem idx_val (e : Byte) : (idx e).val = 2 * (e.toNat % 16) + (if e.toNat / 128 = 1 then 0 else 1) := by
  have he := e.isLt
  rw [idx, idxOf_val, toNat_epNum, epIsIn_eq_decide]
  congr 1
  exact if_congr (by rw [decide_eq_true_eq]; omega) rfl rfl

/-- A valid address has bits 6:4 zero (R101). -/
theorem epValid_iff (e : Byte) : epValid e = true ↔ e.toNat / 16 % 8 = 0 := by
  simp [epValid, epReserved, ← BitVec.toNat_inj, Nat.shiftRight_eq_div_pow]

/-- A valid address is the address of its own index (R103). -/
theorem addrOf_idx {e : Byte} (h : epValid e = true) : addrOf (idx e) = e := by
  have he := e.isLt
  have hr := (epValid_iff e).mp h
  apply BitVec.eq_of_toNat_eq
  rw [addrOf, BitVec.toNat_ofNat, idx_val]
  split <;> split <;> omega

/-- Settles O2: an address is recovered by R102's arithmetic, an index by trying all 32. -/
theorem indexAndAddressAreABijection : Obligations.IndexAndAddressAreABijection :=
  ⟨fun e h => ⟨addrOf_idx h, idx_val e⟩, fun i => ⟨addrOf_valid i, idx_addrOf i⟩⟩

/-! Sample words. -/

/-- Settles O3, by running the decoders on the nine words. -/
theorem sampleWordsDecode : Obligations.SampleWordsDecode :=
  ⟨rfl, rfl, rfl, rfl, rfl, rfl, rfl, rfl, rfl⟩

end Sys2Proof.Machine
end

section
/-! A command whose identity names no object (R126 g, U7): each of the shared operations refuses it. -/

namespace Sys2Proof.Machine

variable {s : State}

theorem acquireOrWait_of_missing {l : Nat} (h : s.locks[l]? = none) (i : Instr) (inner : Bool) (k : State → Outcome) :
    acquireOrWait i l inner s k = .refused .noSuchIdentity := by
  rw [acquireOrWait, h]

theorem execLockRelease_of_missing {id : Byte} (h : s.locks[id.toNat]? = none) :
    execLockRelease id s = .refused .noSuchIdentity := by
  rw [execLockRelease, h]

theorem holderOp_of_missing {id : Byte} (h : s.holders[id.toNat]? = none) (i : Instr) (f : Elem → Elem × Result) :
    holderOp i id s f = .refused .noSuchIdentity := by
  rw [holderOp, h]

theorem fifoOp_of_missing {id : Byte} (h : s.fifos[id.toNat]? = none) (i : Instr) (f : Fifo → Fifo × Result) :
    fifoOp i id s f = .refused .noSuchIdentity := by
  rw [fifoOp, h]

/-- FIFO.PULL with either of its FIFOs missing (R164). -/
theorem execFifoPull_of_missing {id other : Byte} (h : s.fifos[id.toNat]? = none ∨ s.fifos[other.toNat]? = none) :
    execFifoPull id other s = .refused .noSuchIdentity := by
  unfold execFifoPull
  split
  · next ha hb => simp [ha, hb] at h
  · rfl

theorem withProc_of_missing {f : Byte} (h : procBody s.procs f = none) (k : Outcome) :
    withProc s (some f) k = .refused .noSuchIdentity := by
  rw [withProc, if_neg]
  simp [procNamed, h]

/-- Settles O6, by the kind of object that the identity names: each command asks for it first. -/
theorem missingObjectsAreRefused : Obligations.MissingObjectsAreRefused := by
  intro id o s
  refine ⟨?locks, ?holders, ?fifos, ?procedures⟩
  case locks =>
    rintro h i (rfl | rfl)
    · rw [exec_lockAcquire, acquireOrWait_of_missing h]
    · rw [exec_lockRelease, execLockRelease_of_missing h]
  case holders =>
    rintro h i v n (rfl | rfl | rfl | rfl)
    all_goals simp only [exec_shGet, exec_shIs, exec_shTransition, exec_shForce, holderOp_of_missing h]
  case fifos =>
    rintro h i xs m b (rfl | rfl | rfl | rfl | rfl | rfl | rfl | rfl | rfl | rfl)
    all_goals simp only [exec_fifoEnqueue, exec_fifoDequeue, exec_fifoErase, exec_fifoPull, exec_fifoClear, exec_fifoFind,
      exec_fifoOccupied, exec_fifoFree, exec_fifoCapacity, fifoOp_of_missing h, execFifoPull_of_missing (.inl h),
      execFifoPull_of_missing (.inr h)]
  case procedures =>
    rintro h i ep at_ mp (rfl | rfl)
    · rw [exec_devSetResolver, execDevSetResolver, withProc_of_missing h]
    · rw [exec_devConfigureEp, execDevConfigureEp, withProc_of_missing h]

end Sys2Proof.Machine
end

section
/-! The lock cell and the state holder: taking a cell, giving it back, waiting at an owned one, and the brackets around a
holder's value (R140 to R148, R164). -/

namespace Sys2Proof.Machine

variable {s t : State}

/-! One cell. -/

/-- With `LOCK_MASKS_IRQ` true (R6), taking a cell masks the interrupt for MAIN alone (R141). -/
theorem acquireLock_eq (l : Nat) (s : State) : acquireLock l s = { s with
    locks := s.locks.set l (some s.ctx)
    irqMask := s.irqMask + (if s.ctx = .main then 1 else 0)
    waiting := none } := by
  rcases hc : s.ctx with _ | _ <;> simp [acquireLock, hc, Config.lockMasksIrq]

theorem releaseLock_eq (l : Nat) (s : State) : releaseLock l s = { s with
    locks := s.locks.set l none
    irqMask := if s.ctx = .main then s.irqMask - 1 else s.irqMask } := by
  simp only [releaseLock, Config.lockMasksIrq, and_true]

theorem execLockRelease_of_owner {id : Byte} (h : s.locks[id.toNat]? = some (some s.ctx)) :
    execLockRelease id s = .next (reply .done (releaseLock id.toNat s)) := by
  simp only [execLockRelease, h, if_true]

theorem execLockRelease_of_not_owner {id : Byte} {o : Option Ctx} (h : s.locks[id.toNat]? = some o) (ho : o ≠ some s.ctx) :
    execLockRelease id s = raise .lockMisuse s := by
  simp only [execLockRelease, h, if_neg ho]

/-- Settles O7: the bracket goes on with the cell taken. -/
theorem acquireTakesAFreeCell : Obligations.AcquireTakesAFreeCell := by
  intro id s h
  rw [exec_lockAcquire, acquireOrWait_free h, acquireLock_eq]

/-- Settles O10, by whether the context is the owner. -/
theorem releaseByTheOwnerOnly : Obligations.ReleaseByTheOwnerOnly := by
  refine ⟨fun id s h => ?owner, fun id s o h ho hf => ?other⟩
  case owner => rw [exec_lockRelease, execLockRelease_of_owner h, releaseLock_eq]
  case other => rw [exec_lockRelease, execLockRelease_of_not_owner h ho, raise_of _ hf]

/-! An owned cell (R140). -/

theorem holderOp_owned {id : Byte} {l : Nat} (h : s.holders[id.toNat]?.map Holder.lock = some l) (hl : LockOwned s l)
    (i : Instr) (f : Elem → Elem × Result) :
    holderOp i id s f = .next { s with waiting := some { instr := i, lock := l, inner := false } } := by
  obtain ⟨q, hq, rfl⟩ := Option.map_eq_some_iff.1 h
  simp only [holderOp, hq, withLock, acquireOrWait_owned hl]

theorem fifoOp_owned {id : Byte} {l : Nat} (h : s.fifos[id.toNat]?.map Fifo.lock = some l) (hl : LockOwned s l)
    (i : Instr) (f : Fifo → Fifo × Result) :
    fifoOp i id s f = .next { s with waiting := some { instr := i, lock := l, inner := false } } := by
  obtain ⟨q, hq, rfl⟩ := Option.map_eq_some_iff.1 h
  simp only [fifoOp, hq, withLock, acquireOrWait_owned hl]

/-- An operation with one bracket waits at its lock while that is owned. -/
theorem exec_of_ownLock_owned {i : Instr} {l : Nat} (h : ownLock s i = some l) (hl : LockOwned s l) :
    exec i s = .next { s with waiting := some { instr := i, lock := l, inner := false } } := by
  cases i with
  | lockAcquire id => cases h; rw [exec_lockAcquire, acquireOrWait_owned hl]
  | shGet | shIs | shTransition | shForce =>
    simp only [exec_shGet, exec_shIs, exec_shTransition, exec_shForce, holderOp_owned h hl]
  | fifoEnqueue | fifoDequeue | fifoErase | fifoClear | fifoFind | fifoOccupied | fifoFree | fifoCapacity =>
    simp only [exec_fifoEnqueue, exec_fifoDequeue, exec_fifoErase, exec_fifoClear, exec_fifoFind, exec_fifoOccupied,
      exec_fifoFree, exec_fifoCapacity, fifoOp_owned h hl]
  | _ => cases h

/-! FIFO.PULL at its two locks (R164). -/

theorem pullHoldsOuter_of_none (h : s.waiting = none) (id other : Byte) : pullHoldsOuter id other s = false := by
  rw [pullHoldsOuter, h]

section
variable {id other : Byte} {a b : Fifo}

/-- A pull that holds its destination's lock is at the inner bracket. -/
theorem execFifoPull_inner (ha : s.fifos[id.toNat]? = some a) (hb : s.fifos[other.toNat]? = some b) (hsz : a.size = b.size)
    (hh : pullHoldsOuter id other s = true) : execFifoPull id other s = pullInner id other a b s := by
  simp only [execFifoPull, ha, hb, hsz, hh, ne_eq, not_true_eq_false, if_false, if_true]

/-- One that does not is at the outer bracket. -/
theorem execFifoPull_outer (ha : s.fifos[id.toNat]? = some a) (hb : s.fifos[other.toNat]? = some b) (hsz : a.size = b.size)
    (hh : pullHoldsOuter id other s = false) :
    execFifoPull id other s = acquireOrWait (.fifoPull id other) a.lock false s (pullInner id other a b) := by
  simp only [execFifoPull, ha, hb, hsz, hh, ne_eq, not_true_eq_false, Bool.false_eq_true, if_false]

/-- With the source's lock owned the inner bracket waits. -/
theorem pullInner_owned (hl : LockOwned s b.lock) : pullInner id other a b s =
    .next { s with waiting := some { instr := .fifoPull id other, lock := b.lock, inner := true } } :=
  acquireOrWait_owned hl _ _ _

end

/-- Settles O8: the one bracket, then the two of a pull. -/
theorem ownedCellMakesTheContextWait : Obligations.OwnedCellMakesTheContextWait := by
  refine ⟨fun i s l h hl => exec_of_ownLock_owned h hl, fun id other s a b ha hb hsz hw => ⟨fun hl => ?outer, ?inner⟩⟩
  case outer =>
    rw [exec_fifoPull, execFifoPull_outer ha hb hsz (pullHoldsOuter_of_none hw _ _), acquireOrWait_owned hl]
  case inner =>
    intro hfree hne hl
    have hl' : LockOwned (acquireLock a.lock s) b.lock := by
      rwa [LockOwned, acquireLock_locks, List.getElem?_set_ne hne]
    rw [exec_fifoPull, execFifoPull_outer ha hb hsz (pullHoldsOuter_of_none hw _ _), acquireOrWait_free hfree,
      pullInner_owned hl', acquireLock_eq]

/-! A context that hangs (R140, R278, R305). -/

/-- A command is stuck at the lock of its one bracket, or is a pull stuck at one of its two. -/
theorem stuckAt_cases {i : Instr} {inner : Bool} {l : Nat} (h : stuckAt s i inner = some l) :
    (inner = false ∧ ownLock s i = some l) ∨
    ∃ id other a b, i = .fifoPull id other ∧ s.fifos[id.toNat]? = some a ∧ s.fifos[other.toNat]? = some b ∧
      a.size = b.size ∧ (if inner then b.lock else a.lock) = l := by
  unfold stuckAt at h
  split at h
  · next id other =>
    split at h
    · next a b ha hb =>
      obtain ⟨hsz, hl⟩ := Option.ite_none_right_eq_some.1 h
      exact .inr ⟨id, other, a, b, rfl, ha, hb, hsz, Option.some.inj hl⟩
    · cases h
  · obtain ⟨hi, h⟩ := Option.ite_none_left_eq_some.1 h
    exact .inl ⟨by simpa using hi, h⟩

/-- The command on record, run again while its cell is owned, leaves the state as it is. -/
theorem exec_of_stuck {i : Instr} {l : Nat} {inner : Bool} (hw : s.waiting = some ⟨i, l, inner⟩)
    (hk : stuckAt s i inner = some l) (hl : LockOwned s l) : exec i s = .next s := by
  have hrec : { s with waiting := some ⟨i, l, inner⟩ } = s := by rw [← hw]
  refine Eq.trans ?_ (congrArg Host.Outcome.next hrec)
  obtain ⟨rfl, ho⟩ | ⟨id, other, a, b, rfl, ha, hb, hsz, rfl⟩ := stuckAt_cases hk
  · exact exec_of_ownLock_owned ho hl
  · have hh : pullHoldsOuter id other s = inner := by simp [pullHoldsOuter, hw]
    cases inner with
    | true => exact (execFifoPull_inner ha hb hsz hh).trans (pullInner_owned hl)
    | false => exact (execFifoPull_outer ha hb hsz hh).trans (acquireOrWait_owned hl _ _ _)

/-- While a command is stuck a step writes what a bus event writes, and no more. -/
theorem step_of_stuck {w : Waiting} (hk : stuckAt s w.instr w.inner = some w.lock) (hl : LockOwned s w.lock)
    (ha : s.arming = none) (hw : s.waiting = some w) (h : step s = .next t) : t = { s with
      sched := t.sched, busPort := t.busPort, mem := t.mem, busResetLatch := t.busResetLatch
      setupReqLatch := t.setupReqLatch, bufStatus := t.bufStatus, events := t.events } := by
  obtain ⟨-, sched, h⟩ := step_cases h
  cases h with
  | idle h => rw [h]
  | retry w' _ hw' h =>
    cases hw.symm.trans hw'
    have hu := exec_of_stuck (s := { s with sched := sched }) hw hk hl
    cases hu.symm.trans h; rfl
  | host i rest _ hf h => rw [bus_frame hf h]
  | arm a ha' => cases ha.symm.trans ha'
  | extReturn _ _ _ hn => cases hw.symm.trans hn
  | extIssue _ _ _ _ hn => cases hw.symm.trans hn
  | handler _ hn => cases hw.symm.trans hn
  | entry _ hn => cases hw.symm.trans hn
  | main _ _ _ hn => cases hw.symm.trans hn

/-- Settles O9: nothing that a bus event writes bears on the wait. -/
theorem waitingContextHangs : Obligations.WaitingContextHangs := by
  intro w s t hk hl ha hw h
  rw [step_of_stuck hk hl ha hw h]
  exact ⟨hk, hl, ha, rfl, rfl, rfl, rfl, rfl, rfl, rfl, rfl, rfl⟩

/-! Brackets (R143). -/

theorem format_of_bracketed {i : Instr} (h : bracketed i = true) : i.format = .cmd := by
  cases i with
  | shGet | shIs | shTransition | shForce | fifoEnqueue | fifoDequeue | fifoErase | fifoPull | fifoClear | fifoFind
  | fifoOccupied | fifoFree | fifoCapacity => rfl
  | _ => cases h

/-- A bracketed operation that neither waited before nor waits after gives back what it takes. -/
theorem CommandOf.bracketed_locks {i : Instr} (h : CommandOf s i t) (hb : bracketed i = true) (hw : s.waiting = none)
    (ht : t.waiting = none) : t.locks = s.locks ∧ t.irqMask = s.irqMask := by
  cases h with
  | raised => exact ⟨rfl, rfl⟩
  | waits | pullWaits | pullWaitsOn => cases ht
  | acquired | released => cases hb
  | pulledHolding id other a b _ _ _ hh => rw [pullHoldsOuter_of_none hw] at hh; cases hh
  | armingBegun i k data hi => obtain rfl | ⟨ep, rfl⟩ := hi <;> cases hb
  | _ => exact ⟨reply_locks _ _, reply_irqMask _ _⟩

/-- Settles O11, by what a command can do. -/
theorem bracketsGiveTheirLocksBack : Obligations.BracketsGiveTheirLocksBack :=
  fun _ _ _ hb hw h ht => (exec_command (format_of_bracketed hb) h).bracketed_locks hb hw ht

/-! The state holder (R144 to R148). -/

section
variable {id : Byte} {h : Holder}

/-- Writing back the value that was read changes nothing. -/
theorem HolderReady.set_same (hr : HolderReady s id h) :
    { s with holders := s.holders.set id.toNat { h with value := h.value } } = s := by
  rw [set_self hr.1]

/-- A holder that was ready is ready with the value written to it. -/
theorem HolderReady.set (hr : HolderReady s id h) (v : Elem) :
    HolderReady { s with holders := s.holders.set id.toNat { h with value := v } } id { h with value := v } := by
  obtain ⟨hh, hl, hw⟩ := hr
  exact ⟨List.getElem?_set_self (List.getElem?_eq_some_iff.1 hh).1, hl, hw⟩

theorem HolderReady.reply (hr : HolderReady s id h) (r : Result) : HolderReady (reply r s) id h := by
  simpa only [HolderReady, LockFree, reply_holders, reply_locks, reply_waiting] using hr

/-- SH.TRANSITION from the value it expects. -/
theorem exec_shTransition_of_eq (hr : HolderReady s id h) {e : Elem} (he : h.value = e) (n : Elem) :
    exec (.shTransition id e n) s =
      .next (reply (.bool true) { s with holders := s.holders.set id.toNat { h with value := n } }) := by
  rw [exec_shTransition, holderOp_ready hr, if_pos he]

/-- SH.TRANSITION from any other value. -/
theorem exec_shTransition_of_ne (hr : HolderReady s id h) {e : Elem} (he : h.value ≠ e) (n : Elem) :
    exec (.shTransition id e n) s = .next (reply (.bool false) s) := by
  rw [exec_shTransition, holderOp_ready hr, if_neg he, hr.set_same]

end

/-- Settles O12, through the bracket of a free lock. -/
theorem holderReadsAndForce : Obligations.HolderReadsAndForce := by
  intro id s h hr
  refine ⟨?get, fun v => ?is, fun n => ?force⟩
  case get => rw [exec_shGet, holderOp_ready hr, hr.set_same]
  case is => rw [exec_shIs, holderOp_ready hr, hr.set_same, beq_eq_decide]
  case force => rw [exec_shForce, holderOp_ready hr]

/-- Settles O13, by whether the value is the expected one. -/
theorem holderTransition : Obligations.HolderTransition :=
  fun _ _ n _ _ hr => ⟨fun he => exec_shTransition_of_eq hr he n, fun he => exec_shTransition_of_ne hr he n⟩

/-- Settles O14: the first transition leaves `b`, which is not what the second expects. -/
theorem oneOfTwoTransitionsWins : Obligations.OneOfTwoTransitionsWins := by
  intro id a b c s h hr ha hba
  have hr' := hr.set b
  exact ⟨_, _, exec_shTransition_of_eq hr ha b, exec_shTransition_of_ne (hr'.reply _) hba c, reply_holders _ _, hr'.1⟩

end Sys2Proof.Machine
end

section
/-! The FIFO operations, slot by slot (R160 to R169), and FIFO.PULL of a FIFO from itself (R164 b). -/

namespace Sys2Proof.Machine

variable {f : Fifo}

/-! What is pushed and what is read, by slot. -/

/-- Pushing `k` elements that fit writes the `k` slots from the write cursor on, and moves that cursor alone (R161). -/
theorem fifoPush_spec (h : FifoOk f) {xs : List Elem} {k : Nat} (hlen : xs.length = k) (hfit : k ≤ fifoFree f) :
    (fifoPush f xs).w = (f.w + k) % f.slots.length ∧ (fifoPush f xs).r = f.r ∧ (fifoPush f xs).lock = f.lock ∧
      (fifoPush f xs).size = f.size ∧ (fifoPush f xs).slots.length = f.slots.length ∧
      (∀ j, j < k → (fifoPush f xs).slots[(f.w + j) % f.slots.length]? = xs[j]?) ∧
      (∀ p, (∀ j, j < k → p ≠ (f.w + j) % f.slots.length) → (fifoPush f xs).slots[p]? = f.slots[p]?) := by
  subst hlen
  have hN : xs.length ≤ f.slots.length := by unfold fifoFree fifoSize at hfit; omega
  exact ⟨fifoPush_w xs f h, fifoPush_r xs f, fifoPush_lock xs f, fifoPush_elemSize xs f, fifoPush_size xs f,
    fifoPush_slot xs f h hN, fifoPush_slot_ne xs f h⟩

/-- The `j`-th of the oldest elements stands `j` slots after the read cursor (R45). -/
theorem fifoOldest_getElem? (h : FifoOk f) {j k : Nat} (hj : j < k) :
    (fifoOldest f k)[j]? = f.slots[(f.r + j) % f.slots.length]? := by
  have hp : (f.r + j) % f.slots.length < f.slots.length := Nat.mod_lt _ (Nat.zero_lt_of_lt h.1)
  rw [fifoOldest, List.getElem?_map, List.getElem?_range hj, Option.map_some, fifoAt, fifoSize,
    List.getD_eq_getElem?_getD, List.getElem?_eq_getElem hp, Option.getD_some]

/-- FIFO.FIND's scan answers the least 1-based distance at which the marker stands (R166). -/
theorem distanceOf_eq_some_iff {m : Elem} {xs : List Elem} {d : Nat} : distanceOf m 1 xs = some d ↔
    1 ≤ d ∧ d ≤ xs.length ∧ xs[d - 1]? = some m ∧ ∀ e, 1 ≤ e → e < d → xs[e - 1]? ≠ some m := by
  rw [distanceOf_eq, Option.map_eq_some_iff]
  constructor
  · rintro ⟨i, hi, rfl⟩
    obtain ⟨hlt, hm, hfirst⟩ := List.findIdx?_eq_some_iff_getElem.1 hi
    refine ⟨by omega, by omega, by simpa [hlt] using hm, fun e he hed => ?_⟩
    simpa [show e - 1 < xs.length by omega] using hfirst (e - 1) (by omega)
  · rintro ⟨h1, hd, hm, hfirst⟩
    refine ⟨d - 1, List.findIdx?_eq_some_iff_getElem.2 ⟨by omega, ?_, fun j hj => ?_⟩, by omega⟩
    · rw [List.getElem?_eq_getElem (by omega)] at hm
      simpa using hm
    · simpa [show j < xs.length by omega] using hfirst (j + 1) (by omega) (by omega)

/-- The same, by the occupied slots (R166). -/
theorem distanceOf_contents_eq_some_iff (h : FifoOk f) {m : Elem} {d : Nat} :
    distanceOf m 1 (fifoContents f) = some d ↔ 1 ≤ d ∧ d ≤ fifoCount f ∧
      f.slots[(f.r + d - 1) % f.slots.length]? = some m ∧
      ∀ e, 1 ≤ e → e < d → f.slots[(f.r + e - 1) % f.slots.length]? ≠ some m := by
  have hslot : ∀ e, 1 ≤ e → e ≤ fifoCount f →
      (fifoContents f)[e - 1]? = f.slots[(f.r + e - 1) % f.slots.length]? := fun e h1 he => by
    rw [fifoContents, fifoOldest_getElem? h (by omega), Nat.add_sub_assoc h1]
  rw [distanceOf_eq_some_iff, fifoContents_length]
  refine and_congr_right fun h1 => and_congr_right fun hd => ?_
  rw [hslot d h1 hd]
  exact and_congr_right fun _ => forall₃_congr fun e he hed => by rw [hslot e he (by omega)]

/-- Writing back the FIFO that was read changes nothing. -/
theorem FifoReady.set_same {s : State} {id : Byte} (hr : FifoReady s id f) :
    { s with fifos := s.fifos.set id.toNat f } = s := by
  rw [set_self hr.1]

/-! The operations with one bracket. -/

/-- Settles O15: the bracket of a free lock pushes the first items. -/
theorem fifoEnqueue : Obligations.FifoEnqueue := by
  intro id items s f k hr hk
  have hk' : k = min items.length (fifoFree f) := hk
  have hfit : k ≤ fifoFree f := hk' ▸ Nat.min_le_right _ _
  have hlen : (items.take k).length = k := by rw [List.length_take]; omega
  obtain ⟨hw, hrd, hlock, hsize, hN, hslot, hother⟩ := fifoPush_spec hr.2.1 hlen hfit
  refine ⟨fifoPush f (items.take k), ?_, hw, hrd, hlock, hsize, hN, fun j hj => ?_, hother⟩
  · rw [exec_fifoEnqueue, fifoOp_ready hr, hk']
  · rw [hslot j hj, List.getElem?_take_of_lt hj]

/-- Settles O16: each operation, through the bracket of a free lock, moves the read cursor. -/
theorem fifoDequeueEraseClear : Obligations.FifoDequeueEraseClear := by
  rintro id s f _ hr rfl
  refine ⟨fun max k hk => ⟨fifoOldest f k, ?dequeue, fifoOldest_length f k, fun j hj => fifoOldest_getElem? hr.2.1 hj⟩,
    fun n k hk => ?erase, ?clear⟩
  case dequeue => rw [exec_fifoDequeue, fifoOp_ready hr, hk]; rfl
  case erase => rw [exec_fifoErase, fifoOp_ready hr, hk]; rfl
  case clear => rw [exec_fifoClear, fifoOp_ready hr]

/-- Settles O19: each operation, through the bracket of a free lock, writes back the FIFO that it read. -/
theorem fifoReadersChangeNothing : Obligations.FifoReadersChangeNothing := by
  rintro id s f _ _ hr rfl rfl
  refine ⟨fun m => ⟨distanceOf m 1 (fifoContents f), ?find, fun d => distanceOf_contents_eq_some_iff hr.2.1⟩,
    ?occupied, ?free, ?capacity, fifoFree_add_count f hr.2.1⟩
  case find => rw [exec_fifoFind, fifoOp_ready hr, hr.set_same]
  case occupied => rw [exec_fifoOccupied, fifoOp_ready hr, hr.set_same]; rfl
  case free => rw [exec_fifoFree, fifoOp_ready hr, hr.set_same]; rfl
  case capacity => rw [exec_fifoCapacity, fifoOp_ready hr, hr.set_same]; rfl

/-! FIFO.PULL. -/

/-- A pull between FIFOs whose elements differ in size is refused (R164 c). -/
theorem execFifoPull_of_size_ne {s : State} {id other : Byte} {a b : Fifo} (ha : s.fifos[id.toNat]? = some a)
    (hb : s.fifos[other.toNat]? = some b) (hsz : a.size ≠ b.size) :
    execFifoPull id other s = .refused .elementTypesDiffer := by
  simp only [execFifoPull, ha, hb, if_pos hsz]

/-- Settles O17: under both locks the source's oldest elements are pushed; different types are refused. -/
theorem fifoPull : Obligations.FifoPull := by
  refine ⟨fun id other s a b k ha hb _ hlk hsz hk => ?moved, fun id other s a b ha hb hsz => ?refused⟩
  case moved =>
    have hk' : k = pullCount a b := hk
    have hfit : k ≤ fifoFree a := hk' ▸ Nat.min_le_left _ _
    obtain ⟨hw, hrd, hlock, hsize, hN, hslot, hother⟩ := fifoPush_spec ha.2.1 (fifoOldest_length b k) hfit
    refine ⟨fifoPush a (fifoOldest b k), ?_, hw, hrd, hlock, hsize, hN, fun j hj => ?_, hother⟩
    · rw [exec_fifoPull, execFifoPull_ready ha hb hlk hsz, hk']; rfl
    · rw [hslot j hj, fifoOldest_getElem? hb.2.1 hj]
  case refused => rw [exec_fifoPull, execFifoPull_of_size_ne ha hb hsz]

/-- Taking a cell that exists leaves it owned. -/
theorem lockOwned_acquireLock {s : State} {l : Nat} (h : LockFree s l) : LockOwned (acquireLock l s) l := by
  rw [LockOwned, acquireLock_locks]
  exact ⟨s.ctx, List.getElem?_set_self (List.getElem?_eq_some_iff.1 h).1⟩

/-- Settles O18: the outer bracket takes the one cell, at which the inner one then waits; and a stuck command stays so. -/
theorem pullFromItselfHangs : Obligations.PullFromItselfHangs := by
  refine ⟨fun id s f hr => ?takes, fun id s t f hf hl ha hw h => ?waits⟩
  case takes =>
    obtain ⟨hf, -, hfree, hw⟩ := hr
    rw [exec_fifoPull, execFifoPull_outer hf hf rfl (pullHoldsOuter_of_none hw _ _), acquireOrWait_free hfree,
      pullInner_owned (lockOwned_acquireLock hfree), acquireLock_eq]
  case waits =>
    have hstuck : stuckAt s (.fifoPull id id) true = some f.lock := by simp [stuckAt, hf]
    rw [step_of_stuck hstuck hl ha hw h]
    exact ⟨rfl, rfl, rfl, ha, rfl, rfl, rfl⟩

end Sys2Proof.Machine
end

section
/-! Lengths over every step (R6, R74, R185, R216). -/

namespace Sys2Proof.Machine

/-! What one update makes of the lengths. -/

theorem len_ofNat_le {n : Nat} (h : n ≤ Config.maxPkt) : (BitVec.ofNat 10 n).toNat ≤ Config.maxPkt := by
  rw [BitVec.toNat_ofNat]; exact (Nat.mod_le _ _).trans h

theorem armInWord_len_le {n : Nat} (pid : Bool) (h : n ≤ Config.maxPkt) : (bcLen (armInWord pid n)).toNat ≤ Config.maxPkt := by
  rw [armInWord, bcLen_mk]; exact len_ofNat_le h

theorem armOutWord_len_le {n : Nat} (pid : Bool) (h : n ≤ Config.maxPkt) : (bcLen (armOutWord pid n)).toNat ≤ Config.maxPkt := by
  rw [armOutWord, bcLen_mk]; exact len_ofNat_le h

theorem bcLen_inDoneWord (w : Word) : bcLen (inDoneWord w) = bcLen w := by
  rw [inDoneWord, bcLen_setBit _ _ _ (by decide), bcLen_setBit _ _ _ (by decide)]

theorem bcLen_outDoneWord (w : Word) (n : Nat) : bcLen (outDoneWord w n) = BitVec.ofNat 10 n := by
  rw [outDoneWord, bcLen_setBit _ _ _ (by decide), bcLen_setBit _ _ _ (by decide), bcLen_setLen]

section
variable {s : State} (hs : LenOk s)
include hs

theorem LenOk.word (j : EpIdx) : (bcLen (bufCtrl s j)).toNat ≤ Config.maxPkt := hs.1 j

theorem LenOk.localLen : s.locals.len.toNat ≤ Config.maxPkt := hs.2.1

theorem LenOk.armingLen {a : Arming} (ha : s.arming = some a) : a.len ≤ Config.maxPkt := hs.2.2 a ha

end

/-- Where the words and the records are as before. -/
theorem LenOk.congr {s t : State} (hb : ∀ j, bufCtrl t j = bufCtrl s j) (hl : t.locals = s.locals)
    (ha : t.arming = s.arming) (hs : LenOk s) : LenOk t := by
  unfold LenOk
  rw [hl, ha]
  exact ⟨fun j => hb j ▸ hs.1 j, hs.2⟩

theorem LenOk.of_mem {s t : State} (hm : t.mem = s.mem) (hl : t.locals = s.locals) (ha : t.arming = s.arming)
    (hs : LenOk s) : LenOk t :=
  hs.congr (bufCtrl_congr hm) hl ha

theorem LenOk.after_reply {s : State} (hs : LenOk s) (r : Result) : LenOk (reply r s) :=
  hs.of_mem (reply_mem _ _) (reply_locals _ _) (reply_arming _ _)

theorem LenOk.after_setBufCtrl {s : State} (hs : LenOk s) (k : EpIdx) {w : Word} (hw : (bcLen w).toNat ≤ Config.maxPkt) :
    LenOk (setBufCtrl k w s) := by
  refine ⟨fun j => ?_, hs.2⟩
  rw [bufCtrl_set_eq]
  split
  · exact hw
  · exact hs.1 j

/-- A field write of one bit above `LEN`. -/
theorem LenOk.after_setBit {s : State} (hs : LenOk s) (k : EpIdx) {b : Nat} (hb : 10 ≤ b) (v : Bool) :
    LenOk (setBufCtrl k (setBit (bufCtrl s k) b v) s) :=
  hs.after_setBufCtrl k (by rw [bcLen_setBit _ _ _ hb]; exact hs.word k)

theorem LenOk.after_writeBuf {s : State} (hs : LenOk s) (k : EpIdx) (off : Nat) (bs : List Byte) : LenOk (writeBuf k off bs s) :=
  hs.congr (fun j => bufCtrl_writeBuf k j off bs s) rfl rfl

/-- A record of an arming within a packet. -/
theorem LenOk.with_arming {s : State} (hs : LenOk s) {x : Option Arming} (hx : ∀ a, x = some a → a.len ≤ Config.maxPkt)
    (m : Nat) : LenOk { s with arming := x, irqMask := m } :=
  ⟨hs.1, hs.2.1, hx⟩

/-- Locals with a length within a packet, at any position and in either context. -/
theorem LenOk.with_locals {s : State} (hs : LenOk s) {l : Locals} (hl : l.len.toNat ≤ Config.maxPkt) (p : HandlerPos) (c : Ctx) :
    LenOk { s with locals := l, hpc := p, ctx := c } :=
  ⟨hs.1, hl, hs.2.2⟩

theorem LenOk.after_armIn {s : State} (hs : LenOk s) (k : EpIdx) {data : List Byte} (hd : data.length ≤ Config.maxPkt) :
    LenOk (armIn k data s) :=
  (hs.after_writeBuf k 0 data).after_setBufCtrl k (armInWord_len_le _ hd)

theorem LenOk.after_armOut {s : State} (hs : LenOk s) (k : EpIdx) {n : Nat} (hn : n ≤ Config.maxPkt) : LenOk (armOut k n s) :=
  hs.after_setBufCtrl k (armOutWord_len_le _ hn)

theorem LenOk.after_armStep {s : State} (hs : LenOk s) : LenOk (armStep s) := by
  rcases ha : s.arming with _ | a
  · rw [armStep_none ha]; exact hs
  have hlen := hs.armingLen ha
  obtain ⟨b, bs, -, h⟩ | ⟨-, -, h⟩ | ⟨-, -, h⟩ := armStep_cases ha
  · rw [h]
    exact (hs.after_writeBuf a.idx a.off [b]).with_arming (fun _ e => by cases e; exact hlen) _
  · rw [h]
    exact (hs.after_setBufCtrl a.idx (armInWord_len_le _ hlen)).with_arming (fun _ e => by cases e; exact hlen) _
  · rw [h]
    exact (LenOk.with_arming (s := flipToggle a.idx s) hs (fun _ e => by cases e) _).after_reply _

theorem LenOk.after_startArm {s : State} (hs : LenOk s) (k : EpIdx) {data : List Byte} (hd : data.length ≤ Config.maxPkt) :
    LenOk (startArm k data s) :=
  (hs.with_arming (fun _ e => by cases e; exact hd) _).after_armStep

theorem LenOk.after_acceptSetup {s : State} (hs : LenOk s) (p : SetupPacket) : LenOk (acceptSetup p s) := by
  have h1 : LenOk (setSetupHw p s) := hs.congr (fun j => bufCtrl_setSetupHw p j s) rfl rfl
  exact (h1.after_setBit 0 (b := bcStall) (by decide) false).after_setBit 1 (b := bcStall) (by decide) false

theorem LenOk.after_initBlock {s : State} (hs : LenOk s) : LenOk (initBlock s) :=
  ⟨fun j => by rw [bufCtrl_initBlock]; decide, hs.2⟩

theorem LenOk.after_configureEp {s : State} (hs : LenOk s) (k : EpIdx) (ty : BitVec 2) (cb : Option Byte) :
    LenOk (configureEp k ty cb s) := by
  refine LenOk.congr (s := s) (fun j => ?_) rfl rfl hs
  rw [bufCtrl_congr (configureEp_mem k ty cb s), bufCtrl_setEpCtrl]

theorem LenOk.after_completeIn {s : State} (hs : LenOk s) (n : BitVec 4) : LenOk (completeIn n s) :=
  LenOk.after_setBufCtrl (s := emit _ s) hs (idxOf n true) (by rw [bcLen_inDoneWord]; exact hs.word _)

theorem LenOk.after_stallControl {s : State} (hs : LenOk s) : LenOk (stallControl s) :=
  hs.after_setBit (stallIndex s) (b := bcStall) (by decide) true

/-- A packet no longer than the armed `LEN` (R216, R219 c). -/
theorem LenOk.after_completeOut {s : State} (hs : LenOk s) {n : BitVec 4} {data : List Byte}
    (hd : data.length ≤ (bcLen (bufCtrl s (idxOf n false))).toNat) (pid : Bool) : LenOk (completeOut n pid data s) :=
  (hs.after_writeBuf (idxOf n false) 0 data).after_setBufCtrl (idxOf n false)
    (by rw [bcLen_outDoneWord]; exact len_ofNat_le (hd.trans (hs.word _)))

section
variable {s : State}

/-! One operation. What an operation can do (`CommandOf`, `EventOf`, `LineOf`) is said of next states; here a fault is to be
ruled out too, so the claim is of the whole outcome. -/

/-- A next state with all lengths within a packet, a refusal, or the stop of a block that has faulted before: no access to a
reserved range. -/
inductive LenSafe : Outcome → Prop where
  | next {t : State} (h : LenOk t) : LenSafe (.next t)
  | refused (r : Refusal) : LenSafe (.refused r)
  | stopped (k : FaultKind) : LenSafe (.fault (.blockFaulted k))

/-- A result, and nothing written that the lengths depend on. -/
theorem LenSafe.answer {u : State} (hs : LenOk s) (r : Result) (hm : u.mem = s.mem) (hl : u.locals = s.locals)
    (ha : u.arming = s.arming) : LenSafe (.next (reply r u)) :=
  .next ((hs.of_mem hm hl ha).after_reply r)

theorem raise_lenSafe (hs : LenOk s) (k : FaultKind) : LenSafe (raise k s) := .next hs

theorem acquireOrWait_lenSafe {i : Instr} {l : Nat} {inner : Bool} {k : State → Outcome} (hs : LenOk s)
    (hk : LenSafe (k (acquireLock l s))) : LenSafe (acquireOrWait i l inner s k) := by
  unfold acquireOrWait
  split
  · exact .refused _
  · exact hk
  · exact .next hs

theorem holderOp_lenSafe (hs : LenOk s) (i : Instr) (id : Byte) (f : Elem → Elem × Result) :
    LenSafe (holderOp i id s f) := by
  unfold holderOp
  split
  · exact .refused _
  · exact acquireOrWait_lenSafe hs (.answer hs _ rfl rfl rfl)

theorem fifoOp_lenSafe (hs : LenOk s) (i : Instr) (id : Byte) (f : Fifo → Fifo × Result) : LenSafe (fifoOp i id s f) := by
  unfold fifoOp
  split
  · exact .refused _
  · exact acquireOrWait_lenSafe hs (.answer hs _ rfl rfl rfl)

theorem pullInner_lenSafe (hs : LenOk s) (id other : Byte) (a b : Fifo) : LenSafe (pullInner id other a b s) :=
  acquireOrWait_lenSafe hs (.answer hs _ rfl rfl rfl)

theorem execFifoPull_lenSafe (hs : LenOk s) (id other : Byte) : LenSafe (execFifoPull id other s) := by
  unfold execFifoPull
  split
  · split
    · exact .refused _
    split
    · exact pullInner_lenSafe hs _ _ _ _
    · exact acquireOrWait_lenSafe hs (pullInner_lenSafe (s := acquireLock _ s) hs _ _ _ _)
  · exact .refused _

theorem withProc_lenSafe {fn : Option Byte} {k : Outcome} (hk : LenSafe k) : LenSafe (withProc s fn k) := by
  unfold withProc
  split
  · exact hk
  · exact .refused _

theorem callProc_lenSafe (hs : LenOk s) (f : Byte) (args : List Byte) : LenSafe (callProc f args s) := by
  unfold callProc
  split
  · exact .refused _
  · exact .next hs

/-- The check of R185 bounds the data. -/
theorem sendOn_lenSafe (hs : LenOk s) (ep : Byte) (data : List Byte) : LenSafe (sendOn ep data s) := by
  unfold sendOn
  split
  · exact raise_lenSafe hs _
  next hk =>
  have hd := checkTransfer_none hk
  rcases hc : s.ctx with _ | _
  · rw [runArmIn_main _ _ hc]; exact .next (hs.after_startArm _ hd)
  · rw [runArmIn_irq _ _ hc]; exact .next ((hs.after_armIn _ hd).after_reply _)

theorem execLockRelease_lenSafe (hs : LenOk s) (id : Byte) : LenSafe (execLockRelease id s) := by
  unfold execLockRelease
  split
  · exact .refused _
  split
  · exact .answer hs _ rfl rfl rfl
  · exact raise_lenSafe hs _

theorem execDevInit_lenSafe (hs : LenOk s) : LenSafe (execDevInit s) := by
  unfold execDevInit
  split
  · exact .next (hs.after_reply _)
  · exact .next (hs.after_initBlock.after_reply _)

theorem execDevConfigureEp_lenSafe (hs : LenOk s) (ep at_ : Byte) (mp : Half) (cb : Option Byte) :
    LenSafe (execDevConfigureEp ep at_ mp cb s) := by
  refine withProc_lenSafe ?_
  split
  · exact raise_lenSafe hs _
  · exact .next ((hs.after_configureEp _ _ _).after_reply _)

theorem execDevReceive_lenSafe (hs : LenOk s) (ep : Byte) (m : Half) : LenSafe (execDevReceive ep m s) := by
  unfold execDevReceive
  split
  · exact raise_lenSafe hs _
  · next hk => exact .next ((hs.after_armOut _ (checkTransfer_none hk)).after_reply _)

theorem execDevIsSendPending_lenSafe (hs : LenOk s) (ep : Byte) : LenSafe (execDevIsSendPending ep s) := by
  unfold execDevIsSendPending
  split
  · exact raise_lenSafe hs _
  · exact .next (hs.after_reply _)

theorem execDevStallControl_lenSafe (hs : LenOk s) : LenSafe (execDevStallControl s) := by
  unfold execDevStallControl
  split
  · exact raise_lenSafe hs _
  · exact .next (hs.after_stallControl.after_reply _)

theorem whenEnabled_lenSafe {k : Outcome} (hk : LenSafe k) : LenSafe (whenEnabled s k) := by
  unfold whenEnabled
  split
  · exact hk
  · exact .refused _

theorem execBusIn_lenSafe (hs : LenOk s) (a : BitVec 7) (n : BitVec 4) : LenSafe (execBusIn a n s) := by
  refine whenEnabled_lenSafe ?_
  split
  · exact .next hs
  split
  · exact .next hs
  split
  · exact .next hs
  · rw [if_pos (bufMapped_of_le _ _ (hs.word _))]; exact .next (hs.after_completeIn n)

theorem execBusOut_lenSafe (hs : LenOk s) (a : BitVec 7) (n : BitVec 4) (pid : Bool) (data : List Byte) :
    LenSafe (execBusOut a n pid data s) := by
  refine whenEnabled_lenSafe ?_
  split
  · exact .next hs
  split
  · exact .next hs
  split
  · exact .next hs
  split
  · exact .refused _
  next hd =>
  have hd := Nat.le_of_not_gt hd
  rw [if_pos (bufMapped_of_le _ _ (hd.trans (hs.word _)))]
  exact .next (hs.after_completeOut hd pid)

theorem execBusSetup_lenSafe (hs : LenOk s) (a : BitVec 7) (p : SetupPacket) : LenSafe (execBusSetup a p s) := by
  refine whenEnabled_lenSafe ?_
  split
  · exact .next (hs.after_acceptSetup p)
  · exact .next hs

theorem execIrqEntry_lenSafe (hs : LenOk s) : LenSafe (execIrqEntry s) := by
  unfold execIrqEntry
  split <;> exact .next hs

theorem execIrqBusReset_lenSafe (hs : LenOk s) : LenSafe (execIrqBusReset s) := by
  unfold execIrqBusReset
  split
  case h_4 => split <;> exact .next hs
  all_goals exact .next hs

theorem execIrqSetup_lenSafe (hs : LenOk s) : LenSafe (execIrqSetup s) := by
  unfold execIrqSetup
  split
  case h_4 => split <;> exact .next hs
  all_goals exact .next hs

theorem execIrqBuff_lenSafe (hs : LenOk s) : LenSafe (execIrqBuff s) := by
  unfold execIrqBuff
  split
  · split
    · split <;> exact .next hs
    · exact .next hs
  · split
    · exact .next (hs.with_locals (hs.word _) _ s.ctx)
    · exact .next hs
  · exact .next hs
  · split <;> exact .next hs

theorem serveCallback_lenSafe (hs : LenOk s) (k : EpIdx) : LenSafe (serveCallback k s) := by
  unfold serveCallback
  split
  · exact .next hs
  · split
    · exact .next hs
    · exact callProc_lenSafe hs _ _
  · exact .next hs
  · split
    · exact .next hs
    · rw [if_pos (bufMapped_of_le _ _ hs.localLen)]; exact .next hs

theorem execCompleteEp0In_lenSafe (hs : LenOk s) : LenSafe (execCompleteEp0In s) := by
  unfold execCompleteEp0In
  split
  case h_5 => rw [applyAddress_frame]; exact .next hs
  all_goals exact serveCallback_lenSafe hs 0

theorem dispatchResolver_lenSafe (hs : LenOk s) (p : SetupPacket) (sets : Bool) : LenSafe (dispatchResolver p sets s) := by
  unfold dispatchResolver
  split
  · exact .next hs
  · split
    · exact raise_lenSafe hs _
    · exact callProc_lenSafe hs _ _
  · exact .next hs
  · exact .next hs
  · split
    · exact .next hs
    split
    · exact raise_lenSafe hs _
    · exact .next hs.after_stallControl
  · split
    · exact raise_lenSafe hs _
    · exact .next hs

theorem exec_lenSafe (i : Instr) (hs : LenOk s) : LenSafe (exec i s) := by
  cases i with
  | lockAcquire => rw [exec_lockAcquire]; exact acquireOrWait_lenSafe hs (.answer (u := acquireLock _ s) hs _ rfl rfl rfl)
  | lockRelease => exact execLockRelease_lenSafe hs _
  | shGet => rw [exec_shGet]; exact holderOp_lenSafe hs _ _ _
  | shIs => rw [exec_shIs]; exact holderOp_lenSafe hs _ _ _
  | shTransition => rw [exec_shTransition]; exact holderOp_lenSafe hs _ _ _
  | shForce => rw [exec_shForce]; exact holderOp_lenSafe hs _ _ _
  | fifoEnqueue => rw [exec_fifoEnqueue]; exact fifoOp_lenSafe hs _ _ _
  | fifoDequeue => rw [exec_fifoDequeue]; exact fifoOp_lenSafe hs _ _ _
  | fifoErase => rw [exec_fifoErase]; exact fifoOp_lenSafe hs _ _ _
  | fifoPull => exact execFifoPull_lenSafe hs _ _
  | fifoClear => rw [exec_fifoClear]; exact fifoOp_lenSafe hs _ _ _
  | fifoFind => rw [exec_fifoFind]; exact fifoOp_lenSafe hs _ _ _
  | fifoOccupied => rw [exec_fifoOccupied]; exact fifoOp_lenSafe hs _ _ _
  | fifoFree => rw [exec_fifoFree]; exact fifoOp_lenSafe hs _ _ _
  | fifoCapacity => rw [exec_fifoCapacity]; exact fifoOp_lenSafe hs _ _ _
  | devInit => exact execDevInit_lenSafe hs
  | devSetResolver => exact withProc_lenSafe (.answer hs _ rfl rfl rfl)
  | devConfigureEp => exact execDevConfigureEp_lenSafe hs _ _ _ _
  | devControlSend | devSend => exact sendOn_lenSafe hs _ _
  | devReceive => exact execDevReceive_lenSafe hs _ _
  | devIsSendPending => exact execDevIsSendPending_lenSafe hs _
  | devStallControl => exact execDevStallControl_lenSafe hs
  | busReset => exact whenEnabled_lenSafe (.next hs)
  | busSetup => exact execBusSetup_lenSafe hs _ _
  | busIn => exact execBusIn_lenSafe hs _ _
  | busOut => exact execBusOut_lenSafe hs _ _ _ _
  | irqEntry => exact execIrqEntry_lenSafe hs
  | irqBusReset => exact execIrqBusReset_lenSafe hs
  | irqSetup => exact execIrqSetup_lenSafe hs
  | irqBuff => exact execIrqBuff_lenSafe hs
  | irqExit => exact .next (hs.with_locals (Nat.zero_le _) .idle .main)
  | completeEp0In => exact execCompleteEp0In_lenSafe hs
  | completeOut | completeIn => exact serveCallback_lenSafe hs _
  | setupSetAddress => exact .next (hs.after_armIn 0 (Nat.zero_le _))
  | setupSetConfiguration | setupOther => exact dispatchResolver_lenSafe hs _ _

/-! One step. -/

theorem endCall_lenOk (ok : Bool) (hs : LenOk s) : LenOk (endCall ok s) := by
  unfold endCall
  split <;> exact hs

theorem extTurn_lenSafe (e : ExtCall) (hs : LenOk s) : LenSafe (extTurn e s) := by
  unfold extTurn
  split
  · exact .next (endCall_lenOk _ hs)
  · split
    · exact exec_lenSafe _ hs
    · exact .refused _

theorem mainTurn_lenSafe (hs : LenOk s) : LenSafe (mainTurn s) := by
  unfold mainTurn
  split
  · exact .next hs
  · split
    · exact exec_lenSafe _ hs
    · exact .refused _

theorem procTurn_lenSafe (hs : LenOk s) : LenSafe (procTurn s) := by
  unfold procTurn
  split
  · exact .next hs.after_armStep
  split
  · exact exec_lenSafe _ hs
  split
  · exact extTurn_lenSafe _ hs
  split
  · exact exec_lenSafe _ hs
  split
  · exact .next hs
  · exact mainTurn_lenSafe hs

theorem hostTurn_lenSafe (hs : LenOk s) : LenSafe (hostTurn s) := by
  unfold hostTurn
  split
  · exact .next hs
  split
  · exact .next hs
  split
  · exact exec_lenSafe _ hs
  · exact .refused _

theorem step_lenSafe (hs : LenOk s) : LenSafe (step s) := by
  unfold step stepOnce
  split
  · exact .stopped _
  split
  · exact hostTurn_lenSafe hs
  · exact procTurn_lenSafe hs
  split
  · exact procTurn_lenSafe hs
  · exact hostTurn_lenSafe hs

end

theorem LenSafe.spec {o : Outcome} (h : LenSafe o) : o ≠ .fault .reservedAccess ∧ ∀ t, o = .next t → LenOk t := by
  constructor
  · rintro rfl; cases h
  · rintro t rfl; cases h; assumption

/-- Settles O57: with all lengths within a packet no operation reaches a reserved range, and each keeps them so. -/
theorem lengthsStayWithinAPacket : Obligations.LengthsStayWithinAPacket := fun _ hs => (step_lenSafe hs).spec

end Sys2Proof.Machine
end

section
/-! The checks of the device commands, each in its place in the order (R184, R185), and DEV.IS_SEND_PENDING. -/

namespace Sys2Proof.Machine

section
variable {s : State} {ep : Byte} {d : Bool} {n : Nat}

/-! The checks of R185. -/

theorem checkTransfer_of_uninitialised (h : s.initialized = false) : checkTransfer s d ep n = some .notInitialized := by
  simp [checkTransfer, h]

theorem checkTransfer_of_reserved (h : s.initialized = true) (hr : epReserved ep ≠ 0#3) :
    checkTransfer s d ep n = some .badEndpoint := by
  simp [checkTransfer, h, epValid, hr]

theorem checkTransfer_of_direction (h : s.initialized = true) (hr : epReserved ep = 0#3) (hd : epIsIn ep ≠ d) :
    checkTransfer s d ep n = some .badEndpoint := by
  simp [checkTransfer, h, epValid, hr, hd]

theorem checkTransfer_of_length (h : s.initialized = true) (hr : epReserved ep = 0#3) (hd : epIsIn ep = d) (hn : 64 < n) :
    checkTransfer s d ep n = some .badLength := by
  simp [checkTransfer, h, epValid, hr, hd, Config.maxPkt, hn]

theorem checkTransfer_of_pass (h : s.initialized = true) (hr : epReserved ep = 0#3) (hd : epIsIn ep = d) (hn : n ≤ 64) :
    checkTransfer s d ep n = none := by
  simp [checkTransfer, h, epValid, hr, hd, Config.maxPkt, hn]

/-! The commands, by what their checks answer. -/

variable {k : FaultKind} {data : List Byte} {m : Half}

theorem sendOn_of_fails (hf : s.fault = none) (h : checkTransfer s true ep data.length = some k) :
    sendOn ep data s = .next { s with fault := some k } := by
  rw [sendOn, h]; exact raise_of k hf

theorem sendOn_of_passes (h : checkTransfer s true ep data.length = none) :
    sendOn ep data s = .next (runArmIn (idx ep) data s) := by
  rw [sendOn, h]

theorem execDevReceive_of_fails (hf : s.fault = none) (h : checkTransfer s false ep m.toNat = some k) :
    execDevReceive ep m s = .next { s with fault := some k } := by
  rw [execDevReceive, h]; exact raise_of k hf

theorem execDevReceive_of_passes (h : checkTransfer s false ep m.toNat = none) :
    execDevReceive ep m s = .next (reply .done (armOut (idx ep) m.toNat s)) := by
  rw [execDevReceive, h]

theorem execDevIsSendPending_of_fails (hf : s.fault = none) (h : checkTransfer s true ep 0 = some k) :
    execDevIsSendPending ep s = .next { s with fault := some k } := by
  rw [execDevIsSendPending, h]; exact raise_of k hf

theorem execDevIsSendPending_of_passes (h : checkTransfer s true ep 0 = none) :
    execDevIsSendPending ep s = .next (reply (.bool ((bufCtrl s (idx ep)).getLsbD bcAvail)) s) := by
  rw [execDevIsSendPending, h]

/-- The address of DEV.CONTROL_SEND passes the checks of its form (R188). -/
theorem ep0In_form : epReserved 0x80#8 = 0#3 ∧ epIsIn 0x80#8 = true := by decide

theorem runArmIn_fault (i : EpIdx) (data : List Byte) (s : State) : (runArmIn i data s).fault = s.fault := by
  rcases hc : s.ctx with _ | _
  · rw [runArmIn_main _ _ hc, startArm_frame]
  · rw [runArmIn_irq _ _ hc, reply_fault]; rfl

end

/-- Settles O24, by the check that fails first; where none does, by the command. -/
theorem transferChecks : Obligations.TransferChecks := by
  intro ep data m s hf
  obtain ⟨hr0, hd0⟩ := ep0In_form
  refine ⟨?uninitialised, ?reserved, ?out, ?into, ?send, ?control, ?receive, ?passes⟩
  case uninitialised =>
    rintro h i (rfl | rfl | rfl | rfl)
    · exact sendOn_of_fails hf (checkTransfer_of_uninitialised h)
    · exact sendOn_of_fails hf (checkTransfer_of_uninitialised h)
    · exact execDevReceive_of_fails hf (checkTransfer_of_uninitialised h)
    · exact execDevIsSendPending_of_fails hf (checkTransfer_of_uninitialised h)
  case reserved =>
    rintro h hr i (rfl | rfl | rfl)
    · exact sendOn_of_fails hf (checkTransfer_of_reserved h hr)
    · exact execDevReceive_of_fails hf (checkTransfer_of_reserved h hr)
    · exact execDevIsSendPending_of_fails hf (checkTransfer_of_reserved h hr)
  case out =>
    intro h hr hd
    have hne : epIsIn ep ≠ true := by simp [hd]
    rintro i (rfl | rfl)
    · exact sendOn_of_fails hf (checkTransfer_of_direction h hr hne)
    · exact execDevIsSendPending_of_fails hf (checkTransfer_of_direction h hr hne)
  case into =>
    intro h hr hd
    exact execDevReceive_of_fails hf (checkTransfer_of_direction h hr (by simp [hd]))
  case send => exact fun h hr hd hn => sendOn_of_fails hf (checkTransfer_of_length h hr hd hn)
  case control => exact fun h hn => sendOn_of_fails hf (checkTransfer_of_length h hr0 hd0 hn)
  case receive => exact fun h hr hd hn => execDevReceive_of_fails hf (checkTransfer_of_length h hr hd hn)
  case passes =>
    rintro h hr hn hm i (⟨rfl, hd⟩ | rfl | ⟨rfl, hd⟩ | ⟨rfl, hd⟩)
    · exact ⟨_, sendOn_of_passes (checkTransfer_of_pass h hr hd hn), (runArmIn_fault _ _ _).trans hf⟩
    · exact ⟨_, sendOn_of_passes (checkTransfer_of_pass h hr0 hd0 hn), (runArmIn_fault _ _ _).trans hf⟩
    · exact ⟨_, execDevReceive_of_passes (checkTransfer_of_pass h hr hd hm), (reply_fault _ _).trans hf⟩
    · exact ⟨_, execDevIsSendPending_of_passes (checkTransfer_of_pass h hr hd (Nat.zero_le _)), (reply_fault _ _).trans hf⟩

/-- Settles O29: the checks pass, and the bit is `AVAIL`. -/
theorem devIsSendPending : Obligations.DevIsSendPending :=
  fun _ _ h hr hd => execDevIsSendPending_of_passes (checkTransfer_of_pass h hr hd (Nat.zero_le _))

end Sys2Proof.Machine
end

section
/-! DEV.INIT, DEV.SET_RESOLVER, DEV.CONFIGURE_EP and DEV.STALL_CONTROL (R180 to R184, R191). -/

namespace Sys2Proof.Machine

/-! DEV.INIT and DEV.SET_RESOLVER. -/

/-- Settles O21: the first initialisation writes the tables, the registers and DPRAM; a second one finds the block
initialised. -/
theorem initAndSetResolver : Obligations.InitAndSetResolver := by
  refine fun s => ⟨fun h => ⟨initBlock s, ?first, rfl, fun i => ?tables, fun a => memRead_nil a⟩, fun h => ?second,
    fun fn hn => ?resolver⟩
  case first => rw [exec_devInit, execDevInit, h]; rfl
  case tables => exact ⟨Vector.getElem_replicate _, Vector.getElem_replicate _⟩
  case second => rw [exec_devInit, execDevInit, h]; rfl
  case resolver => rw [exec_devSetResolver, execDevSetResolver, withProc_of hn]

/-! DEV.CONFIGURE_EP. -/

section
variable {s : State} {ep at_ : Byte} {mp : Half} {cb : Option Byte} {k : FaultKind}

/-- An admitted transfer type is neither of the other two (R115). -/
theorem attrType_admitted (h : attrType at_ = 2#2 ∨ attrType at_ = 3#2) : attrType at_ ≠ 0#2 ∧ attrType at_ ≠ 1#2 := by
  obtain h | h := h <;> rw [h] <;> decide

theorem checkConfigure_of_uninitialised (h : s.initialized = false) :
    checkConfigure s ep at_ mp = some .notInitialized := by
  simp [checkConfigure, h]

theorem checkConfigure_of_endpoint (h : s.initialized = true) (he : epReserved ep ≠ 0#3 ∨ epNum ep = 0#4) :
    checkConfigure s ep at_ mp = some .badEndpoint := by
  have he : (!epValid ep || epNum ep == 0#4) = true := by simpa [epValid] using he
  simp [checkConfigure, h, he]

theorem checkConfigure_of_type (h : s.initialized = true) (hr : epReserved ep = 0#3) (hn : epNum ep ≠ 0#4)
    (ht : attrType at_ = 0#2 ∨ attrType at_ = 1#2) : checkConfigure s ep at_ mp = some .badType := by
  simp [checkConfigure, h, epValid, hr, hn, ht]

theorem checkConfigure_of_length (h : s.initialized = true) (hr : epReserved ep = 0#3) (hn : epNum ep ≠ 0#4)
    (ht : attrType at_ = 2#2 ∨ attrType at_ = 3#2) (hm : 64 < mp.toNat) :
    checkConfigure s ep at_ mp = some .badLength := by
  simp [checkConfigure, h, epValid, hr, hn, attrType_admitted ht, Config.maxPkt, hm]

theorem checkConfigure_of_pass (h : s.initialized = true) (hr : epReserved ep = 0#3) (hn : epNum ep ≠ 0#4)
    (ht : attrType at_ = 2#2 ∨ attrType at_ = 3#2) (hm : mp.toNat ≤ 64) : checkConfigure s ep at_ mp = none := by
  simp [checkConfigure, h, epValid, hr, hn, attrType_admitted ht, Config.maxPkt, hm]

theorem execDevConfigureEp_of_fails (hf : s.fault = none) (hc : procNamed s cb = true)
    (h : checkConfigure s ep at_ mp = some k) : execDevConfigureEp ep at_ mp cb s = .next { s with fault := some k } := by
  rw [execDevConfigureEp, withProc_of hc, h]; exact raise_of k hf

theorem execDevConfigureEp_of_passes (hc : procNamed s cb = true) (h : checkConfigure s ep at_ mp = none) :
    execDevConfigureEp ep at_ mp cb s = .next (reply .done (configureEp (idx ep) (attrType at_) cb s)) := by
  rw [execDevConfigureEp, withProc_of hc, h]

/-- The word that DEV.CONFIGURE_EP leaves (R183). -/
theorem epCtrl_configureEp (i : EpIdx) (ty : BitVec 2) (cb : Option Byte) (s : State) :
    epCtrl (configureEp i ty cb s) i = mkEpCtrl true ty (BitVec.ofNat 16 (bufAddr i)) := by
  rw [epCtrl_congr (configureEp_mem i ty cb s), epCtrl_set]

/-- Reserved bits of the word of a whole-register write (R109, R113). -/
theorem mkEpCtrl_reserved (e : Bool) (t : BitVec 2) (a : BitVec 16) {k : Nat} (hk : (28 ≤ k ∧ k ≤ 30) ∨ (16 ≤ k ∧ k ≤ 25)) :
    (mkEpCtrl e t a).getLsbD k = false := by
  rw [getLsbD_mkEpCtrl, if_neg (by omega)]
  split
  · rfl
  · rw [if_neg (by omega), if_neg (by omega)]

end

/-- Settles O23, by the check that fails first. -/
theorem devConfigureEpChecks : Obligations.DevConfigureEpChecks := by
  refine fun ep at_ mp cb s hf hc => ⟨fun h => ?uninitialised, fun h he => ?endpoint, fun h hr hn ht => ?type,
    fun h hr hn ht hm => ?length, fun h hr hn ht hm => ?passes⟩
  case uninitialised => exact execDevConfigureEp_of_fails hf hc (checkConfigure_of_uninitialised h)
  case endpoint => exact execDevConfigureEp_of_fails hf hc (checkConfigure_of_endpoint h he)
  case type => exact execDevConfigureEp_of_fails hf hc (checkConfigure_of_type h hr hn ht)
  case length => exact execDevConfigureEp_of_fails hf hc (checkConfigure_of_length h hr hn ht hm)
  case passes =>
    exact ⟨_, execDevConfigureEp_of_passes hc (checkConfigure_of_pass h hr hn ht hm), (reply_fault _ _).trans hf⟩

/-- Settles O22: the one word is the one that was made of its fields. -/
theorem devConfigureEp : Obligations.DevConfigureEp := by
  intro ep at_ mp cb s hc h hr hn ht hm
  have hw := epCtrl_configureEp (idx ep) (attrType at_) cb s
  refine ⟨configureEp (idx ep) (attrType at_) cb s,
    execDevConfigureEp_of_passes hc (checkConfigure_of_pass h hr hn ht hm), rfl, idx_ge_two hn, ?en, ?type, ?addr,
    fun k hk => ?reserved, fun a ha => ?frame⟩
  case en => rw [hw, ecEn_mk]
  case type => rw [hw, ecType_mk]
  case addr => rw [hw, ecAddr_mk, bufAddr_toNat]
  case reserved => rw [hw, mkEpCtrl_reserved _ _ _ hk]
  case frame => rw [configureEp_mem]; exact memRead_writeWord_of_not_mem _ _ _ _ (by omega)

/-! DEV.STALL_CONTROL. -/

section
variable {s : State}

theorem checkStall_of_uninitialised (h : s.initialized = false) : checkStall s = some .notInitialized := by
  simp [checkStall, h]

theorem checkStall_of_noSetup (h : s.initialized = true) (hv : s.setupValid = false) : checkStall s = some .noSetup := by
  simp [checkStall, h, hv]

theorem checkStall_of_pass (h : s.initialized = true) (hv : s.setupValid = true) : checkStall s = none := by
  simp [checkStall, h, hv]

theorem execDevStallControl_of_fails {k : FaultKind} (hf : s.fault = none) (h : checkStall s = some k) :
    execDevStallControl s = .next { s with fault := some k } := by
  rw [execDevStallControl, h]; exact raise_of k hf

theorem execDevStallControl_of_passes (h : checkStall s = none) :
    execDevStallControl s = .next (reply .done (stallControl s)) := by
  rw [execDevStallControl, h]

end

/-- Settles O30, by the device state and whether there is a packet on record. -/
theorem devStallControl : Obligations.DevStallControl := by
  intro s i hi
  have hi : stallIndex s = i := hi.symm
  refine ⟨fun h hv => ⟨stallControl s, execDevStallControl_of_passes (checkStall_of_pass h hv), stallControl_frame s,
      fun k _ => ?bits, fun a ha => ?frame⟩,
    fun hf h => execDevStallControl_of_fails hf (checkStall_of_uninitialised h),
    fun hf h hv => execDevStallControl_of_fails hf (checkStall_of_noSetup h hv)⟩
  case bits => rw [stallControl, hi, bufCtrl_set, getLsbD_setBit _ _ _ _ (by decide)]; rfl
  case frame => rw [stallControl, hi]; exact memRead_writeWord_of_not_mem _ _ _ _ (by omega)

end Sys2Proof.Machine
end

section
/-! Arming a buffer: DEV.SEND, DEV.CONTROL_SEND, DEV.RECEIVE, and the micro-steps of `arm_in` (R186 to R190). -/

namespace Sys2Proof.Machine

/-! `arm_out`. -/

/-- Settles O28: `arm_out` writes the one word. -/
theorem devReceive : Obligations.DevReceive := by
  intro ep m s h hr hd hm
  refine ⟨armOut (idx ep) m.toNat s, execDevReceive_of_passes (checkTransfer_of_pass h hr hd hm), armOut_frame _ _ _,
    ?word, fun a ha => ?frame⟩
  case word => rw [bufCtrl_congr (armOut_mem _ _ s), bufCtrl_set]; rfl
  case frame => rw [armOut_mem]; exact memRead_writeWord_of_not_mem _ _ _ _ (by omega)

/-! `arm_in` as a whole. -/

theorem bufCtrl_armIn (i : EpIdx) (data : List Byte) (s : State) :
    bufCtrl (armIn i data s) i = armInWord s.toggle[i] data.length := by
  rw [bufCtrl_congr (armIn_mem i data s), bufCtrl_set]; rfl

/-- A byte of the buffer lies above every register word, which leaves it (R70). -/
theorem memRead_setBufCtrl_of_ge (i : EpIdx) (w : Word) (s : State) {a : Nat} (ha : 0x100 ≤ a) :
    memRead (setBufCtrl i w s).mem a = memRead s.mem a :=
  memRead_writeWord_of_not_mem _ _ _ _ (.inr ((bufCtrlAddr_range i).2.trans ha))

theorem memRead_armIn_data (i : EpIdx) {data : List Byte} (s : State) {j : Nat} (hj : j < data.length) :
    data[j]? = some (memRead (armIn i data s).mem (bufAddr i + j)) := by
  rw [armIn_mem, memRead_setBufCtrl_of_ge i _ _ ((bufAddr_ge i).trans (Nat.le_add_right _ _)), writeBuf_mem,
    memRead_writeBytes, Nat.add_zero, if_pos (by omega), Nat.add_sub_cancel_left]
  simp [hj]

theorem armedIn_armIn (i : EpIdx) (data : List Byte) (s : State) : ArmedIn i data s (armIn i data s) := by
  refine ⟨armIn_frame i data s, fun j hj => memRead_armIn_data i s hj, bufCtrl_armIn i data s, rfl, fun a hb hc => ?_⟩
  rw [armIn_mem]
  calc memRead (setBufCtrl i _ (writeBuf i 0 data s)).mem a
      = memRead (writeBuf i 0 data s).mem a := memRead_writeWord_of_not_mem _ _ _ _ (by omega)
    _ = memRead s.mem a := memRead_writeBytes_of_not_mem _ _ _ _ (by omega)

section
variable {s : State} {ep : Byte} {data : List Byte}

/-- A send that passes its checks, carried to its end. -/
theorem sendOn_arms (h : checkTransfer s true ep data.length = none) (ha : s.arming = none) :
    ∃ t u, sendOn ep data s = .next t ∧ finishArm t = reply .done u ∧ ArmedIn (idx ep) data s u :=
  ⟨_, _, sendOn_of_passes h, finishArm_runArmIn (idx ep) data s ha, armedIn_armIn (idx ep) data s⟩

/-- External code's send is at its end after one step (R279). -/
theorem sendOn_arms_irq (h : checkTransfer s true ep data.length = none) (hc : s.ctx = .irq) :
    ∃ u, sendOn ep data s = .next (reply .done u) ∧ ArmedIn (idx ep) data s u :=
  ⟨_, by rw [sendOn_of_passes h, runArmIn_irq _ _ hc], armedIn_armIn (idx ep) data s⟩

end

/-- Settles O25: either command is a send that passes its checks. -/
theorem sendArmsTheBuffer : Obligations.SendArmsTheBuffer := by
  intro data s h ha hn
  have h0 : checkTransfer s true 0x80#8 data.length = none := checkTransfer_of_pass h ep0In_form.1 ep0In_form.2 hn
  refine ⟨fun ep hr hd => ?send, sendOn_arms h0 ha, sendOn_arms_irq h0⟩
  have hp : checkTransfer s true ep data.length = none := checkTransfer_of_pass h hr hd hn
  exact ⟨sendOn_arms hp ha, sendOn_arms_irq hp⟩

/-- Settles O27: the word of each send carries the toggle that it finds, and the first send flips that. -/
theorem secondSendHasTheOtherPid : Obligations.SecondSendHasTheOtherPid := by
  intro ep d1 d2 s h ha _ hr hd h1 h2
  have e1 := finishArm_runArmIn (idx ep) d1 s ha
  set s1 := reply .done (armIn (idx ep) d1 s)
  have hi1 : s1.initialized = true := (reply_initialized _ _).trans h
  have ha1 : s1.arming = none := (reply_arming _ _).trans ha
  have ht1 : s1.toggle = s.toggle.set (idx ep) (!s.toggle[idx ep]) := reply_toggle _ _
  have hw1 : bufCtrl s1 (idx ep) = armInWord s.toggle[idx ep] d1.length :=
    (bufCtrl_congr (reply_mem _ _) _).trans (bufCtrl_armIn _ _ _)
  have e2 := finishArm_runArmIn (idx ep) d2 s1 ha1
  refine ⟨_, _, s1, _, s.toggle[idx ep], sendOn_of_passes (checkTransfer_of_pass h hr hd h1), e1, ?pending,
    sendOn_of_passes (checkTransfer_of_pass hi1 hr hd h2), e2, ?pid1, ?pid2, ?toggle⟩
  case pending =>
    rw [devIsSendPending ep s1 hi1 hr hd, hw1]
    exact congrArg (fun b => Host.Outcome.next (reply (.bool b) s1)) (bcAvail_mk _ _ _ _ _)
  case pid1 => rw [hw1]; exact bcPid_mk _ _ _ _ _
  case pid2 =>
    rw [bufCtrl_congr (reply_mem _ _), bufCtrl_armIn, ht1]
    refine (bcPid_mk _ _ _ _ _).trans ?_
    simp
  case toggle =>
    rw [reply_toggle, armIn_frame]
    simp [ht1]

/-! One micro-step of `arm_in`. -/

/-- The arming under way goes on before anything else of the processor (R186). -/
theorem procTurn_of_arming {s : State} {a : Arming} (ha : s.arming = some a) : procTurn s = .next (armStep s) := by
  simp [procTurn, ha]

/-- Settles O26, by the three micro-steps. -/
theorem armingGoesOnBytesFirst : Obligations.ArmingGoesOnBytesFirst := by
  intro s a ha hf
  refine ⟨fun rest hs => ?scheduled, fun hs => ?unscheduled, fun b bs ht => ?byte, fun ht hw => ?word, fun ht hw => ?flip⟩
  case scheduled => exact (step_of_proc hf hs).trans (procTurn_of_arming ha)
  case unscheduled =>
    have hr : procReady s = true := by simp [procReady, ha]
    simp only [step, stepOnce, hf, hs, hr, if_true]
    exact procTurn_of_arming ha
  case byte =>
    rw [armStep_byte ha ht]
    refine ⟨rfl, ?written, fun x hx => ?others, fun i => bufCtrl_writeBuf a.idx i a.off [b] s⟩
    case written => exact (memRead_write _ _ _ _).trans (if_pos rfl)
    case others => exact (memRead_write _ _ _ _).trans (if_neg hx)
  case word =>
    rw [armStep_word ha ht hw]
    exact ⟨rfl, bufCtrl_set _ _ s, fun x hx => memRead_writeWord_of_not_mem _ _ _ _ (by omega)⟩
  case flip => exact armStep_flip ha ht hw

end Sys2Proof.Machine
end

section
/-! The bus events: what a token finds at its index (R211, R215, R217), what a completing transaction and an accepted setup
packet leave of DPRAM (R213, R214, R216), and what no bus event does (R218). -/

namespace Sys2Proof.Machine

variable {s : State} {a : BitVec 7} {n : BitVec 4} {pid : Bool} {data : List Byte}

/-! The index of a token (R211). -/

theorem eq_idxOf_in {i : EpIdx} (h : i.val = 2 * n.toNat) : i = idxOf n true := Fin.ext h

theorem eq_idxOf_out {i : EpIdx} (h : i.val = 2 * n.toNat + 1) : i = idxOf n false := Fin.ext h

theorem matched_iff {i : EpIdx} :
    matched s a i = true ↔ a = s.devAddr ∧ (i.val < 2 ∨ (epCtrl s i).getLsbD 31 = true) := by
  simp [matched, ecEn]

theorem matched_address {i : EpIdx} (h : matched s a i = true) : a = s.devAddr := (matched_iff.mp h).1

/-! The tests that BUS.IN and BUS.OUT share, in the order of R215 and R217. -/

/-- A token for index `i`: ignored, a stall, a NAK, or else the transaction `k`. -/
def onToken (a : BitVec 7) (i : EpIdx) (n : BitVec 4) (d : Dir) (ready : Bool) (s : State) (k : Outcome) : Outcome :=
  if !matched s a i then .next (emit .ignored s)
  else if (bufCtrl s i).getLsbD bcStall then .next (emit (.stallSent n d) s)
  else if !ready then .next (emit (.nak n d) s)
  else k

/-- The token passes all the tests. -/
structure Accepts (s : State) (a : BitVec 7) (i : EpIdx) (ready : Bool) : Prop where
  matched : matched s a i = true
  notStalled : (bufCtrl s i).getLsbD bcStall = false
  ready : ready = true

/-- `AVAIL` and `FULL` as an IN transaction wants them (R214). -/
def inReady (s : State) (i : EpIdx) : Bool := (bufCtrl s i).getLsbD bcAvail && (bufCtrl s i).getLsbD bcFull

/-- `AVAIL` and `FULL` as an OUT transaction wants them (R216). -/
def outReady (s : State) (i : EpIdx) : Bool := (bufCtrl s i).getLsbD bcAvail && !(bufCtrl s i).getLsbD bcFull

theorem exec_busIn_onToken (hi : s.initialized = true) (hp : s.pullup = true) : exec (.busIn a n) s =
    onToken a (idxOf n true) n .dirIn (inReady s (idxOf n true)) s
      (if bufMapped (idxOf n true) (bcLen (bufCtrl s (idxOf n true))).toNat then .next (completeIn n s)
        else .fault .reservedAccess) :=
  (exec_busIn s a n).trans (whenEnabled_of hi hp)

theorem exec_busOut_onToken (hi : s.initialized = true) (hp : s.pullup = true) : exec (.busOut a n pid data) s =
    onToken a (idxOf n false) n .dirOut (outReady s (idxOf n false)) s
      (if data.length > (bcLen (bufCtrl s (idxOf n false))).toNat then .refused .hostHasNoMove
        else if bufMapped (idxOf n false) data.length then .next (completeOut n pid data s) else .fault .reservedAccess) :=
  (exec_busOut s a n pid data).trans (whenEnabled_of hi hp)

section
variable {i : EpIdx} {d : Dir} {ready : Bool} {k : Outcome}

theorem onToken_of_unmatched (h : matched s a i = false) : onToken a i n d ready s k = .next (emit .ignored s) := by
  simp [onToken, h]

theorem onToken_of_stalled (hm : matched s a i = true) (h : (bufCtrl s i).getLsbD bcStall = true) :
    onToken a i n d ready s k = .next (emit (.stallSent n d) s) := by
  simp [onToken, hm, h]

theorem onToken_of_not_ready (hm : matched s a i = true) (hs : (bufCtrl s i).getLsbD bcStall = false)
    (h : ready = false) : onToken a i n d ready s k = .next (emit (.nak n d) s) := by
  simp [onToken, hm, hs, h]

theorem onToken_of_accepts (h : Accepts s a i ready) : onToken a i n d ready s k = k := by
  simp [onToken, h.matched, h.notStalled, h.ready]

/-- Short of the transaction a token leaves an event. -/
theorem onToken_of_not_accepts (h : ¬Accepts s a i ready) : ∃ e, onToken a i n d ready s k = .next (emit e s) := by
  rcases hm : matched s a i with _ | _
  · exact ⟨_, onToken_of_unmatched hm⟩
  rcases hs : (bufCtrl s i).getLsbD bcStall with _ | _
  · exact ⟨_, onToken_of_not_ready hm hs (Bool.eq_false_iff.mpr fun hr => h ⟨hm, hs, hr⟩)⟩
  · exact ⟨_, onToken_of_stalled hm hs⟩

theorem onToken_next {t : State} (h : onToken a i n d ready s k = .next t) :
    (Accepts s a i ready ∧ k = .next t) ∨ (¬Accepts s a i ready ∧ ∃ e, t = emit e s) := by
  by_cases hacc : Accepts s a i ready
  · exact .inl ⟨hacc, (onToken_of_accepts hacc).symm.trans h⟩
  · obtain ⟨e, he⟩ := onToken_of_not_accepts (n := n) (d := d) (k := k) hacc
    rw [he] at h
    cases h
    exact .inr ⟨hacc, e, rfl⟩

/-- What R215 and R217 say of the cases that complete nothing. -/
theorem onToken_otherCases {o : Outcome} (ho : o = onToken a i n d ready s k) :
    (¬(a = s.devAddr ∧ (i.val < 2 ∨ (epCtrl s i).getLsbD 31 = true)) → o = .next (emit .ignored s)) ∧
    (a = s.devAddr → (i.val < 2 ∨ (epCtrl s i).getLsbD 31 = true) →
      ((bufCtrl s i).getLsbD 11 = true → o = .next (emit (.stallSent n d) s)) ∧
      ((bufCtrl s i).getLsbD 11 = false → ready = false → o = .next (emit (.nak n d) s))) := by
  subst ho
  refine ⟨fun hm => onToken_of_unmatched ?unmatched, fun ha hen => ?matched⟩
  case unmatched => exact Bool.eq_false_iff.mpr (mt matched_iff.mp hm)
  case matched =>
    have hm : matched s a i = true := matched_iff.mpr ⟨ha, hen⟩
    exact ⟨onToken_of_stalled hm, onToken_of_not_ready hm⟩

end

/-! What completes (R214, R216). -/

theorem completes_busIn_iff {i : EpIdx} : completes s i (.busIn a n) = true ↔
    idxOf n true = i ∧ Accepts s a i (inReady s i) := by
  constructor
  · intro h
    simp only [completes, Bool.and_eq_true, beq_iff_eq, Bool.not_eq_true'] at h
    obtain ⟨⟨⟨⟨hi, hm⟩, hs⟩, hav⟩, hfull⟩ := h
    exact ⟨hi, hm, hs, by rw [inReady, hav, hfull]; rfl⟩
  · rintro ⟨hi, hm, hs, hr⟩
    rw [inReady, Bool.and_eq_true] at hr
    simp [completes, hi, hm, hs, hr]

theorem completes_busOut_iff {i : EpIdx} : completes s i (.busOut a n pid data) = true ↔
    idxOf n false = i ∧ Accepts s a i (outReady s i) ∧ data.length ≤ (bcLen (bufCtrl s i)).toNat := by
  constructor
  · intro h
    simp only [completes, Bool.and_eq_true, beq_iff_eq, Bool.not_eq_true', decide_eq_true_eq] at h
    obtain ⟨⟨⟨⟨⟨hi, hm⟩, hs⟩, hav⟩, hfull⟩, hlen⟩ := h
    exact ⟨hi, ⟨hm, hs, by rw [outReady, hav, hfull]; rfl⟩, hlen⟩
  · rintro ⟨hi, ⟨hm, hs, hr⟩, hlen⟩
    rw [outReady, Bool.and_eq_true, Bool.not_eq_true'] at hr
    simp [completes, hi, hm, hs, hr, hlen]

theorem completes_busReset (i : EpIdx) : completes s i .busReset = false := rfl

theorem completes_busSetup (p : SetupPacket) (i : EpIdx) : completes s i (.busSetup a p) = false := rfl

/-- An event completes one index at most. -/
theorem completes_unique {e : Instr} {i j : EpIdx} (hi : completes s i e = true) (hj : completes s j e = true) : j = i := by
  cases e with
  | busIn a n => exact (completes_busIn_iff.mp hj).1.symm.trans (completes_busIn_iff.mp hi).1
  | busOut a n pid data => exact (completes_busOut_iff.mp hj).1.symm.trans (completes_busOut_iff.mp hi).1
  | _ => cases hi

theorem completes_eq_decide {e : Instr} {i : EpIdx} (hi : completes s i e = true) (j : EpIdx) :
    completes s j e = decide (j = i) := by
  rw [Bool.eq_iff_iff, decide_eq_true_eq]
  exact ⟨completes_unique hi, fun h => h ▸ hi⟩

/-! The words that completions leave. -/

theorem getLsbD_inDoneWord (w : Word) (k : Nat) :
    (inDoneWord w).getLsbD k = if k = 10 ∨ k = 15 then false else w.getLsbD k := by
  rw [inDoneWord, getLsbD_setBit _ _ _ _ (by decide), getLsbD_setBit _ _ _ _ (by decide)]
  by_cases h15 : k = 15
  · simp [h15, bcFull]
  by_cases h10 : k = 10
  · simp [h10, bcFull, bcAvail]
  · simp [h15, h10, bcFull, bcAvail]

theorem getLsbD_outDoneWord (w : Word) (len : Nat) {k : Nat} (hk : 10 ≤ k) :
    (outDoneWord w len).getLsbD k = if k = 15 then true else if k = 10 then false else w.getLsbD k := by
  have hlen : ¬k < 10 := Nat.not_lt_of_le hk
  rw [outDoneWord, getLsbD_setBit _ _ _ _ (by decide), getLsbD_setBit _ _ _ _ (by decide), getLsbD_setLen, if_neg hlen]
  by_cases h10 : k = 10
  · simp [h10, bcAvail]
  · rw [if_neg (show k ≠ bcAvail from h10), if_neg h10]; rfl

/-! DPRAM after a completion and after an accepted packet. -/

/-- A byte written as part of a sequence reads back. -/
theorem getElem?_eq_memRead_writeBytes (m : List Host.Cell) (x : Nat) {bs : List Byte} {j : Nat} (hj : j < bs.length) :
    bs[j]? = some (memRead (memWriteBytes m x bs) (x + j)) := by
  rw [memRead_writeBytes, if_pos (by omega), Nat.add_sub_cancel_left]
  simp [hj]

theorem bufCtrl_completeIn (n : BitVec 4) (s : State) (j : EpIdx) : bufCtrl (completeIn n s) j =
    if j = idxOf n true then inDoneWord (bufCtrl s (idxOf n true)) else bufCtrl s j := by
  rw [bufCtrl_congr (completeIn_mem n s), bufCtrl_set_eq]

theorem memRead_completeIn (n : BitVec 4) (s : State) {x : Nat}
    (hx : ¬(bufCtrlAddr (idxOf n true) ≤ x ∧ x < bufCtrlAddr (idxOf n true) + 4)) :
    memRead (completeIn n s).mem x = memRead s.mem x := by
  rw [completeIn_mem]
  exact memRead_writeWord_of_not_mem _ _ _ _ (by omega)

theorem bufCtrl_completeOut (n : BitVec 4) (pid : Bool) (data : List Byte) (s : State) (j : EpIdx) :
    bufCtrl (completeOut n pid data s) j =
      if j = idxOf n false then outDoneWord (bufCtrl s (idxOf n false)) data.length else bufCtrl s j := by
  rw [bufCtrl_congr (completeOut_mem n pid data s), bufCtrl_set_eq, bufCtrl_writeBuf]

theorem memRead_completeOut (n : BitVec 4) (pid : Bool) (data : List Byte) (s : State) {x : Nat}
    (hb : ¬(bufAddr (idxOf n false) ≤ x ∧ x < bufAddr (idxOf n false) + data.length))
    (hx : ¬(bufCtrlAddr (idxOf n false) ≤ x ∧ x < bufCtrlAddr (idxOf n false) + 4)) :
    memRead (completeOut n pid data s).mem x = memRead s.mem x := by
  rw [completeOut_mem]
  calc memRead (setBufCtrl (idxOf n false) _ (writeBuf (idxOf n false) 0 data s)).mem x
      = memRead (writeBuf (idxOf n false) 0 data s).mem x := memRead_writeWord_of_not_mem _ _ _ _ (by omega)
    _ = memRead s.mem x := memRead_writeBytes_of_not_mem _ _ _ _ (by omega)

theorem getElem?_eq_memRead_completeOut (n : BitVec 4) (pid : Bool) (s : State) {j : Nat} (hj : j < data.length) :
    data[j]? = some (memRead (completeOut n pid data s).mem (bufAddr (idxOf n false) + j)) := by
  rw [completeOut_mem, memRead_setBufCtrl_of_ge _ _ _ ((bufAddr_ge _).trans (Nat.le_add_right _ _))]
  exact getElem?_eq_memRead_writeBytes s.mem (bufAddr (idxOf n false)) hj

theorem bufCtrl_acceptSetup (p : SetupPacket) (s : State) (j : EpIdx) : bufCtrl (acceptSetup p s) j =
    if j.val < 2 then setBit (bufCtrl s j) bcStall false else bufCtrl s j := by
  rw [bufCtrl_congr (acceptSetup_mem p s), bufCtrl_set_eq, bufCtrl_set_eq, bufCtrl_setSetupHw]
  by_cases h1 : j = 1
  · subst h1; rfl
  by_cases h0 : j = 0
  · subst h0; rfl
  · have hv1 : j.val ≠ 1 := fun e => h1 (Fin.ext e)
    have hv0 : j.val ≠ 0 := fun e => h0 (Fin.ext e)
    have h2 : ¬j.val < 2 := by omega
    rw [if_neg h1, if_neg h0, if_neg h2]

/-- Outside the two words of the control endpoint an accepted packet writes `SETUP_HW` only. -/
theorem memRead_acceptSetup_of_not_word (p : SetupPacket) (s : State) {x : Nat} (hx : ¬(0x080 ≤ x ∧ x < 0x088)) :
    memRead (acceptSetup p s).mem x = memRead (setSetupHw p s).mem x := by
  have h0 : bufCtrlAddr 0 = 0x080 := rfl
  have h1 : bufCtrlAddr 1 = 0x084 := rfl
  rw [acceptSetup_mem]
  exact (memRead_writeWord_of_not_mem _ _ _ _ (by omega)).trans (memRead_writeWord_of_not_mem _ _ _ _ (by omega))

theorem memRead_acceptSetup (p : SetupPacket) (s : State) {x : Nat} (h8 : 8 ≤ x) (hx : ¬(0x080 ≤ x ∧ x < 0x088)) :
    memRead (acceptSetup p s).mem x = memRead s.mem x :=
  (memRead_acceptSetup_of_not_word p s hx).trans (memRead_writeBytes_of_not_mem _ _ _ _ (.inr h8))

theorem getElem?_eq_memRead_acceptSetup (p : SetupPacket) (s : State) {j : Nat} (hj : j < 8) :
    (packetBytes p)[j]? = some (memRead (acceptSetup p s).mem j) := by
  rw [memRead_acceptSetup_of_not_word p s (by omega)]
  have h := getElem?_eq_memRead_writeBytes s.mem Config.setupBase (bs := packetBytes p) hj
  rwa [Config.setupBase, Nat.zero_add] at h

/-- `SETUP_HW` lies below every buffer-control word (R70). -/
theorem setupHw_setBufCtrl (i : EpIdx) (w : Word) (s : State) : setupHw (setBufCtrl i w s) = setupHw s := by
  have h {k : Nat} (hk : k < 8) : memRead (setBufCtrl i w s).mem (Config.setupBase + k) = memRead s.mem (Config.setupBase + k) :=
    memRead_writeWord_of_not_mem _ _ _ _ (by have := bufCtrlAddr_range i; rw [Config.setupBase]; omega)
  simp (disch := decide) only [setupHw, h]

theorem setupHw_acceptSetup (p : SetupPacket) (s : State) : setupHw (acceptSetup p s) = p := by
  rw [setupHw_congr (acceptSetup_mem p s), setupHw_setBufCtrl, setupHw_setBufCtrl, setupHw_setSetupHw]

/-! What a bus event does, and when. -/

/-- `EventOf` with the conditions of R212 to R217 under which each case occurs. -/
inductive BusMove (s : State) : Instr → State → Prop where
  | reset : BusMove s .busReset { s with busResetLatch := true }
  | accepted (p : SetupPacket) : BusMove s (.busSetup s.devAddr p) (acceptSetup p s)
  /-- nothing completes, and an event is recorded -/
  | noticed (i : Instr) (e : Event) (hr : i ≠ .busReset) (hc : ∀ j, completes s j i = false) : BusMove s i (emit e s)
  | sent (n : BitVec 4) (hc : completes s (idxOf n true) (.busIn s.devAddr n) = true) :
      BusMove s (.busIn s.devAddr n) (completeIn n s)
  | received (n : BitVec 4) (pid : Bool) (data : List Byte)
      (hc : completes s (idxOf n false) (.busOut s.devAddr n pid data) = true) :
      BusMove s (.busOut s.devAddr n pid data) (completeOut n pid data s)

theorem enabled_of_next {t : State} {k : Outcome} (h : whenEnabled s k = .next t) :
    s.initialized = true ∧ s.pullup = true := by
  have hb := (whenEnabled_next h).1
  rwa [busEnabled, Bool.and_eq_true] at hb

theorem busIn_move {t : State} (h : exec (.busIn a n) s = .next t) : BusMove s (.busIn a n) t := by
  obtain ⟨hi, hp⟩ := enabled_of_next h
  rw [exec_busIn_onToken hi hp] at h
  obtain ⟨hacc, hk⟩ | ⟨hacc, e, rfl⟩ := onToken_next h
  · obtain rfl := matched_address hacc.matched
    split at hk
    · cases hk; exact .sent n (completes_busIn_iff.mpr ⟨rfl, hacc⟩)
    · cases hk
  · refine .noticed _ e (by simp) fun j => Bool.eq_false_iff.mpr fun hc => ?_
    obtain ⟨rfl, hj⟩ := completes_busIn_iff.mp hc
    exact hacc hj

theorem busOut_move {t : State} (h : exec (.busOut a n pid data) s = .next t) : BusMove s (.busOut a n pid data) t := by
  obtain ⟨hi, hp⟩ := enabled_of_next h
  rw [exec_busOut_onToken hi hp] at h
  obtain ⟨hacc, hk⟩ | ⟨hacc, e, rfl⟩ := onToken_next h
  · obtain rfl := matched_address hacc.matched
    split at hk
    · cases hk
    next hlen =>
    split at hk
    · cases hk; exact .received n pid data (completes_busOut_iff.mpr ⟨rfl, hacc, Nat.le_of_not_gt hlen⟩)
    · cases hk
  · refine .noticed _ e (by simp) fun j => Bool.eq_false_iff.mpr fun hc => ?_
    obtain ⟨rfl, hj, -⟩ := completes_busOut_iff.mp hc
    exact hacc hj

theorem exec_busMove {e : Instr} {t : State} (hf : e.format = .bus) (h : exec e s = .next t) : BusMove s e t := by
  cases e with
  | busReset => obtain ⟨-, h⟩ := whenEnabled_next h; cases h; exact .reset
  | busSetup a p =>
    obtain ⟨-, h⟩ := whenEnabled_next h
    split at h
    · next ha => cases h; subst ha; exact .accepted p
    · cases h; exact .noticed _ _ (by simp) fun _ => rfl
  | busIn a n => exact busIn_move h
  | busOut a n pid data => exact busOut_move h
  | _ => cases hf

/-! What a bus event does to each piece of state (R218). -/

/-- Neither `SETUP_HW` nor a buffer overlaps a buffer-control word (R70). -/
theorem not_mem_bufCtrlWord {x : Nat} (hx : x < 8 ∨ 0x100 ≤ x) (k : EpIdx) :
    ¬(bufCtrlAddr k ≤ x ∧ x < bufCtrlAddr k + 4) := by
  have := bufCtrlAddr_range k
  omega

section
variable {e : Instr} {t : State} (h : BusMove s e t)
include h

theorem BusMove.busResetLatch : t.busResetLatch = (s.busResetLatch || decide (e = .busReset)) := by
  cases h with
  | reset => simp
  | accepted => rw [acceptSetup_frame]; simp
  | noticed _ _ hr => simp [hr]
  | sent => rw [completeIn_frame]; simp
  | received => rw [completeOut_frame]; simp

theorem BusMove.setupReqLatch (hne : t.setupReqLatch ≠ s.setupReqLatch) :
    t.setupReqLatch = true ∧ ∃ p, e = .busSetup s.devAddr p := by
  cases h with
  | accepted p => exact ⟨rfl, p, rfl⟩
  | reset | noticed | sent | received => exact absurd rfl hne

theorem BusMove.bufStatus (i : EpIdx) : t.bufStatus.getLsbD i = (s.bufStatus.getLsbD i || completes s i e) := by
  have hset {k : EpIdx} (hc : completes s k e = true) :
      (setBit s.bufStatus k.val true).getLsbD i = (s.bufStatus.getLsbD i || completes s i e) := by
    rw [getLsbD_setBit _ _ _ _ k.isLt, completes_eq_decide hc]
    by_cases hik : i = k
    · simp [hik]
    · simp [hik, Fin.val_ne_of_ne hik]
  cases h with
  | reset => rw [completes_busReset, Bool.or_false]
  | accepted p => rw [completes_busSetup, Bool.or_false, acceptSetup_frame]
  | noticed _ _ _ hn => rw [hn, Bool.or_false]; rfl
  | sent n hc => exact hset hc
  | received n pid data hc => exact hset hc

theorem BusMove.avail (i : EpIdx) :
    (bufCtrl t i).getLsbD bcAvail = ((bufCtrl s i).getLsbD bcAvail && !completes s i e) := by
  have hclear {k : EpIdx} {w : Word} (hc : completes s k e = true) (hw : w.getLsbD bcAvail = false) :
      (if i = k then w else bufCtrl s i).getLsbD bcAvail = ((bufCtrl s i).getLsbD bcAvail && !completes s i e) := by
    rw [completes_eq_decide hc]
    by_cases hik : i = k
    · simp [hik, hw]
    · simp [hik]
  cases h with
  | reset => rw [completes_busReset, Bool.not_false, Bool.and_true]; rfl
  | accepted p =>
    rw [bufCtrl_acceptSetup, completes_busSetup, Bool.not_false, Bool.and_true]
    split
    · exact getLsbD_setBit_ne _ _ _ _ (by decide)
    · rfl
  | noticed _ _ _ hn => rw [hn, Bool.not_false, Bool.and_true]; rfl
  | sent n hc => rw [bufCtrl_completeIn]; exact hclear hc (getLsbD_inDoneWord _ _)
  | received n pid data hc =>
    rw [bufCtrl_completeOut]; exact hclear hc (getLsbD_outDoneWord _ _ (by decide))

theorem BusMove.buffer {x : Nat} (hx : 0x100 ≤ x) (hne : memRead t.mem x ≠ memRead s.mem x) :
    ∃ n pid data, e = .busOut s.devAddr n pid data ∧ completes s (idxOf n false) e = true ∧
      bufAddr (idxOf n false) ≤ x ∧ x < bufAddr (idxOf n false) + data.length := by
  cases h with
  | reset | noticed => exact absurd rfl hne
  | accepted p => exact absurd (memRead_acceptSetup p s (by omega) (by omega)) hne
  | sent n => exact absurd (memRead_completeIn n s (not_mem_bufCtrlWord (.inr hx) _)) hne
  | received n pid data hc =>
    refine ⟨n, pid, data, rfl, hc, ?_⟩
    by_contra hb
    exact hne (memRead_completeOut n pid data s hb (not_mem_bufCtrlWord (.inr hx) _))

theorem BusMove.setupBytes {x : Nat} (hx : x < 8) (hne : memRead t.mem x ≠ memRead s.mem x) :
    ∃ p, e = .busSetup s.devAddr p := by
  cases h with
  | reset | noticed => exact absurd rfl hne
  | accepted p => exact ⟨p, rfl⟩
  | sent n => exact absurd (memRead_completeIn n s (not_mem_bufCtrlWord (.inl hx) _)) hne
  | received n pid data =>
    have hbuf := bufAddr_ge (idxOf n false)
    exact absurd (memRead_completeOut n pid data s (by omega) (not_mem_bufCtrlWord (.inl hx) _)) hne

end

/-- Settles O38, by what a bus event does and when: one lemma for each piece of state. -/
theorem busSideNever : Obligations.BusSideNever := by
  intro e s t hf h
  have hm : BusMove s e t := exec_busMove hf h
  exact ⟨bus_frame hf h, fun i _ => (exec_event hf h).epCtrl i, hm.busResetLatch, hm.setupReqLatch, hm.bufStatus, hm.avail,
    fun _ => hm.buffer, fun _ => hm.setupBytes⟩

/-- Settles O32: the writes of an accepted packet, read back. -/
theorem busResetAndSetup : Obligations.BusResetAndSetup := by
  intro a p s hi hp
  refine ⟨whenEnabled_of hi hp, fun ha => ⟨acceptSetup p s, ?accepted, acceptSetup_frame p s, setupHw_acceptSetup p s,
    fun j => getElem?_eq_memRead_acceptSetup p s, fun i h2 k _ => ?words, fun x => memRead_acceptSetup p s⟩,
    fun ha => ?ignored⟩
  case accepted => exact (whenEnabled_of hi hp).trans (if_pos ha)
  case words => rw [bufCtrl_acceptSetup, if_pos h2, getLsbD_setBit _ _ _ _ (by decide)]; rfl
  case ignored => exact (whenEnabled_of hi hp).trans (if_neg ha)

/-- Settles O33: the token passes its tests, and a packet of at most 64 bytes lies inside its buffer. -/
theorem busInCompletes : Obligations.BusInCompletes := by
  intro a n s i hi hp hidx ha hen hs hav hfull hlen
  obtain rfl := eq_idxOf_in hidx
  have hacc : Accepts s a (idxOf n true) (inReady s (idxOf n true)) :=
    ⟨matched_iff.mpr ⟨ha, hen⟩, hs, Bool.and_eq_true_iff.mpr ⟨hav, hfull⟩⟩
  refine ⟨completeIn n s, readBuf s (idxOf n true) (bcLen (bufCtrl s (idxOf n true))).toNat, ?exec, completeIn_frame n s,
    memReadBytes_length _ _ _, fun j hj => ?bytes, fun k _ => ?word, fun k _ => ?status, fun x => memRead_completeIn n s⟩
  case exec => rw [exec_busIn_onToken hi hp, onToken_of_accepts hacc, if_pos (bufMapped_of_le _ _ hlen)]
  case bytes => exact memReadBytes_getElem? _ _ _ _ (by rwa [readBuf, memReadBytes_length] at hj)
  case word => rw [bufCtrl_completeIn, if_pos rfl, getLsbD_inDoneWord]
  case status => exact getLsbD_setBit _ _ _ _ (idxOf n true).isLt

/-- Settles O34, by the tests that both tokens share. -/
theorem busInOtherCases : Obligations.BusInOtherCases := by
  intro a n s i hi hp hidx
  obtain rfl := eq_idxOf_in hidx
  obtain ⟨hunmatched, hmatched⟩ := onToken_otherCases (exec_busIn_onToken (a := a) hi hp)
  refine ⟨hunmatched, fun ha hen => ⟨(hmatched ha hen).1, fun hs hr => (hmatched ha hen).2 hs ?_⟩⟩
  exact Bool.eq_false_iff.mpr (mt Bool.and_eq_true_iff.mp hr)

/-- Settles O35: the token passes its tests, and a packet of at most 64 bytes lies inside its buffer. -/
theorem busOutCompletes : Obligations.BusOutCompletes := by
  intro a n pid data s i hi hp hidx ha hen hs hav hfull hlen h64
  obtain rfl := eq_idxOf_out hidx
  have hacc : Accepts s a (idxOf n false) (outReady s (idxOf n false)) :=
    ⟨matched_iff.mpr ⟨ha, hen⟩, hs, Bool.and_eq_true_iff.mpr ⟨hav, (Bool.not_eq_true' _).mpr hfull⟩⟩
  refine ⟨completeOut n pid data s, ?exec, completeOut_frame n pid data s,
    fun j => getElem?_eq_memRead_completeOut n pid s, ?len, fun k hk _ => ?word, fun k _ => ?status,
    fun x => memRead_completeOut n pid data s⟩
  case exec =>
    rw [exec_busOut_onToken hi hp, onToken_of_accepts hacc, if_neg (Nat.not_lt_of_le hlen),
      if_pos (bufMapped_of_le _ _ h64)]
  case len =>
    rw [bufCtrl_completeOut, if_pos rfl, bcLen_outDoneWord, BitVec.toNat_ofNat, Nat.mod_eq_of_lt (by omega)]
  case word => rw [bufCtrl_completeOut, if_pos rfl, getLsbD_outDoneWord _ _ hk]
  case status => exact getLsbD_setBit _ _ _ _ (idxOf n false).isLt

/-- Settles O36, by the tests that both tokens share. -/
theorem busOutOtherCases : Obligations.BusOutOtherCases := by
  intro a n pid data s i hi hp hidx
  obtain rfl := eq_idxOf_out hidx
  obtain ⟨hunmatched, hmatched⟩ := onToken_otherCases (exec_busOut_onToken (a := a) (pid := pid) (data := data) hi hp)
  refine ⟨hunmatched, fun ha hen => ⟨(hmatched ha hen).1, fun hs hr => (hmatched ha hen).2 hs ?_⟩⟩
  refine Bool.eq_false_iff.mpr fun hready => hr ?_
  obtain ⟨hav, hfull⟩ := Bool.and_eq_true_iff.mp hready
  exact ⟨hav, (Bool.not_eq_true' _).mp hfull⟩

/-! Where HOST has no move (R210, R219 c), and the reserved ranges (R74). -/

theorem whenEnabled_of_disabled (h : s.initialized = false ∨ s.pullup = false) (k : Outcome) :
    whenEnabled s k = .refused .hostHasNoMove := by
  obtain h | h := h <;> simp [whenEnabled, busEnabled, h]

theorem bufMapped_eq_false {i : EpIdx} {n : Nat} (h : bufEnd i < bufAddr i + n) : bufMapped i n = false := by
  simp [bufMapped, h]

theorem exec_bus_of_disabled {e : Instr} (hf : e.format = .bus) (h : s.initialized = false ∨ s.pullup = false) :
    exec e s = .refused .hostHasNoMove := by
  cases e with
  | busReset | busSetup | busIn | busOut => exact whenEnabled_of_disabled h _
  | _ => cases hf

/-- Settles O37, by what stops the event: the device is not visible, the packet is longer than the armed `LEN`, or `LEN`
reaches past the buffers. -/
theorem busEventsStopOutsideTheirRules : Obligations.BusEventsStopOutsideTheirRules := by
  refine ⟨fun i s => exec_bus_of_disabled, fun n pid data s i _ hc hi hp => ?out, fun n s i _ hc hi hp hend => ?into⟩
  case out =>
    obtain ⟨rfl, hacc, -⟩ := completes_busOut_iff.mp hc
    rw [exec_busOut_onToken hi hp, onToken_of_accepts hacc]
    refine ⟨fun hlong => if_pos hlong, fun hlen hend => ?_⟩
    rw [if_neg (Nat.not_lt_of_le hlen), bufMapped_eq_false hend]; rfl
  case into =>
    obtain ⟨rfl, hacc⟩ := completes_busIn_iff.mp hc
    rw [exec_busIn_onToken hi hp, onToken_of_accepts hacc, bufMapped_eq_false hend]; rfl

end Sys2Proof.Machine
end

section
/-! The lines of the handler, each at its position (R231 to R242, log entry 9): the phases, the dispatch of a setup packet,
and the completion services. -/

namespace Sys2Proof.Machine

/-! IRQ.ENTRY, IRQ.EXIT, IRQ.BUS_RESET and IRQ.SETUP. -/

/-- Settles O42: one line reads the status word, the next moves on, and the exit is `leaveInterrupt`. -/
theorem irqEntryAndExitLines : Obligations.IrqEntryAndExitLines := by
  refine fun s => ⟨fun hp => ⟨_, ?read, rfl, rfl⟩, rfl⟩
  case read => rw [exec_irqEntry, execIrqEntry, hp]; rfl

/-- Settles O43: the cause bit decides at the first line, which clears one latch; from there on the position decides. -/
theorem irqBusResetLines : Obligations.IrqBusResetLines := by
  refine fun s hp => ⟨fun hs => ⟨_, _, _, ?clear, rfl, rfl, rfl, rfl, rfl, rfl⟩, fun hs => ?skip⟩
  case clear =>
    rw [exec_irqBusReset, execIrqBusReset, hp]
    refine (if_pos hs).trans ?_
    rw [writeIntClr_busReset]; rfl
  case skip => rw [exec_irqBusReset, execIrqBusReset, hp]; exact if_neg (Bool.eq_false_iff.mp hs)

theorem lo_halfOfBytes (lo hi : Byte) : Half.lo (halfOfBytes lo hi) = lo := BitVec.extractLsb'_append_eq_right

theorem hi_halfOfBytes (lo hi : Byte) : Half.hi (halfOfBytes lo hi) = hi := BitVec.extractLsb'_append_eq_left

/-- The copy of the setup packet holds each of its 8 bytes (R105, R234). -/
theorem getElem?_packetBytes_setupHw (s : State) {j : Nat} (hj : j < 8) :
    (packetBytes (setupHw s))[j]? = some (memRead s.mem j) := by
  have hb : packetBytes (setupHw s) = memReadBytes s.mem 0 8 := by
    simp only [setupHw, packetBytes, packetOfBytes, halfBytes, lo_halfOfBytes, hi_halfOfBytes]; rfl
  rw [hb, memReadBytes_getElem? _ _ _ _ hj, Nat.zero_add]

/-- Settles O44: the latch is cleared where the cause bit is set, the copy is read off DPRAM as the first line left it. -/
theorem irqSetupLines : Obligations.IrqSetupLines := by
  refine fun s => ⟨fun hp hs => ⟨_, _, ?clear, rfl, rfl, rfl, fun j => getElem?_packetBytes_setupHw _, rfl⟩,
    fun hp hs => ?skip, fun hp => ?go⟩
  case clear =>
    rw [exec_irqSetup, execIrqSetup, hp]
    refine (if_pos hs).trans ?_
    rw [writeIntClr_setupReq]; rfl
  case skip => rw [exec_irqSetup, execIrqSetup, hp]; exact if_neg (Bool.eq_false_iff.mp hs)
  case go => rw [exec_irqSetup, execIrqSetup, hp]; rfl

/-! IRQ.BUFF. -/

/-- Line 2a clears one bit of the live register (R239). -/
theorem getLsbD_writeBufStatusClr_indexMask (s : State) (i : Nat) {k : Nat} (hk : k < 32) :
    (writeBufStatusClr (indexMask i) s).bufStatus.getLsbD k = if k = i then false else s.bufStatus.getLsbD k := by
  rw [writeBufStatusClr_bufStatus, indexMask, BitVec.getLsbD_and, BitVec.getLsbD_not, BitVec.getLsbD_twoPow]
  by_cases h : k = i
  · subst h; simp [hk]
  · simp [hk, h, Ne.symm h]

/-- Settles O48, by the position, and in the loop by the index and its bit of the copy. -/
theorem irqBuffLines : Obligations.IrqBuffLines := by
  refine fun s => ⟨fun hp hs => ?skip, fun hp hs => ?copy,
    fun hp hi hb => ⟨goto .h5Len (writeBufStatusClr (indexMask s.locals.i) s), ?clear, rfl, fun k => ?bits⟩,
    fun i hp hi => ?len, fun hp hi hb => ?pass, fun hp => ?next, fun hp hi => ?last⟩
  case skip => rw [exec_irqBuff, execIrqBuff, hp]; exact if_neg (Bool.eq_false_iff.mp hs)
  case copy => rw [exec_irqBuff, execIrqBuff, hp]; exact if_pos hs
  case clear => rw [exec_irqBuff, execIrqBuff, hp]; exact (if_pos hi).trans (if_pos hb)
  case bits => exact getLsbD_writeBufStatusClr_indexMask s s.locals.i
  case len =>
    rw [exec_irqBuff, execIrqBuff, hp]
    simp only [hi, i.isLt, dif_pos]; rfl
  case pass => rw [exec_irqBuff, execIrqBuff, hp]; exact (if_pos hi).trans (if_neg (Bool.eq_false_iff.mp hb))
  case next => rw [exec_irqBuff, execIrqBuff, hp]; rfl
  case last => rw [exec_irqBuff, execIrqBuff, hp]; exact if_neg (Nat.not_lt.mpr hi)

/-! Setup packets. -/

/-- Settles O45: an `arm_in` of no bytes writes the one word and flips the one toggle. -/
theorem setAddressArmsAndDefers : Obligations.SetAddressArmsAndDefers := by
  intro v i l s
  obtain ⟨-, -, hword, htoggle, hmem⟩ := armedIn_armIn 0 [] s
  refine ⟨goto .h3Go (armIn 0 [] s), rfl, ?frame, hword, fun ht => ⟨?word, ?toggle⟩, fun x hx => ?mem⟩
  case frame => rw [armIn_frame]; rfl
  case word =>
    refine hword.trans ?_
    rw [show s.toggle[(0 : EpIdx)] = true from ht]; decide
  case toggle =>
    rw [goto_toggle, htoggle]
    simp [ht]
  case mem => exact hmem x (by simp only [List.length_nil]; omega) hx

theorem isSetAddress_iff (p : SetupPacket) :
    p.isSetAddress = true ↔ p.bmRequestType = 0x00#8 ∧ p.bRequest = 0x05#8 := by
  simp [SetupPacket.isSetAddress]

theorem isSetConfiguration_iff (p : SetupPacket) :
    p.isSetConfiguration = true ↔ p.bmRequestType = 0x00#8 ∧ p.bRequest = 0x09#8 := by
  simp [SetupPacket.isSetConfiguration]

/-- Every packet that is not SET_ADDRESS goes to the resolver; the class says only whether acceptance configures (R106). -/
theorem exec_decodeSetup_of_not_setAddress {p : SetupPacket} (hp : ¬(p.bmRequestType = 0x00#8 ∧ p.bRequest = 0x05#8))
    (s : State) : exec (decodeSetup p) s = dispatchResolver p p.isSetConfiguration s := by
  rw [decodeSetup, if_neg (mt (isSetAddress_iff p).mp hp)]
  split
  · next hc =>
    obtain ⟨ht, hr⟩ := (isSetConfiguration_iff p).mp hc
    have he : ⟨0x00, 0x09, p.wValue, p.wIndex, p.wLength⟩ = p :=
      (SetupPacket.mk.injEq ..).mpr ⟨ht.symm, hr.symm, rfl, rfl, rfl⟩
    rw [exec_setupSetConfiguration, hc, he]
  · next hc => rw [exec_setupOther, Bool.eq_false_iff.mpr hc]

section
variable {s : State} {p : SetupPacket} {sets : Bool} {f : Byte}

theorem callProc_of {q : Proc} (h : procBody s.procs f = some q) (args : List Byte) :
    callProc f args s = .next (beginCall q args s) := by
  rw [callProc, h]

/-! The lines that look at the resolver on record. -/

theorem dispatchResolver_of_noResolver (h : s.hpc = .h3Dispatch) (hr : s.resolver = none) :
    dispatchResolver p sets s = raise .noResolver s := by
  rw [dispatchResolver, h, hr]

theorem dispatchResolver_of_resolver (h : s.hpc = .h3Dispatch) (hr : s.resolver = some f) :
    dispatchResolver p sets s = .next (goto .h3Emit s) := by
  rw [dispatchResolver, h, hr]

theorem dispatchResolver_calls (h : s.hpc = .h3Call) (hr : s.resolver = some f) :
    dispatchResolver p sets s = callProc f (packetBytes p) s := by
  rw [dispatchResolver, h, hr]

end

/-- Settles O46, by the position: the class of the packet is looked at in one line. -/
theorem resolverDispatchLines : Obligations.ResolverDispatchLines := by
  intro p s hp
  rw [exec_decodeSetup_of_not_setAddress hp]
  refine ⟨fun h hf hr => ?noResolver, fun f h hr => ?dispatch, fun h => ?emit, fun f q h hr hq => ?call,
    fun h => ?resolved, fun h => ?configure, fun h hok => ?accepted⟩
  case noResolver => exact (dispatchResolver_of_noResolver h hr).trans (raise_of .noResolver hf)
  case dispatch => exact dispatchResolver_of_resolver h hr
  case emit => rw [dispatchResolver, h]; rfl
  case call => exact (dispatchResolver_calls h hr).trans (callProc_of hq _)
  case resolved => rw [dispatchResolver, h]; rfl
  case configure =>
    have hc : (s.configured || (s.locals.ok && p.isSetConfiguration)) =
        if s.locals.ok = true ∧ p.bmRequestType = 0x00#8 ∧ p.bRequest = 0x09#8 then true else s.configured := by
      simp only [← isSetConfiguration_iff]
      cases s.configured <;> simp
    rw [dispatchResolver, h, ← hc]; rfl
  case accepted => rw [dispatchResolver, h]; exact if_pos hok

/-- Settles O47: the rejection is DEV.STALL_CONTROL's write, at the index of the packet's direction. -/
theorem rejectionStalls : Obligations.RejectionStalls := by
  intro p s i hp h hok hi hv hl hidx
  have hidx : stallIndex s = i := by rw [stallIndex, hl]; exact hidx.symm
  refine ⟨goto .h3Go (stallControl s), ?exec, rfl, fun k _ => ?bits, fun x hx => ?mem⟩
  case exec =>
    rw [exec_decodeSetup_of_not_setAddress hp, dispatchResolver, h]
    simp only [hok, checkStall_of_pass hi hv]; rfl
  case bits =>
    rw [bufCtrl_congr (goto_mem _ _), stallControl, hidx, bufCtrl_set, getLsbD_setBit _ _ _ _ (by decide)]; rfl
  case mem => rw [goto_mem, stallControl, hidx]; exact memRead_writeWord_of_not_mem _ _ _ _ (by omega)

/-! Completion services. -/

theorem addressDue_iff (s : State) : addressDue s = true ↔
    s.setupValid = true ∧ s.lastSetup.bmRequestType = 0x00#8 ∧ s.lastSetup.bRequest = 0x05#8 := by
  rw [addressDue, Bool.and_eq_true, isSetAddress_iff]

/-- Settles O49, by whether the deferred address is due. -/
theorem deferredAddress : Obligations.DeferredAddress := by
  intro s hp
  have he : exec .completeEp0In s = .next (goto .h5Serve (applyAddress s)) := by
    rw [exec_completeEp0In, execCompleteEp0In, hp]
  rw [he, ← addressDue_iff]
  refine ⟨fun hd => ⟨packetAddress s.lastSetup, BitVec.extractLsb'_toNat .., ?due⟩, fun hd => ?notDue⟩
  case due => rw [applyAddress, if_pos hd]; rfl
  case notDue => rw [applyAddress, if_neg hd]; rfl

/-- At a line of a callback's service every index runs the same service, index 0 too (R238 line 2d, R241). -/
theorem exec_decodeIndex (i : EpIdx) {s : State}
    (hp : s.hpc = .h5Serve ∨ s.hpc = .h5Emit ∨ s.hpc = .h5Call ∨ s.hpc = .h5Returned) :
    exec (decodeIndex i) s = serveCallback i s := by
  unfold decodeIndex
  split
  · next h0 =>
    obtain rfl : i = 0 := Fin.ext h0
    rw [exec_completeEp0In, execCompleteEp0In]
    obtain h | h | h | h := hp <;> rw [h]
  split
  · exact exec_completeOut s i
  · exact exec_completeIn s i

section
variable {s : State} {i : EpIdx} {f : Byte}

/-! The lines that look at the callback on record (R91). -/

theorem serveCallback_of_none (h : s.hpc = .h5Serve) (hc : s.callback[i.val] = none) :
    serveCallback i s = .next (goto .h5Next s) := by
  rw [serveCallback, h, hc]

theorem serveCallback_of_some (h : s.hpc = .h5Serve) (hc : s.callback[i.val] = some f) (hl : s.locals.len.toNat ≤ 64) :
    serveCallback i s =
      .next (goto .h5Emit { s with locals := { s.locals with bytes := readBuf s i s.locals.len.toNat } }) := by
  rw [serveCallback, h, hc, bufMapped_of_le i _ hl, if_pos rfl]

theorem serveCallback_calls (h : s.hpc = .h5Call) (hc : s.callback[i.val] = some f) :
    serveCallback i s = callProc f s.locals.bytes s := by
  rw [serveCallback, h, hc]

end

/-- Settles O50, by the position, and at the service and the call by the callback on record. -/
theorem callbackServiceLines : Obligations.CallbackServiceLines := by
  refine fun i s => ⟨fun h hc => ?passed, fun f h hc hl => ⟨readBuf s i s.locals.len.toNat, ?copy,
    memReadBytes_length _ _ _, fun j hj => ?bytes⟩, fun h => ?emit, fun f q h hc hq => ?call, fun h => ?returned⟩
  case passed => exact (exec_decodeIndex i (.inl h)).trans (serveCallback_of_none h hc)
  case copy => exact (exec_decodeIndex i (.inl h)).trans (serveCallback_of_some h hc hl)
  case bytes => exact memReadBytes_getElem? _ _ _ _ (by rwa [readBuf, memReadBytes_length] at hj)
  case emit => rw [exec_decodeIndex i (.inr (.inl h)), serveCallback, h]; rfl
  case call =>
    calc exec (decodeIndex i) s = serveCallback i s := exec_decodeIndex i (.inr (.inr (.inl h)))
      _ = callProc f s.locals.bytes s := serveCallback_calls h hc
      _ = .next (beginCall q s.locals.bytes s) := callProc_of hq _
  case returned => rw [exec_decodeIndex i (.inr (.inr (.inr h))), serveCallback, h]; rfl

end Sys2Proof.Machine
end

section
/-! A fault and what it leaves (R52, R265, R267), and the entry of the handler (R275 to R278). -/

namespace Sys2Proof.Machine

section
variable {s t : State} {i : Instr}

/-! A fault is raised by writing its register and nothing else. -/

theorem CommandOf.fault (h : CommandOf s i t) :
    t.fault = s.fault ∨ ∃ k : FaultKind, t = { s with fault := some (s.fault.getD k) } := by
  cases h with
  | raised _ k => exact .inr ⟨k, rfl⟩
  | waits | pullWaits | pullWaitsOn => exact .inl rfl
  | armingBegun => rw [startArm_frame]; exact .inl rfl
  | _ => exact .inl (reply_fault _ _)

theorem LineOf.fault (h : LineOf s i t) :
    t.fault = s.fault ∨ ∃ k : FaultKind, t = { s with fault := some (s.fault.getD k) } := by
  cases h with
  | raised _ k => exact .inr ⟨k, rfl⟩
  | addressApplied => rw [applyAddress_frame]; exact .inl rfl
  | _ => exact .inl rfl

/-- An operation leaves the fault register alone, or does nothing but raise a fault (R267). -/
theorem exec_fault (h : exec i s = .next t) :
    t.fault = s.fault ∨ ∃ k : FaultKind, t = { s with fault := some (s.fault.getD k) } := by
  obtain ⟨-, h⟩ | ⟨hf, -⟩ | h' := exec_cases h
  · exact h.fault
  · rw [bus_frame hf h]; exact .inl rfl
  · exact h'.fault

theorem exec_raises (h : exec i s = .next t) (hne : t.fault ≠ s.fault) :
    t = { s with fault := t.fault } ∧ s.fault = none := by
  obtain he | ⟨k, rfl⟩ := exec_fault h
  · exact absurd he hne
  · refine ⟨rfl, Option.eq_none_iff_forall_ne_some.2 fun k' hk => hne ?_⟩
    simp [hk]

/-- The register is sticky (R52). -/
theorem exec_keeps_fault {k : FaultKind} (h : exec i s = .next t) (hk : s.fault = some k) : t.fault = some k := by
  obtain he | ⟨k', rfl⟩ := exec_fault h
  · exact he.trans hk
  · simp [hk]

theorem step_of_faulted {k : FaultKind} (hk : s.fault = some k) : step s = .fault (.blockFaulted k) := by
  simp only [step, stepOnce, hk]

end

/-- Settles O31: an operation keeps the fault register or does nothing but raise a fault, and a faulted block does not step. -/
theorem faultsWriteNothingElse : Obligations.FaultsWriteNothingElse :=
  ⟨fun _ _ _ h => ⟨exec_raises h, fun _ => exec_keeps_fault h⟩, fun _ _ => step_of_faulted⟩

section
variable {s t u : State}

/-! The entry of the handler. -/

/-- The conditions of R275, which fixes `CMD_ATOMIC` as R6 does. -/
theorem entryEnabled_iff : entryEnabled s = true ↔
    s.ctx = .main ∧ irqLine s = true ∧ s.irqMask = 0 ∧ s.arming = none ∧ s.waiting = none := by
  simp [entryEnabled, betweenCommands, Config.cmdAtomic, and_assoc]

/-- With nothing under way the processor enters the handler before it looks at MAIN's port (R275). -/
theorem procTurn_of_entry (hq : Quiet u) (hn : entryEnabled u = true) : procTurn u = .next (takeInterrupt u) := by
  obtain ⟨ha, hw, he⟩ := hq
  simp [procTurn, ha, hw, he, hn, (entryEnabled_iff.1 hn).1]

/-- The processor has a step to take where the handler is to be entered (R88). -/
theorem procReady_of_entry (hn : entryEnabled s = true) : procReady s = true := by
  obtain ⟨-, -, -, ha, hw⟩ := entryEnabled_iff.1 hn
  simp [procReady, ha, hw, hn]

/-- With no schedule left a processor that is ready takes the step (R88). -/
theorem step_of_ready (hf : s.fault = none) (hs : s.sched = []) (hr : procReady s = true) : step s = procTurn s := by
  simp only [step, stepOnce, hf, hs, hr, if_true]

/-- No operation takes the block from MAIN into the handler. -/
theorem exec_keeps_main {i : Instr} (h : exec i s = .next t) (hc : s.ctx = .main) : t.ctx = .main := by
  obtain ⟨-, h⟩ | ⟨hf, -⟩ | h' := exec_cases h
  · exact h.sequencing.1.trans hc
  · rw [bus_frame hf h]; exact hc
  · obtain ⟨hct, -⟩ | ⟨hct, -⟩ | ⟨hct, -⟩ := h'.position
    · exact hct.trans hc
    · exact hct.trans hc
    · exact hct

/-- A step leaves MAIN executing, or is the entry of the handler, with its conditions met (R275, R278). -/
theorem StepOf.main_or_entry (h : StepOf u t) (hc : u.ctx = .main) :
    t.ctx = .main ∨ (Quiet u ∧ entryEnabled u = true ∧ t = takeInterrupt u) := by
  cases h with
  | idle h => subst h; exact .inl hc
  | arm _ _ h => subst h; rw [armStep_frame]; exact .inl hc
  | retry _ _ _ h => exact .inl (exec_keeps_main h hc)
  | extReturn _ _ _ _ _ h => subst h; rw [endCall_frame]; exact .inl hc
  | extIssue _ _ _ _ _ _ _ _ h => exact .inl (exec_keeps_main h hc)
  | handler _ _ _ hirq => rw [hc] at hirq; cases hirq
  | entry ha hw he _ hn h => exact .inr ⟨⟨ha, hw, he⟩, hn, h⟩
  | main _ _ _ _ _ _ _ _ _ h => exact .inl (exec_keeps_main h hc)
  | host _ _ _ _ h => exact .inl (exec_keeps_main h hc)

end

/-- Settles O41: of what a step can do, the entry alone leaves MAIN. -/
theorem noOtherHandlerEntry : Obligations.NoOtherHandlerEntry := by
  intro s t h hc ht
  obtain ⟨-, sched, h⟩ := step_cases h
  obtain hm | ⟨hq, hn, rfl⟩ := h.main_or_entry hc
  · rw [hm] at ht; cases ht
  · obtain ⟨-, hline, hmask, -⟩ := entryEnabled_iff.1 hn
    exact ⟨hline, hmask, hq, rfl⟩

/-- Settles O40, by whether the schedule names the processor or is spent. -/
theorem handlerEntry : Obligations.HandlerEntry := by
  intro s hf hq hc hline hmask
  have hn : entryEnabled s = true := entryEnabled_iff.2 ⟨hc, hline, hmask, hq.1, hq.2.1⟩
  refine ⟨fun hs => ?spent, fun rest hs => ?named⟩
  case spent =>
    calc step s = procTurn s := step_of_ready hf hs (procReady_of_entry hn)
      _ = .next (takeInterrupt s) := procTurn_of_entry hq hn
  case named =>
    calc step s = procTurn { s with sched := rest } := step_of_proc hf hs
      _ = .next (takeInterrupt { s with sched := rest }) := procTurn_of_entry hq hn

end Sys2Proof.Machine
end
